-- ==== Sys2Proof/Word.lean ====
section
/-! DEFINITION. The word types of the block (spec/00_scope.md R11): bytes, nibbles, and the 16-bit length. -/

namespace Sys2Proof

/-- An 8-bit unsigned value (R11). -/
abbrev Byte := BitVec 8

/-- A 4-bit unsigned value (R11): an identity or half a byte. -/
abbrev Nibble := BitVec 4

/-- A 16-bit unsigned value: the payload length (R8, LEN_BITS) or a handler token (R22). -/
abbrev Half := BitVec 16

/-- A 64-bit host request descriptor (R56). -/
abbrev Descriptor := BitVec 64

/-- `zeros(n)` (R12). -/
abbrev zeros (n : Nat) : List Byte := List.replicate n 0

end Sys2Proof
end

