-- ==== Sys2Proof/Config.lean ====
section
/-! DEFINITION. The configuration record `cfg` (spec/00_scope.md R8) and the values the spec leaves OPEN. The constants
the spec fixes are in Sys2Proof/Machine/Constants.lean. -/

namespace Sys2Proof

/-- The parameters a block is built with (R8, R44, D28). `rxBufBase` and `readTimeout` are read by no rule. -/
structure Cfg where
  /-- `MAGIC1`, header byte 0. -/
  magic1 : Byte
  /-- `MAGIC2`, header byte 1. -/
  magic2 : Byte
  /-- `VERSION`, header byte 2. -/
  version : Byte
  /-- `ACK`, the acknowledgment byte. -/
  ack : Byte
  /-- `RX_CAP`, the number of cells of the receive buffer. -/
  rxCap : Nat
  /-- `RX_BUF_BASE`, where the buffer sits in a larger system (R44). -/
  rxBufBase : Nat
  /-- `T_READ_TIMEOUT`, the transport's read timeout (D28). -/
  readTimeout : Nat
  deriving DecidableEq, Repr

/-- OPEN (D4): no value is in the spec, and nothing in Lean can find one out. -/
opaque Config.magic1 : Byte
/-- OPEN (D4). -/
opaque Config.magic2 : Byte
/-- OPEN (D4). -/
opaque Config.version : Byte
/-- OPEN (D4). -/
opaque Config.ack : Byte
/-- OPEN (D19). -/
opaque Config.rxBufBase : Nat
/-- OPEN (D28). -/
opaque Config.readTimeout : Nat

/-- The configuration of the block as built: the OPEN values, and R8's default capacity 320 (DESIGN CHOICE, log 2;
only `InvariantHoldsAtReset` rests on it). -/
def Cfg.built : Cfg where
  magic1 := Config.magic1
  magic2 := Config.magic2
  version := Config.version
  ack := Config.ack
  rxCap := 320
  rxBufBase := Config.rxBufBase
  readTimeout := Config.readTimeout

end Sys2Proof
end

