-- ==== Sys2Proof/Machine/Constants.lean ====
section
/-! DEFINITION. The constants of this hardware (spec/00_scope.md R8) and the check on a configuration (R9). -/

namespace Sys2Proof.Machine

/-- `HDR_LEN` (R8). -/
def hdrLen : Nat := 8

/-- `CHUNK_DATA` (R8). -/
def chunkData : Nat := 32

/-- `CHUNK_LEN` (R8). -/
def chunkLen : Nat := 33

/-- `MAX_PAYLOAD` (R8). -/
def maxPayload : Nat := 320

/-- `ACK_POLL_ATTEMPTS` (R8). -/
def ackPollAttempts : Nat := 100

/-- `ACK_POLL_INTERVAL` in milliseconds (R8): timing only, read by no rule (R148). -/
def ackPollInterval : Nat := 1

/-- `CRC_POLY` (R8). -/
def crcPoly : Byte := 0x8C

/-- `CRC_INIT` (R8). -/
def crcInit : Byte := 0x00

/-- R9: the capacity is a multiple of 32 and at most `MAX_PAYLOAD`. -/
def cfgOk (c : Cfg) : Bool :=
  c.rxCap % 32 == 0 && decide (c.rxCap ≤ maxPayload)

end Sys2Proof.Machine
end

