-- ==== Sys2Proof/Machine/Crc.lean ====
section
/-! DEFINITION. The Checksum-8 unit (spec/40_checksum.md R72, R73). -/

namespace Sys2Proof.Machine

/-- One turn of R72's loop on the accumulator, with the input bit `b[0]`. -/
def crcShift (acc b : Byte) : Byte :=
  if (acc ^^^ b) &&& 0x01 = 1 then (acc >>> 1) ^^^ crcPoly else acc >>> 1

/-- `k` turns of R72's loop. -/
def crcTurns : Nat → Byte → Byte → Byte
  | 0, acc, _ => acc
  | k + 1, acc, b => crcTurns k (crcShift acc b) (b >>> 1)

/-- `crc8_step(acc, b)` (R72): one byte into the accumulator, least significant bit first. The loop is the spec's own
reading of the source's parameters (PRESUMED there, G1; log 16). -/
def crc8Step (acc b : Byte) : Byte := crcTurns 8 acc b

/-- `crc8(s)` (R73). -/
def crc8 (s : List Byte) : Byte := s.foldl crc8Step crcInit

end Sys2Proof.Machine
end

