-- ==== Sys2Proof/Machine/Operands.lean ====
section
/-! DEFINITION. Operand assembly: the fields of a descriptor (spec/30_encoding.md R56, R58), of the header bytes
(R54, R55) and of the length (spec/20_memory.md R38, R39), and the operation codes with their table masks (R57, R59). -/

namespace Sys2Proof.Machine

/-- The eight operations of R57. -/
inductive Op where
  | send | receive | poll | checksum | setId | registerHandler | attachDiag | handlerDone
  deriving DecidableEq, Repr

/-- The operation map of R57. -/
def opCode : Op → BitVec 4
  | .send => 0x1
  | .receive => 0x2
  | .poll => 0x3
  | .checksum => 0x4
  | .setId => 0x5
  | .registerHandler => 0x6
  | .attachDiag => 0x7
  | .handlerDone => 0x8

/-- The operation a code names; none for the reserved codes 0 and 9 to 15 (R57, R59). -/
def opOfCode (c : BitVec 4) : Option Op :=
  [Op.send, .receive, .poll, .checksum, .setId, .registerHandler, .attachDiag, .handlerDone].find?
    (fun o => opCode o == c)

/-- The column `mask` of opcode_table.json: a 1 where the row fixes the bit (R59). -/
def opMask : Op → Descriptor
  | .send => 0xFFFFFF00000000FF
  | .receive => 0xFFFFFFFFFFFFFFFF
  | .poll => 0xFFFFFFFFFFFFFFFF
  | .checksum => 0xFFFFFF0000FFFFFF
  | .setId => 0xFFFFFFFFFFFFF0FF
  | .registerHandler => 0xFFFFFF0000FFFFFF
  | .attachDiag => 0xFFFFFFFFFFFFFEFF
  | .handlerDone => 0xFFFFFFFFFFFFFFFF

/-- Which operations come with a side-band byte list (R29, R56). -/
def takesData : Op → Bool
  | .send => true
  | .checksum => true
  | .receive | .poll | .setId | .registerHandler | .attachDiag | .handlerDone => false

/-- `op = q[3:0]` (R56). -/
def fieldOp (q : Descriptor) : BitVec 4 := q.extractLsb' 0 4

/-- `a = q[11:8]` (R58). -/
def fieldA (q : Descriptor) : Nibble := q.extractLsb' 8 4

/-- `b = q[15:12]` (R58). -/
def fieldB (q : Descriptor) : Nibble := q.extractLsb' 12 4

/-- `cmd = q[23:16]` (R58). -/
def fieldCmd (q : Descriptor) : Byte := q.extractLsb' 16 8

/-- `n = q[39:24]` (R58). -/
def fieldN (q : Descriptor) : Half := q.extractLsb' 24 16

/-- `en = q[8]` (R58). -/
def fieldEn (q : Descriptor) : Bool := q.getLsbD 8

/-- The descriptor with these fields, its reserved bits 0 (R56). -/
def descriptor (o : Op) (a b : Nibble) (cmd : Byte) (n : Half) : Descriptor :=
  0#24 ++ n ++ cmd ++ b ++ a ++ 0#4 ++ opCode o

/-- The field `a` of ATTACH_DIAG: `q[8]` is the enable, `q[11:9]` are 0 (R56, R59). -/
def enField (en : Bool) : Nibble := if en then 1 else 0

/-- The high nibble `b[7:4]` of a byte (R11). -/
def hiNibble (b : Byte) : Nibble := b.extractLsb' 4 4

/-- The low nibble `b[3:0]` of a byte (R11). -/
def loNibble (b : Byte) : Nibble := b.extractLsb' 0 4

/-- Header byte 4, `(src << 4) | dst` (R39, R55). -/
def addrByte (src dst : Nibble) : Byte := src ++ dst

/-- `L[15:8]`, header byte 5 (R38). -/
def lenHi (l : Half) : Byte := l.extractLsb' 8 8

/-- `L[7:0]`, header byte 6 (R38). -/
def lenLo (l : Half) : Byte := l.extractLsb' 0 8

/-- `L = h[5] * 256 + h[6]` (R38, R55). -/
def lenOf (hi lo : Byte) : Half := hi ++ lo

/-- Element `i` of a list of bytes (R12); every caller's list holds the element. -/
def byteAt (r : List Byte) (i : Nat) : Byte := r.getD i 0

/-- The eight bytes of a header, byte 0 first (R37, R54). -/
def headerBytes (m n v c : Byte) (s t : Nibble) (l : Half) (k : Byte) : List Byte :=
  [m, n, v, c, addrByte s t, lenHi l, lenLo l, k]

end Sys2Proof.Machine
end

