-- ==== Sys2Proof/Machine/State.lean ====
section
/-! DEFINITION. The block's state (spec/10_state.md R18, R19, R27, R30) with its reset value (spec/70_reset_and_hazards.md
R136), the environment's part of a run (R27 to R29), and the reasons a step can stop (spec/60_exceptions.md R126, R127). -/

namespace Sys2Proof.Machine

/-- The twelve states of R19. -/
inductive Fsm where
  | idle | txHdr | txChunk | awPoll | awSleep | awRead
  | rxAvail | rxHdr | rxHdrAck | rxChunk | rxChunkAck | deliver
  deriving DecidableEq, Repr

/-- Which request is running (R18, `origin`). -/
inductive Origin where
  | send | recv | poll
  deriving DecidableEq, Repr

/-- Which unit the acknowledgment wait is for (R18, `ack_unit`). -/
inductive AckUnit where
  | hdr | chunk
  deriving DecidableEq, Repr

/-- The status taxonomy (R118). -/
inductive Status where
  | ok | shortRead | badMagic | badVersion | badChecksum | bufferTooSmall | badAck | notAddressedToUs
  deriving DecidableEq, Repr

/-- The response record (R30); a field a request does not list is absent. -/
structure Resp where
  status    : Status
  delivered : Option Bool := none
  cmd       : Option Byte := none
  src       : Option Nibble := none
  len       : Option Half := none
  payload   : Option (List Byte) := none
  crc       : Option Byte := none
  deriving DecidableEq, Repr

/-- The events of `hist` (R27 to R29, R111, R114, R136). -/
inductive Event where
  /-- A request was accepted: its descriptor and side-band bytes. -/
  | req (q : Descriptor) (data : List Byte)
  /-- A request completed. -/
  | resp (r : Resp)
  /-- `T.write(bs)`. -/
  | write (bs : List Byte)
  /-- `T.flush()`. -/
  | flush
  /-- `T.avail()` answered `a`. -/
  | avail (a : Nat)
  /-- `T.readExact(n)` answered `r`. -/
  | read (n : Nat) (r : List Byte)
  /-- `T.readByte()` answered `b`. -/
  | readByte (b : Byte)
  /-- A tick was consumed (R28). -/
  | tick
  /-- A message was handed to the handler (R111). -/
  | deliver (token : Half) (cmd : Byte) (src : Nibble) (payload : List Byte) (len : Half)
  /-- A diagnostic record with a 4-bit status code (R114). -/
  | diag (code : BitVec 4)
  /-- Reset (R136). -/
  | reset
  deriving DecidableEq, Repr

/-- What the host does at its port. -/
inductive HostInput where
  /-- Presents a request: a descriptor, and a side-band list if it gives one (R29). -/
  | request (q : Descriptor) (data : Option (List Byte))
  deriving DecidableEq, Repr

/-- What comes from outside between two steps (R14), whatever the block is doing. -/
inductive Act where
  /-- An explicit reset (R137). -/
  | reset
  /-- The host depends on the receive buffer through the reference that hand-over number `ref` gave it (R48; log 13). -/
  | access (ref : Nat)
  deriving DecidableEq, Repr

/-- The environment's part of a run: what the other agents of R4 will do, in order. The spec gives the block no such
state; it is the model's own (log 1), and a statement about every state is a statement about every environment. -/
structure Env where
  /-- What the host does next. -/
  host : List HostInput
  /-- The coming answers of `T.avail()`. -/
  avails : List Nat
  /-- The coming answers of `T.readExact(n)`. -/
  reads : List (List Byte)
  /-- The coming answers of `T.readByte()`. -/
  bytes : List Byte
  /-- The ticks that have arrived and are not consumed. -/
  ticks : Nat
  /-- The acts from outside to come, each with how many more steps pass before it (log 9). -/
  acts : List (Nat × Act)
  deriving DecidableEq, Repr

/-- The receive buffer: its written cells by offset, offsets strictly rising; an unlisted cell is unwritten (R18). -/
abbrev Memory := List Host.Cell

/-- The reasons of R126 and R127 a state can be marked with. -/
inductive Mark where
  | noHandler | unwrittenRead | outsideBuffer
  | badDescriptor | payloadTooLong | idLocked | noDelivery | nestedRequest | badConfig | staleBuffer
  deriving DecidableEq, Repr

/-- The state of R18 and R136. A register that is `none` is unwritten (log 3), except `handler` and `resp`, whose
`none` is a value of theirs, and `mark`, whose `none` is "clear". -/
structure State where
  /-- The configuration (R8): no step writes it. -/
  cfg : Cfg
  fsm : Fsm
  ownId : Nibble
  idLocked : Bool
  handler : Option Half
  diagEn : Bool
  origin : Option Origin
  txCmd : Option Byte
  txSrc : Option Nibble
  txDst : Option Nibble
  txLen : Option Half
  txPayload : Option (List Byte)
  hdrReg : Option (List Byte)
  chkReg : Option (List Byte)
  rxCmd : Option Byte
  rxSrc : Option Nibble
  rxLen : Option Half
  nChunks : Option (BitVec 4)
  chunkIdx : Option (BitVec 4)
  ackUnit : Option AckUnit
  ackAttempts : Option (BitVec 7)
  rxBuf : Memory
  resp : Option Resp
  /-- The fault and refusal marks (R126, R127, R136). -/
  mark : Option Mark
  /-- Every event so far, oldest first (R27, R45). -/
  hist : List Event
  /-- What the environment will do (log 1). -/
  env : Env
  deriving DecidableEq, Repr

/-- Why the machine stops with a fault. Each reason carries the state the fault leaves, its mark set (log 8). All are
safe: no claim about what follows can be proved. -/
inductive Fault where
  /-- R111, R126: a POLL's receive succeeded with no handler registered. Raised by `dispatchDeliver`. -/
  | noHandler (left : State)
  /-- R18, R33, R126: an unwritten register or cell was read. Raised by `readReg` and `memRead`. -/
  | unwrittenRead (left : State)
  /-- R32 requires `off + n <= RX_CAP`; a write that breaks it. Raised by `memWrite` (log 14). -/
  | outsideBuffer (left : State)
  deriving DecidableEq, Repr

/-- Why the machine refuses. Each reason of R127 carries the refused state, its mark set (log 8). All are safe: a
refused state has no meaning. -/
inductive Refusal where
  /-- The instruction has no meaning yet. Raised by no arm of `exec`. -/
  | notModelled (mnemonic : String)
  /-- R59, R74, R96: reserved op or bit, or a side-band list that is missing, of another length, or given with a
  request that takes none (D13). Raised by `refuseDescriptor`, SEND and CHECKSUM. -/
  | badDescriptor (left : State)
  /-- R96, R146: SEND of more than 320 bytes. Raised by SEND. -/
  | payloadTooLong (left : State)
  /-- R115: a second SET_ID. Raised by SET_ID. -/
  | idLocked (left : State)
  /-- R60: HANDLER_DONE in IDLE. Raised by HANDLER_DONE. -/
  | noDelivery (left : State)
  /-- R60: another request in DELIVER. Raised by `acceptRequest` and `refuseDescriptor`. -/
  | nestedRequest (left : State)
  /-- R9: a configuration that is not well formed. Raised by `fetch`. -/
  | badConfig (left : State)
  /-- R48, U4: the host depends on the buffer through a reference that no longer holds. Raised by `accessBuffer`. -/
  | staleBuffer (left : State)
  deriving DecidableEq, Repr

/-- What a step or an instruction answers. -/
abbrev Result := Host.Outcome State Fault Refusal

/-- An environment that does nothing. -/
def Env.silent : Env := ⟨[], [], [], [], 0, []⟩

/-- The block right after reset (R136), its configuration as built, its environment silent. -/
def State.reset : State where
  cfg := Cfg.built
  fsm := .idle
  ownId := 0
  idLocked := false
  handler := none
  diagEn := false
  origin := none
  txCmd := none
  txSrc := none
  txDst := none
  txLen := none
  txPayload := none
  hdrReg := none
  chkReg := none
  rxCmd := none
  rxSrc := none
  rxLen := none
  nChunks := none
  chunkIdx := none
  ackUnit := none
  ackAttempts := none
  rxBuf := []
  resp := none
  mark := none
  hist := [.reset]
  env := Env.silent

end Sys2Proof.Machine
end

