-- ==== Sys2Proof/Machine/Ops.lean ====
section
/-! DEFINITION. The shared operations: reading a register, the receive buffer (spec/20_memory.md R32, R33), completing and
aborting a request (spec/60_exceptions.md R122, R123), stopping (R126, R127), accepting a request (spec/30_encoding.md
R60), the acknowledgment (spec/43_ack_channel.md R89, R90), the transport's availability query (spec/10_state.md R27),
the retained buffer reference (R48) and reset (spec/70_reset_and_hazards.md R136). -/

namespace Sys2Proof.Machine

/-! ### Plain updates -/

/-- Append events to `hist`, in order (R27, R45). -/
def log (evs : List Event) (s : State) : State := { s with hist := s.hist ++ evs }

/-- `fsm <- f` (R13). -/
def goTo (f : Fsm) (s : State) : State := { s with fsm := f }

/-- The host has presented its next input: what remains (log 1). -/
def setHost (x : List HostInput) (s : State) : State := { s with env := { s.env with host := x } }

/-- `T.avail()` has been answered: what remains (log 1). -/
def setAvails (x : List Nat) (s : State) : State := { s with env := { s.env with avails := x } }

/-- `T.readExact(n)` has been answered: what remains (log 1). -/
def setReads (x : List (List Byte)) (s : State) : State := { s with env := { s.env with reads := x } }

/-- `T.readByte()` has been answered: what remains (log 1). -/
def setBytes (x : List Byte) (s : State) : State := { s with env := { s.env with bytes := x } }

/-- A tick has been consumed: what remains (log 1). -/
def setTicks (x : Nat) (s : State) : State := { s with env := { s.env with ticks := x } }

/-- The next act from outside has come, or is one step nearer: what remains (log 9). -/
def setActs (x : List (Nat × Act)) (s : State) : State := { s with env := { s.env with acts := x } }

/-- Set the fault or refusal mark (R126, R127). -/
def marked (m : Mark) (s : State) : State := { s with mark := some m }

/-! ### Register writes -/

/-- `origin <- o` (R18). -/
def setOrigin (o : Origin) (s : State) : State := { s with origin := some o }

/-- The registers SEND's acceptance writes (R96). -/
def latchSend (cmd : Byte) (src dst : Nibble) (len : Half) (payload header : List Byte) (n : BitVec 4)
    (s : State) : State :=
  { s with
    origin := some .send
    txCmd := some cmd
    txSrc := some src
    txDst := some dst
    txLen := some len
    txPayload := some payload
    hdrReg := some header
    nChunks := some n
    chunkIdx := some 0 }

/-- `chk_reg <- c` (R98). -/
def setChkReg (c : List Byte) (s : State) : State := { s with chkReg := some c }

/-- `chunk_idx <- i` (R98, R105). -/
def setChunkIdx (i : BitVec 4) (s : State) : State := { s with chunkIdx := some i }

/-- `n_chunks <- n; chunk_idx <- 0` (R103). -/
def setChunks (n : BitVec 4) (s : State) : State := { s with nChunks := some n, chunkIdx := some 0 }

/-- `ack_attempts <- k` (R91). -/
def setAckAttempts (k : BitVec 7) (s : State) : State := { s with ackAttempts := some k }

/-- `rx_cmd <- c; rx_src <- a; rx_len <- l` (R102). -/
def setRxHeader (c : Byte) (a : Nibble) (l : Half) (s : State) : State :=
  { s with rxCmd := some c, rxSrc := some a, rxLen := some l }

/-- The receive buffer after a write (R32). -/
def setRxBuf (m : Memory) (s : State) : State := { s with rxBuf := m }

/-- `own_id <- a; id_locked <- 1` (R115). -/
def setIdentity (a : Nibble) (s : State) : State := { s with ownId := a, idLocked := true }

/-- `handler <- n` (R116). -/
def setHandler (n : Half) (s : State) : State := { s with handler := some n }

/-- `diag_en <- en` (R117). -/
def setDiagEn (en : Bool) (s : State) : State := { s with diagEn := en }

/-! ### Stopping -/

/-- `fault F` and `refuse F` (R126, R127): the marked state, and the reason it stops for. -/
def stop (m : Mark) (s : State) : Result :=
  match m with
  | .noHandler => .fault (.noHandler (marked m s))
  | .unwrittenRead => .fault (.unwrittenRead (marked m s))
  | .outsideBuffer => .fault (.outsideBuffer (marked m s))
  | .badDescriptor => .refused (.badDescriptor (marked m s))
  | .payloadTooLong => .refused (.payloadTooLong (marked m s))
  | .idLocked => .refused (.idLocked (marked m s))
  | .noDelivery => .refused (.noDelivery (marked m s))
  | .nestedRequest => .refused (.nestedRequest (marked m s))
  | .badConfig => .refused (.badConfig (marked m s))
  | .staleBuffer => .refused (.staleBuffer (marked m s))

/-- Read a register and go on with its value; an unwritten one is `fault UnwrittenRead` (R18, R126). -/
def readReg {α : Type} (r : Option α) (s : State) (k : α → Result) : Result :=
  match r with
  | some v => k v
  | none => stop .unwrittenRead s

/-! ### The receive buffer -/

/-- The value of cell `a`; none if it is unwritten. -/
def cellAt : Memory → Nat → Option Byte
  | [], _ => none
  | (k, v) :: m, a => if a = k then some v else cellAt m a

/-- Write one cell, keeping the offsets rising. -/
def cellSet : Memory → Nat → Byte → Memory
  | [], a, b => [(a, b)]
  | (k, v) :: m, a, b =>
    if a < k then (a, b) :: (k, v) :: m
    else if a = k then (a, b) :: m
    else (k, v) :: cellSet m a b

/-- Write cell `off + i` with `v[i]`, for every `i` (R32). -/
def cellsSet (m : Memory) (off : Nat) : List Byte → Memory
  | [] => m
  | b :: bs => cellsSet (cellSet m off b) (off + 1) bs

/-- Cells `off` to `off + n - 1`, if all are written (R33). -/
def cellsAt (m : Memory) (off : Nat) : Nat → Option (List Byte)
  | 0 => some []
  | n + 1 =>
    match cellAt m off, cellsAt m (off + 1) n with
    | some b, some bs => some (b :: bs)
    | _, _ => none

/-- The canonical form of the receive buffer: offsets strictly rising. -/
def Memory.wf : Memory → Bool
  | [] => true
  | [_] => true
  | (a, _) :: (b, w) :: m => decide (a < b) && Memory.wf ((b, w) :: m)

/-- `MemWrite(rx_buf, off, len(v), v)` (R32), then go on. It requires `off + n <= RX_CAP`; the receive path keeps that,
and a write that would not stops by name (log 14). -/
def memWrite (off : Nat) (v : List Byte) (s : State) (k : State → Result) : Result :=
  if off + v.length ≤ s.cfg.rxCap then k (setRxBuf (cellsSet s.rxBuf off v) s)
  else stop .outsideBuffer s

/-- `MemRead(rx_buf, off, n)` (R33), then go on with the bytes; an unwritten cell is `fault UnwrittenRead`. -/
def memRead (off n : Nat) (s : State) (k : List Byte → Result) : Result :=
  match cellsAt s.rxBuf off n with
  | some v => k v
  | none => stop .unwrittenRead s

/-! ### Completing and aborting a request: the block's trap entry and return -/

/-- The state `respond` leaves: the response written and recorded, `fsm <- IDLE` (R122). -/
def complete (r : Resp) (s : State) : State :=
  { s with resp := some r, hist := s.hist ++ [.resp r], fsm := .idle }

/-- `respond(st, fields...)` (R122). -/
def respond (r : Resp) (s : State) : Result := .next (complete r s)

/-- `raise Status(st)` (R123): the request is aborted with the status alone. -/
def raiseStatus (st : Status) (s : State) : Result := respond { status := st } s

/-! ### Accepting a request -/

/-- R60 for every request but HANDLER_DONE: run in IDLE, refused in DELIVER, held while the block is busy (log 6). -/
def acceptRequest (s : State) (body : Result) : Result :=
  match s.fsm with
  | .idle => body
  | .deliver => stop .nestedRequest s
  | .txHdr | .txChunk | .awPoll | .awSleep | .awRead
  | .rxAvail | .rxHdr | .rxHdrAck | .rxChunk | .rxChunkAck => .next s

/-- R60 for HANDLER_DONE: run in DELIVER, refused in IDLE, held while the block is busy (log 6). -/
def acceptDone (s : State) (body : Result) : Result :=
  match s.fsm with
  | .idle => stop .noDelivery s
  | .deliver => body
  | .txHdr | .txChunk | .awPoll | .awSleep | .awRead
  | .rxAvail | .rxHdr | .rxHdrAck | .rxChunk | .rxChunkAck => .next s

/-- R60 for a descriptor R59 refuses: BadDescriptor in IDLE, NestedRequest in DELIVER. -/
def refuseDescriptor (s : State) : Result :=
  match s.fsm with
  | .idle => stop .badDescriptor s
  | .deliver => stop .nestedRequest s
  | .txHdr | .txChunk | .awPoll | .awSleep | .awRead
  | .rxAvail | .rxHdr | .rxHdrAck | .rxChunk | .rxChunkAck => .next s

/-- Record that a request was accepted (R29). -/
def logReq (o : Op) (a b : Nibble) (cmd : Byte) (n : Half) (data : List Byte) (s : State) : State :=
  log [.req (descriptor o a b cmd n) data] s

/-- R48: the references into the buffer, as a count of the hand-overs so far and the number of the one that still holds.
A delivery or a RECEIVE's response hands over; accepting HANDLER_DONE, RECEIVE or POLL, or reset, ends it (log 13). -/
def refsAfter (c : Nat × Option Nat) : Event → Nat × Option Nat
  | .req q _ =>
    if fieldOp q = opCode .receive ∨ fieldOp q = opCode .poll ∨ fieldOp q = opCode .handlerDone then (c.1, none)
    else c
  | .resp r => if r.payload.isSome then (c.1 + 1, some c.1) else c
  | .deliver _ _ _ _ _ => (c.1 + 1, some c.1)
  | .reset => (c.1, none)
  | .write _ | .flush | .avail _ | .read _ _ | .readByte _ | .tick | .diag _ => c

/-- `refsAfter` over a whole history. -/
def bufferRefs (h : List Event) : Nat × Option Nat := h.foldl refsAfter (0, none)

/-- How many times a history hands the buffer over; the next hand-over has this number. -/
def handOvers (h : List Event) : Nat := (bufferRefs h).1

/-- The reference into the buffer that holds after a history, if any. -/
def goodRef (h : List Event) : Option Nat := (bufferRefs h).2

/-- The host depends on the receive buffer through a retained reference: nothing for the block to do while it holds,
`refuse StaleBuffer` otherwise (R48, R127, U4). -/
def accessBuffer (ref : Nat) (s : State) : Result :=
  if goodRef s.hist = some ref then .next s else stop .staleBuffer s

/-! ### Transport and acknowledgment -/

/-- `T.avail()` (R27): go on with the answer, or wait while there is none (log 1). -/
def askAvail (s : State) (k : Nat → State → Result) : Result :=
  match s.env.avails with
  | [] => .next s
  | a :: rest => k a (log [.avail a] (setAvails rest s))

/-- `sendAck()` (R89). -/
def sendAck (s : State) : State := log [.write [s.cfg.ack], .flush] s

/-- `awaitAck(unit)` (R90). -/
def awaitAck (u : AckUnit) (s : State) : State :=
  { s with ackUnit := some u, ackAttempts := some 0, fsm := .awPoll }

/-! ### Reset -/

/-- An explicit reset (R136, R137): every register as after power-on, `Reset` recorded; the configuration, the history
so far and what the environment will do stay (log 9). -/
def takeReset (s : State) : State :=
  { State.reset with cfg := s.cfg, hist := s.hist ++ [.reset], env := s.env }

end Sys2Proof.Machine
end

