-- ==== Sys2Proof/Machine/Configure.lean ====
section
/-! DEFINITION. The requests of one step: CHECKSUM (spec/40_checksum.md R74) and the configuration requests
(spec/45_dispatch.md R115 to R117). -/

namespace Sys2Proof.Machine

/-- CHECKSUM (R74). -/
def execChecksum (n : Half) (data : List Byte) (s : State) : Result :=
  acceptRequest s <|
    if data.length ≠ n.toNat then stop .badDescriptor s
    else respond { status := .ok, crc := some (crc8 data) } (logReq .checksum 0 0 0 n data s)

/-- SET_ID (R115): once after reset. -/
def execSetId (a : Nibble) (s : State) : Result :=
  acceptRequest s <|
    if s.idLocked then stop .idLocked s
    else respond { status := .ok } (setIdentity a (logReq .setId a 0 0 0 [] s))

/-- REGISTER_HANDLER (R116): the last registration wins. -/
def execRegisterHandler (n : Half) (s : State) : Result :=
  acceptRequest s
    (respond { status := .ok } (setHandler n (logReq .registerHandler 0 0 0 n [] s)))

/-- ATTACH_DIAG (R117). -/
def execAttachDiag (en : Bool) (s : State) : Result :=
  acceptRequest s
    (respond { status := .ok } (setDiagEn en (logReq .attachDiag (enField en) 0 0 0 [] s)))

end Sys2Proof.Machine
end

