-- ==== Sys2Proof/Machine/Codec.lean ====
section
/-! DEFINITION. The frame codec with the address filter (spec/41_frame_codec.md R77 to R80) and the chunk codec
(spec/42_chunk_codec.md R84, R85, R87): pure functions. -/

namespace Sys2Proof.Machine

/-- `hdr_crc(h)` (R77): over bytes 0 to 6 and a zero byte. -/
def hdrCrc (h : List Byte) : Byte := crc8 (h.take 7 ++ [0])

/-- `encodeHeader(cmd, src, dst, L)` (R78). -/
def encodeHeader (c : Cfg) (cmd : Byte) (src dst : Nibble) (l : Half) : List Byte :=
  headerBytes c.magic1 c.magic2 c.version cmd src dst l
    (hdrCrc (headerBytes c.magic1 c.magic2 c.version cmd src dst l 0))

/-- `accepts(dst, own)` (R79). -/
def accepts (dst own : Nibble) : Bool := dst == own

/-- What a header that passed every check says (R80). -/
structure HeaderInfo where
  cmd : Byte
  src : Nibble
  len : Half
  deriving DecidableEq, Repr

/-- `decodeHeader(r, own)` (R80), the checks in the order of R120. -/
def decodeHeader (c : Cfg) (r : List Byte) (own : Nibble) : Except Status HeaderInfo :=
  if r.length < hdrLen then .error .shortRead
  else if byteAt r 0 ≠ c.magic1 ∨ byteAt r 1 ≠ c.magic2 then .error .badMagic
  else if byteAt r 2 ≠ c.version then .error .badVersion
  else if hdrCrc r ≠ byteAt r 7 then .error .badChecksum
  else if !accepts (loNibble (byteAt r 4)) own then .error .notAddressedToUs
  else .ok ⟨byteAt r 3, hiNibble (byteAt r 4), lenOf (byteAt r 5) (byteAt r 6)⟩

/-- The data field of chunk `k` of payload `p` (R84): the payload's bytes, then zeros up to 32. -/
def chunkField (p : List Byte) (k : Nat) : List Byte :=
  let d := (p.drop (chunkData * k)).take chunkData
  d ++ zeros (chunkData - d.length)

/-- `encodeChunk(p, k)` (R84). -/
def encodeChunk (p : List Byte) (k : Nat) : List Byte :=
  chunkField p k ++ [crc8 (chunkField p k)]

/-- `decodeChunk(r)` (R85). -/
def decodeChunk (r : List Byte) : Except Status (List Byte) :=
  if r.length < chunkLen then .error .shortRead
  else if crc8 (r.take chunkData) ≠ byteAt r chunkData then .error .badChecksum
  else .ok (r.take chunkData)

/-- `nchunks(L) = ceil(L / 32)` (R87). -/
def nchunks (l : Nat) : Nat := (l + 31) / chunkData

end Sys2Proof.Machine
end

