-- ==== Sys2Proof/Machine/AckChannel.lean ====
section
/-! DEFINITION. The acknowledgment wait (spec/43_ack_channel.md R91 to R94), what the send sequencer does with its outcome
(spec/44_transceiver.md R98, R100), and the meaning of the wire unit ACK. -/

namespace Sys2Proof.Machine

/-- `ack_fail()` (R100): BadAck ends the SEND. -/
def ackFail (s : State) : Result := raiseStatus .badAck s

/-- The second half of `ack_ok()` (R98): the SEND is complete, or the next chunk is built. -/
def nextUnit (s : State) : Result :=
  readReg s.chunkIdx s fun i =>
  readReg s.nChunks s fun n =>
  if i = n then respond { status := .ok } s
  else
    readReg s.txPayload s fun p =>
    .next (goTo .txChunk (setChkReg (encodeChunk p i.toNat) s))

/-- `ack_ok()` (R98): count an acknowledged chunk, then go on. -/
def ackOk (s : State) : Result :=
  readReg s.ackUnit s fun u =>
  match u with
  | .hdr => nextUnit s
  | .chunk => readReg s.chunkIdx s fun i => nextUnit (setChunkIdx (i + 1) s)

/-- Step in `AW_POLL` (R91). -/
def awPoll (s : State) : Result :=
  askAvail s fun a s =>
  if 0 < a then .next (goTo .awRead s)
  else
    readReg s.ackAttempts s fun k =>
    let s := setAckAttempts (k + 1) s
    if (k + 1).toNat = ackPollAttempts then ackFail s else .next (goTo .awSleep s)

/-- Step in `AW_SLEEP` (R92): enabled only when a tick has arrived (R28). -/
def awSleep (s : State) : Result :=
  match s.env.ticks with
  | 0 => .next s
  | t + 1 => .next (goTo .awPoll (log [.tick] (setTicks t s)))

/-- Step in `AW_READ` on the byte `b` the transport answered (R93). -/
def awRead (b : Byte) (s : State) : Result :=
  let s := log [.readByte b] s
  if b = s.cfg.ack then ackOk s else ackFail s

/-- ACK (R62, R93): the byte is read in `AW_READ`. In any other state the block does not read it: it stays in the
transport and nothing changes (log 5, log 6). -/
def execAck (a : Byte) (s : State) : Result :=
  if s.fsm = .awRead then awRead a s else .next s

end Sys2Proof.Machine
end

