-- ==== Sys2Proof/Machine/Flags.lean ====
section
/-! DEFINITION. The block has no condition flags (spec/10_state.md R25); its one status indication is the 4-bit status
code (spec/60_exceptions.md R118). -/

namespace Sys2Proof.Machine

/-- The code of a status (R118). -/
def statusCode : Status → BitVec 4
  | .ok => 0
  | .shortRead => 1
  | .badMagic => 2
  | .badVersion => 3
  | .badChecksum => 4
  | .bufferTooSmall => 5
  | .badAck => 6
  | .notAddressedToUs => 7

end Sys2Proof.Machine
end

