-- ==== Sys2Proof/Machine/DispatchLoop.lean ====
section
/-! DEFINITION. The dispatch step (spec/45_dispatch.md R109 to R114): POLL, HANDLER_DONE and what a POLL does with the
outcome of its receive. -/

namespace Sys2Proof.Machine

/-- POLL (R109). -/
def execPoll (s : State) : Result :=
  acceptRequest s
    (.next (goTo .rxAvail (setOrigin .poll (logReq .poll 0 0 0 0 [] s))))

/-- Step in `RX_AVAIL` (R110). -/
def rxAvail (s : State) : Result :=
  askAvail s fun a s =>
  if a = 0 then respond { status := .ok, delivered := some false } s
  else .next (goTo .rxHdr s)

/-- `dispatch_deliver()` (R111). -/
def dispatchDeliver (s : State) : Result :=
  match s.handler with
  | none => stop .noHandler s
  | some token =>
    readReg s.rxCmd s fun cmd =>
    readReg s.rxSrc s fun src =>
    readReg s.rxLen s fun len =>
    memRead 0 len.toNat s fun payload =>
    .next (goTo .deliver (log [.deliver token cmd src payload len] s))

/-- `dispatch_drop(s)` (R113, R114). -/
def dispatchDrop (st : Status) (s : State) : Result :=
  respond { status := .ok, delivered := some false }
    (if s.diagEn then log [.diag (statusCode st)] s else s)

/-- HANDLER_DONE (R112). -/
def execHandlerDone (s : State) : Result :=
  acceptDone s
    (respond { status := .ok, delivered := some true } (logReq .handlerDone 0 0 0 0 [] s))

end Sys2Proof.Machine
end

