-- ==== Sys2Proof/Machine/Transceiver.lean ====
section
/-! DEFINITION. The send and receive sequencers (spec/44_transceiver.md R96 to R107): SEND, RECEIVE, the block's own steps
between them, and the meanings of the wire units HEADER and CHUNK. -/

namespace Sys2Proof.Machine

/-! ### Send -/

/-- SEND (R96): the operand checks, then the message is latched and its header built. -/
def execSend (a b : Nibble) (cmd : Byte) (n : Half) (data : List Byte) (s : State) : Result :=
  acceptRequest s <|
    if data.length ≠ n.toNat then stop .badDescriptor s
    else if maxPayload < n.toNat then stop .payloadTooLong s
    else
      .next (goTo .txHdr
        (latchSend cmd a b n data (encodeHeader s.cfg cmd a b n) (BitVec.ofNat 4 (nchunks n.toNat))
          (logReq .send a b cmd n data s)))

/-- Step in `TX_HDR` (R97): one write, no flush. -/
def txHdr (s : State) : Result :=
  readReg s.hdrReg s fun h => .next (awaitAck .hdr (log [.write h] s))

/-- Step in `TX_CHUNK` (R99): one write, no flush. -/
def txChunk (s : State) : Result :=
  readReg s.chkReg s fun c => .next (awaitAck .chunk (log [.write c] s))

/-! ### Receive -/

/-- RECEIVE (R101). -/
def execReceive (s : State) : Result :=
  acceptRequest s
    (.next (goTo .rxHdr (setOrigin .recv (logReq .receive 0 0 0 0 [] s))))

/-- `rx_ok()` (R106): the response of a RECEIVE, or a POLL's delivery. -/
def rxOk (s : State) : Result :=
  readReg s.origin s fun o =>
  match o with
  | .recv =>
    readReg s.rxCmd s fun cmd =>
    readReg s.rxSrc s fun src =>
    readReg s.rxLen s fun len =>
    memRead 0 len.toNat s fun payload =>
    respond { status := .ok, cmd := some cmd, src := some src, len := some len, payload := some payload } s
  | .send | .poll => dispatchDeliver s

/-- `rx_fail(s)` (R107): the failure ends a RECEIVE, or drops a POLL's message. -/
def rxFail (st : Status) (s : State) : Result :=
  readReg s.origin s fun o =>
  match o with
  | .recv => raiseStatus st s
  | .send | .poll => dispatchDrop st s

/-- Step in `RX_HDR` on the bytes `r` the transport answered (R102). -/
def rxHdr (r : List Byte) (s : State) : Result :=
  let s := log [.read hdrLen r] s
  match decodeHeader s.cfg r s.ownId with
  | .error st => rxFail st s
  | .ok i =>
    .next (goTo .rxHdrAck (setRxHeader i.cmd i.src i.len s))

/-- Step in `RX_HDR_ACK` (R103): acknowledge, then check the capacity. -/
def rxHdrAck (s : State) : Result :=
  let s := sendAck s
  readReg s.rxLen s fun len =>
  if s.cfg.rxCap < len.toNat then rxFail .bufferTooSmall s
  else
    let n := BitVec.ofNat 4 (nchunks len.toNat)
    let s := setChunks n s
    if n = 0 then rxOk s else .next (goTo .rxChunk s)

/-- Step in `RX_CHUNK` on the bytes `r` the transport answered (R104). -/
def rxChunk (r : List Byte) (s : State) : Result :=
  let s := log [.read chunkLen r] s
  match decodeChunk r with
  | .error st => rxFail st s
  | .ok d =>
    readReg s.chunkIdx s fun i =>
    memWrite (chunkData * i.toNat) d s fun s =>
    .next (goTo .rxChunkAck s)

/-- Step in `RX_CHUNK_ACK` (R105). -/
def rxChunkAck (s : State) : Result :=
  let s := sendAck s
  readReg s.chunkIdx s fun i =>
  let s := setChunkIdx (i + 1) s
  readReg s.nChunks s fun n =>
  if i + 1 = n then rxOk s else .next (goTo .rxChunk s)

/-- HEADER (R54, R80, R102): the unit is read in `RX_HDR`. In any other state the block does not read it: it stays in
the transport and nothing changes (log 5, log 6). -/
def execHeader (m n v c : Byte) (sn t : Nibble) (l : Half) (k : Byte) (s : State) : Result :=
  if s.fsm = .rxHdr then rxHdr (headerBytes m n v c sn t l k) s else .next s

/-- CHUNK (R61, R85, R104): the unit is read in `RX_CHUNK`; elsewhere as for HEADER. -/
def execChunk (d : List Byte) (k : Byte) (s : State) : Result :=
  if s.fsm = .rxChunk then rxChunk (d ++ [k]) s else .next s

end Sys2Proof.Machine
end

