-- ==== Sys2Proof/Syntax.lean ====
section
/-! DEFINITION. What the block executes: the eight host requests (spec/30_encoding.md R57) and the three wire units
(R54, R61, R62), one constructor per row of opcode_table.json. -/

namespace Sys2Proof

/-- One row of opcode_table.json with its operands. A request's side-band bytes are part of it (R56); a wire unit is
the unit as it was read from the transport, so every value of its bytes is an instruction (R63). -/
inductive Instr where
  /-- SEND (R96): sender id `a`, target id `b`, command, length `n`, side-band payload. -/
  | send (a b : Nibble) (cmd : Byte) (n : Half) (data : List Byte)
  /-- RECEIVE (R101). -/
  | receive
  /-- POLL (R109). -/
  | poll
  /-- CHECKSUM (R74): length `n`, side-band bytes. -/
  | checksum (n : Half) (data : List Byte)
  /-- SET_ID (R115). -/
  | setId (a : Nibble)
  /-- REGISTER_HANDLER (R116): the token. -/
  | registerHandler (n : Half)
  /-- ATTACH_DIAG (R117). -/
  | attachDiag (en : Bool)
  /-- HANDLER_DONE (R112). -/
  | handlerDone
  /-- HEADER (R54): bytes 0 to 3, sender and target nibble of byte 4, length of bytes 5 and 6, checksum byte 7. -/
  | header (m n v c : Byte) (s t : Nibble) (l : Half) (k : Byte)
  /-- CHUNK (R61): the 32 data bytes and the checksum byte. -/
  | chunk (d : List Byte) (k : Byte)
  /-- ACK (R62): the byte read while an acknowledgment is awaited. -/
  | ack (a : Byte)
  deriving DecidableEq, Repr

end Sys2Proof
end

