-- ==== Sys2Proof/Machine/Dispatch.lean ====
section
/-! DEFINITION. The dispatch of an instruction to its meaning, one arm per row of opcode_table.json. -/

namespace Sys2Proof.Machine

def exec (i : Instr) (s : State) : Host.Outcome State Fault Refusal :=
  match i with
  | .send a b cmd n data => Sys2Proof.Machine.execSend a b cmd n data s
  | .receive => Sys2Proof.Machine.execReceive s
  | .poll => Sys2Proof.Machine.execPoll s
  | .checksum n data => Sys2Proof.Machine.execChecksum n data s
  | .setId a => Sys2Proof.Machine.execSetId a s
  | .registerHandler n => Sys2Proof.Machine.execRegisterHandler n s
  | .attachDiag en => Sys2Proof.Machine.execAttachDiag en s
  | .handlerDone => Sys2Proof.Machine.execHandlerDone s
  | .header m n v c sn t l k => Sys2Proof.Machine.execHeader m n v c sn t l k s
  | .chunk d k => Sys2Proof.Machine.execChunk d k s
  | .ack a => Sys2Proof.Machine.execAck a s

end Sys2Proof.Machine
end

