-- ==== Sys2Proof/WellFormed.lean ====
section
/-! DEFINITION. Which instructions are well formed: the operand checks that do not depend on the block's state
(spec/40_checksum.md R74, spec/44_transceiver.md R96) and the fixed length of a chunk's data (R61). -/

namespace Sys2Proof

/-- The check of R74, R96 and R61 on an instruction's operands. -/
def Instr.wf : Instr → Bool
  | .send _ _ _ n data => data.length == n.toNat && decide (n.toNat ≤ Machine.maxPayload)
  | .receive => true
  | .poll => true
  | .checksum n data => data.length == n.toNat
  | .setId _ => true
  | .registerHandler _ => true
  | .attachDiag _ => true
  | .handlerDone => true
  | .header _ _ _ _ _ _ _ _ => true
  | .chunk d _ => d.length == Machine.chunkData
  | .ack _ => true

end Sys2Proof
end

