-- ==== Sys2Proof/Decode.lean ====
section
/-! DEFINITION. The two encoding domains (spec/30_encoding.md R53): host request descriptors with their side-band bytes
(R56 to R59) and wire units (R54, R61, R62, R68). The decoder is total and rejects by name; the encoder is written
from the same tables. -/

namespace Sys2Proof

/-- The three wire units (R68): the block knows from its state which one it reads. -/
inductive UnitKind where
  | header | chunk | ack
  deriving DecidableEq, Repr

/-- What a decoder is given: a descriptor with its side-band list, if the host gives one, or the bytes read for a unit
(R53, R56). -/
inductive Code where
  | request (q : Descriptor) (data : Option (List Byte))
  | wire (u : UnitKind) (bs : List Byte)
  deriving DecidableEq, Repr

/-- Why a code is no instruction. -/
inductive DecodeError where
  /-- The op is 0 or 9 to 15 (R59). -/
  | reservedOp
  /-- A reserved bit, or a bit of a field the op does not use, is 1 (R59). -/
  | reservedBit
  /-- SEND or CHECKSUM without a side-band list (R74, R96: no list has the length `n`). -/
  | missingData
  /-- A side-band list with bytes in it comes with a request that takes none (D13). -/
  | unexpectedData
  /-- The bytes are not as many as the unit has (R68). -/
  | wrongLength
  deriving DecidableEq, Repr

/-- The instruction of an operation whose descriptor passed R59; its fields are those of R58. -/
def requestOf (o : Machine.Op) (q : Descriptor) (data : List Byte) : Instr :=
  match o with
  | .send => .send (Machine.fieldA q) (Machine.fieldB q) (Machine.fieldCmd q) (Machine.fieldN q) data
  | .receive => .receive
  | .poll => .poll
  | .checksum => .checksum (Machine.fieldN q) data
  | .setId => .setId (Machine.fieldA q)
  | .registerHandler => .registerHandler (Machine.fieldN q)
  | .attachDiag => .attachDiag (Machine.fieldEn q)
  | .handlerDone => .handlerDone

/-- D13 on the side-band list: SEND and CHECKSUM need one, and hold its length against `n` in their meanings (R74, R96);
the others have no length operand, so a list that comes with one of them must be empty (log 7). -/
def listError (o : Machine.Op) (data : Option (List Byte)) : Option DecodeError :=
  match Machine.takesData o, data with
  | true, none => some .missingData
  | true, some _ => none
  | false, none => none
  | false, some [] => none
  | false, some (_ :: _) => some .unexpectedData

/-- R59: the op is not reserved, every bit the row fixes is as the row has it, and the side-band list is as D13 asks. -/
def decodeRequest (q : Descriptor) (data : Option (List Byte)) : Except DecodeError Instr :=
  match Machine.opOfCode (Machine.fieldOp q) with
  | none => .error .reservedOp
  | some o =>
    if q &&& Machine.opMask o = (Machine.opCode o).setWidth 64 then
      match listError o data with
      | some e => .error e
      | none => .ok (requestOf o q (data.getD []))
    else .error .reservedBit

/-- The fields of an 8-byte header (R54, R55); of any other number of bytes, none. -/
def decodeHeaderUnit : List Byte → Except DecodeError Instr
  | [m, n, v, c, ad, hi, lo, k] =>
    .ok (.header m n v c (Machine.hiNibble ad) (Machine.loNibble ad) (Machine.lenOf hi lo) k)
  | _ => .error .wrongLength

/-- The data and checksum of a 33-byte chunk (R61). -/
def decodeChunkUnit (bs : List Byte) : Except DecodeError Instr :=
  if bs.length = Machine.chunkLen then
    .ok (.chunk (bs.take Machine.chunkData) (Machine.byteAt bs Machine.chunkData))
  else .error .wrongLength

/-- The one byte of an acknowledgment (R62). -/
def decodeAckUnit : List Byte → Except DecodeError Instr
  | [a] => .ok (.ack a)
  | _ => .error .wrongLength

/-- The decoder of both domains. -/
def decode : Code → Except DecodeError Instr
  | .request q data => decodeRequest q data
  | .wire .header bs => decodeHeaderUnit bs
  | .wire .chunk bs => decodeChunkUnit bs
  | .wire .ack bs => decodeAckUnit bs

/-- The encoder (R54, R56, R61, R62). Only SEND and CHECKSUM have a side-band list. -/
def encode : Instr → Code
  | .send a b cmd n data => .request (Machine.descriptor .send a b cmd n) (some data)
  | .receive => .request (Machine.descriptor .receive 0 0 0 0) none
  | .poll => .request (Machine.descriptor .poll 0 0 0 0) none
  | .checksum n data => .request (Machine.descriptor .checksum 0 0 0 n) (some data)
  | .setId a => .request (Machine.descriptor .setId a 0 0 0) none
  | .registerHandler n => .request (Machine.descriptor .registerHandler 0 0 0 n) none
  | .attachDiag en => .request (Machine.descriptor .attachDiag (Machine.enField en) 0 0 0) none
  | .handlerDone => .request (Machine.descriptor .handlerDone 0 0 0 0) none
  | .header m n v c s t l k => .wire .header (Machine.headerBytes m n v c s t l k)
  | .chunk d k => .wire .chunk (d ++ [k])
  | .ack a => .wire .ack [a]

/-- The bytes of a number, byte 0 the least significant (the numbering of opcode_table.json for wire units). -/
def bytesOf (w : Nat) : Nat → List Byte
  | 0 => []
  | k + 1 => BitVec.ofNat 8 w :: bytesOf (w / 256) k

/-- The side-band list that comes with a bare descriptor of the table: as many zeros as its length field says for the
two requests that have one (log 11). -/
def tableData (q : Descriptor) : Option (List Byte) :=
  match Machine.opOfCode (Machine.fieldOp q) with
  | some .send => some (zeros (Machine.fieldN q).toNat)
  | some .checksum => some (zeros (Machine.fieldN q).toNat)
  | _ => none

/-- The code a table word stands for, by its number of bits: 264 bits a CHUNK, 8 bits an ACK, and 64 bits a descriptor
where R59 admits it, otherwise the bytes of a HEADER (log 11). -/
def tableCode (nbits w : Nat) : Option Code :=
  if nbits = 64 then
    let q : Descriptor := BitVec.ofNat 64 w
    match decodeRequest q (tableData q) with
    | .ok _ => some (.request q (tableData q))
    | .error _ => some (.wire .header (bytesOf w Machine.hdrLen))
  else if nbits = 264 then some (.wire .chunk (bytesOf w Machine.chunkLen))
  else if nbits = 8 then some (.wire .ack (bytesOf w 1))
  else none

/-- The instruction the decoder reads from a table word. -/
def decodeTableWord (nbits w : Nat) : Option Instr :=
  match tableCode nbits w with
  | some c =>
    match decode c with
    | .ok i => some i
    | .error _ => none
  | none => none

end Sys2Proof
end

