-- ==== Sys2Proof/Machine/Fetch.lean ====
section
/-! DEFINITION. What the next step is (spec/10_state.md R19): an instruction the block takes from the host port or the
transport port, or a step of its own; and where a program's next instruction is placed. -/

namespace Sys2Proof.Machine

/-- The next step: run an instruction on a state, or an answer that no instruction gives. -/
inductive Fetched where
  | run (i : Instr) (s : State)
  | answer (r : Result)
  deriving Repr

/-- IDLE and DELIVER: take what the host presents (R60); wait while it presents nothing (R135). DESIGN CHOICE (log 24): a
request that is refused is taken off the port too, so a later reset does not find it there. -/
def fetchHost (s : State) : Fetched :=
  match s.env.host with
  | [] => .answer (.next s)
  | .request q data :: rest =>
    let t := setHost rest s
    match decode (.request q data) with
    | .ok i => .run i t
    | .error _ => .answer (refuseDescriptor t)

/-- RX_HDR: `T.readExact(8)` (R102). A full read is the unit HEADER; a short one goes to the same decoder. -/
def fetchHeader (s : State) : Fetched :=
  match s.env.reads with
  | [] => .answer (.next s)
  | r :: rest =>
    let t := setReads rest s
    match decode (.wire .header (r.take hdrLen)) with
    | .ok i => .run i t
    | .error _ => .answer (rxHdr (r.take hdrLen) t)

/-- RX_CHUNK: `T.readExact(33)` (R104). A full read is the unit CHUNK; a short one goes to the same decoder. -/
def fetchChunk (s : State) : Fetched :=
  match s.env.reads with
  | [] => .answer (.next s)
  | r :: rest =>
    let t := setReads rest s
    match decode (.wire .chunk (r.take chunkLen)) with
    | .ok i => .run i t
    | .error _ => .answer (rxChunk (r.take chunkLen) t)

/-- AW_READ: `T.readByte()` (R93). -/
def fetchAck (s : State) : Fetched :=
  match s.env.bytes with
  | [] => .answer (.next s)
  | b :: rest =>
    let t := setBytes rest s
    match decode (.wire .ack [b]) with
    | .ok i => .run i t
    | .error _ => .answer (awRead b t)

/-- The next step by `fsm` (R19). -/
def fetchByState (s : State) : Fetched :=
  match s.fsm with
  | .idle => fetchHost s
  | .deliver => fetchHost s
  | .txHdr => .answer (txHdr s)
  | .txChunk => .answer (txChunk s)
  | .awPoll => .answer (awPoll s)
  | .awSleep => .answer (awSleep s)
  | .awRead => fetchAck s
  | .rxAvail => .answer (rxAvail s)
  | .rxHdr => fetchHeader s
  | .rxHdrAck => .answer (rxHdrAck s)
  | .rxChunk => fetchChunk s
  | .rxChunkAck => .answer (rxChunkAck s)

/-- A marked state takes no step (R126, R127), and a configuration that is not well formed is refused (R9). -/
def whenEnabled (s : State) (f : Fetched) : Fetched :=
  match s.mark with
  | some m => .answer (stop m s)
  | none => if cfgOk s.cfg then f else .answer (stop .badConfig s)

/-- The next step of a state: the act from outside that is due (R48, R137, log 9), otherwise the block's. -/
def fetch (s : State) : Fetched :=
  match s.env.acts with
  | [] => whenEnabled s (fetchByState s)
  | (0, .reset) :: rest => .answer (.next (takeReset (setActs rest s)))
  | (0, .access ref) :: rest =>
    let t := setActs rest s
    whenEnabled t (.answer (accessBuffer ref t))
  | (k + 1, a) :: rest =>
    let t := setActs ((k, a) :: rest) s
    whenEnabled t (fetchByState t)

/-- The state made ready to take instruction `i`, whose code is at the port it comes from (log 10): no mark and no act
due, `fsm` the state that reads it, and the registers that its step reads. -/
def placeCode (c : Code) (s : State) : State :=
  let s := { s with mark := none }
  match c with
  | .request q data =>
    { s with
      fsm := if fieldOp q = opCode .handlerDone then .deliver else .idle
      env := { s.env with acts := [], host := .request q data :: s.env.host } }
  | .wire .header bs =>
    { s with
      fsm := .rxHdr
      origin := some .recv
      env := { s.env with acts := [], reads := bs :: s.env.reads } }
  | .wire .chunk bs =>
    { s with
      fsm := .rxChunk
      origin := some .recv
      chunkIdx := some 0
      env := { s.env with acts := [], reads := bs :: s.env.reads } }
  | .wire .ack bs =>
    { s with
      fsm := .awRead
      ackUnit := some .hdr
      nChunks := some 0
      chunkIdx := some 0
      env := { s.env with acts := [], bytes := bs ++ s.env.bytes } }

end Sys2Proof.Machine
end

