-- ==== Sys2Proof/Machine/Step.lean ====
section
/-! DEFINITION. One step of the block (spec/00_scope.md R14), and the placing of a program's next instruction. -/

namespace Sys2Proof.Machine

/-- One step: the instruction the block takes next, or its own step. -/
def step (s : State) : Host.Outcome State Fault Refusal :=
  match fetch s with
  | .run i t => exec i t
  | .answer r => r

/-- `s` with a table word standing where the block takes its next instruction (log 10). -/
def State.withFetchWord (s : State) (nbits w : Nat) : State :=
  match tableCode nbits w with
  | some c => placeCode c s
  | none => s

end Sys2Proof.Machine
end

