-- ==== Sys2Proof/Safety.lean ====
section
/-! DEFINITION. The words the statements use: the invariant of the block's state, which states are busy, what an
environment has ready, and how many steps a request has left (spec/70_reset_and_hazards.md R147). -/

namespace Sys2Proof.Machine

/-! ### The invariant -/

/-- The cells of `rx_buf` below `n` are all written (R33). -/
def writtenBelow (s : State) (n : Nat) : Prop := ∀ a, a < n → (cellAt s.rxBuf a).isSome

/-- `rx_buf` is in canonical form and has no cell at or beyond `RX_CAP` (R34, R44). -/
def BufferOk (s : State) : Prop :=
  Memory.wf s.rxBuf = true ∧ ∀ a, (cellAt s.rxBuf a).isSome → a < s.cfg.rxCap

/-- The value ranges of R18. -/
structure RangesOk (s : State) : Prop where
  txLen : ∀ l, s.txLen = some l → l.toNat ≤ maxPayload
  txPayload : ∀ p, s.txPayload = some p → s.txLen = some (BitVec.ofNat 16 p.length) ∧ p.length ≤ maxPayload
  hdrReg : ∀ h, s.hdrReg = some h → h.length = hdrLen
  chkReg : ∀ c, s.chkReg = some c → c.length = chunkLen
  nChunks : ∀ n, s.nChunks = some n → n.toNat ≤ 10
  chunkIdx : ∀ i, s.chunkIdx = some i → i.toNat ≤ 10
  ackAttempts : ∀ k, s.ackAttempts = some k → k.toNat ≤ ackPollAttempts

/-- A SEND of payload `p` in `n` chunks is running and stands at chunk `i` (R96, R98). -/
structure Sending (s : State) (p : List Byte) (n i : BitVec 4) : Prop where
  origin : s.origin = some .send
  header : ∃ cmd src dst, s.txCmd = some cmd ∧ s.txSrc = some src ∧ s.txDst = some dst ∧
    s.hdrReg = some (encodeHeader s.cfg cmd src dst (BitVec.ofNat 16 p.length))
  payload : s.txPayload = some p
  chunks : s.nChunks = some n
  index : s.chunkIdx = some i
  count : n.toNat = nchunks p.length
  bound : i.toNat ≤ n.toNat

/-- The acknowledgment wait of unit `u` has seen `k` empty polls (R90, R91). -/
structure Awaiting (s : State) (n i : BitVec 4) (u : AckUnit) (k : BitVec 7) : Prop where
  unit : s.ackUnit = some u
  attempts : s.ackAttempts = some k
  below : k.toNat < ackPollAttempts
  hdr : u = .hdr → i = 0
  chunk : u = .chunk → i.toNat < n.toNat

/-- A RECEIVE or a POLL is running. -/
def Receiving (s : State) : Prop := s.origin = some .recv ∨ s.origin = some .poll

/-- A header was decoded (R102). -/
def HeaderKnown (s : State) (l : Half) : Prop :=
  (∃ c, s.rxCmd = some c) ∧ (∃ a, s.rxSrc = some a) ∧ s.rxLen = some l

/-- The message of length `l` fits, has `n` chunks, and the receive stands at chunk `i` (R103, R105). -/
structure Chunking (s : State) (l : Half) (n i : BitVec 4) : Prop where
  receiving : Receiving s
  header : HeaderKnown s l
  fits : l.toNat ≤ s.cfg.rxCap
  chunks : s.nChunks = some n
  count : n.toNat = nchunks l.toNat
  index : s.chunkIdx = some i
  bound : i.toNat < n.toNat

/-- What each state of `fsm` relies on: the registers its step reads are written and agree (R18). -/
def PhaseOk (s : State) : Prop :=
  match s.fsm with
  | .idle => True
  | .txHdr => ∃ p n, Sending s p n 0
  | .txChunk => ∃ p n i, Sending s p n i ∧ i.toNat < n.toNat ∧ s.chkReg = some (encodeChunk p i.toNat)
  | .awPoll => ∃ p n i u k, Sending s p n i ∧ Awaiting s n i u k
  | .awSleep => ∃ p n i u k, Sending s p n i ∧ Awaiting s n i u k
  | .awRead => ∃ p n i u k, Sending s p n i ∧ Awaiting s n i u k
  | .rxAvail => s.origin = some .poll
  | .rxHdr => Receiving s
  | .rxHdrAck => Receiving s ∧ ∃ l, HeaderKnown s l
  | .rxChunk => ∃ l n i, Chunking s l n i ∧ writtenBelow s (chunkData * i.toNat)
  | .rxChunkAck => ∃ l n i, Chunking s l n i ∧ writtenBelow s (chunkData * (i.toNat + 1))
  | .deliver => s.origin = some .poll ∧ s.handler.isSome ∧ ∃ l, HeaderKnown s l ∧ writtenBelow s l.toNat

/-- The invariant of the block. -/
structure Inv (s : State) : Prop where
  config : cfgOk s.cfg = true
  identity : s.idLocked = false → s.ownId = 0
  buffer : BufferOk s
  ranges : RangesOk s
  phase : PhaseOk s

/-! ### Progress -/

/-- Every state but IDLE and DELIVER is busy (R19). -/
def busy (f : Fsm) : Bool := !(f == .idle || f == .deliver)

/-- No mark, no act from outside to come, and a configuration that R9 admits: the next step is the one `fsm` gives. -/
structure Undisturbed (s : State) : Prop where
  mark : s.mark = none
  acts : s.env.acts = []
  config : cfgOk s.cfg = true

/-- No explicit reset is due in this step (log 9). -/
def noReset (s : State) : Bool :=
  match s.env.acts with
  | (0, .reset) :: _ => false
  | _ => true

/-- No act from outside is due in this step, neither a reset nor an access to the buffer (log 9, log 13). -/
def noAct (s : State) : Bool :=
  match s.env.acts with
  | (0, _) :: _ => false
  | _ => true

/-- What the state's step asks of the environment is there (R27, R28, R29). -/
def answered (s : State) : Bool :=
  match s.fsm with
  | .idle | .deliver => !s.env.host.isEmpty
  | .awPoll | .rxAvail => !s.env.avails.isEmpty
  | .awSleep => s.env.ticks != 0
  | .awRead => !s.env.bytes.isEmpty
  | .rxHdr | .rxChunk => !s.env.reads.isEmpty
  | .txHdr | .txChunk | .rxHdrAck | .rxChunkAck => true

/-- The environment has at least `k` answers of every kind ready. -/
def Supplied (s : State) (k : Nat) : Prop :=
  k ≤ s.env.avails.length ∧ k ≤ s.env.reads.length ∧ k ≤ s.env.bytes.length ∧ k ≤ s.env.ticks

/-- The value of a register, 0 if it is unwritten: used only to count steps. -/
def regNat {w : Nat} (r : Option (BitVec w)) : Nat :=
  match r with
  | some v => v.toNat
  | none => 0

/-- The chunks of a SEND not yet written once the awaited unit is acknowledged (R98). -/
def unitsAfter (s : State) : Nat :=
  match s.ackUnit with
  | some .hdr => regNat s.nChunks
  | some .chunk => regNat s.nChunks - (regNat s.chunkIdx + 1)
  | none => 0

/-- How many more steps, at most, the running request takes to leave the busy states, waiting apart (R95, R147). -/
def stepsLeft (s : State) : Nat :=
  match s.fsm with
  | .idle => 0
  | .deliver => 0
  | .txHdr => 201 * (regNat s.nChunks + 1)
  | .txChunk => 201 * (regNat s.nChunks - regNat s.chunkIdx)
  | .awPoll => 200 - 2 * regNat s.ackAttempts + 201 * unitsAfter s
  | .awSleep => 201 - 2 * regNat s.ackAttempts + 201 * unitsAfter s
  | .awRead => 1 + 201 * unitsAfter s
  | .rxAvail => 23
  | .rxHdr => 22
  | .rxHdrAck => if s.cfg.rxCap < regNat s.rxLen then 1 else 1 + 2 * nchunks (regNat s.rxLen)
  | .rxChunk => 2 * (regNat s.nChunks - regNat s.chunkIdx)
  | .rxChunkAck => 2 * (regNat s.nChunks - regNat s.chunkIdx) - 1

/-! ### Events -/

/-- The transport input transactions (R14, R27). -/
def isInput : Event → Bool
  | .avail _ => true
  | .read _ _ => true
  | .readByte _ => true
  | .req _ _ | .resp _ | .write _ | .flush | .tick | .deliver _ _ _ _ _ | .diag _ | .reset => false

/-- The events a step added to the history. -/
def newEvents (s t : State) : List Event := t.hist.drop s.hist.length

/-- The byte lists written to the transport, in order. -/
def written : List Event → List (List Byte)
  | [] => []
  | .write bs :: es => bs :: written es
  | .req _ _ :: es => written es
  | .resp _ :: es => written es
  | .flush :: es => written es
  | .avail _ :: es => written es
  | .read _ _ :: es => written es
  | .readByte _ :: es => written es
  | .tick :: es => written es
  | .deliver _ _ _ _ _ :: es => written es
  | .diag _ :: es => written es
  | .reset :: es => written es

/-! ### Descriptors and statuses, from the tables of the spec -/

/-- Is bit `i` of the descriptor an operand bit of operation code `op` (R56, R58 and the operands of each operation)? -/
def operandBit (op i : Nat) : Bool :=
  decide (8 ≤ i ∧ i ≤ 11 ∧ (op = 1 ∨ op = 5)) ||
  decide (i = 8 ∧ op = 7) ||
  decide (12 ≤ i ∧ i ≤ 23 ∧ op = 1) ||
  decide (24 ≤ i ∧ i ≤ 39 ∧ (op = 1 ∨ op = 4 ∨ op = 6))

/-- R59: a reserved op, or a 1 in a bit that is reserved or in a field the operation does not use. -/
def IllegalDescriptor (q : Descriptor) : Prop :=
  q.toNat % 16 = 0 ∨ 9 ≤ q.toNat % 16 ∨
  ∃ i, 4 ≤ i ∧ i < 64 ∧ q.getLsbD i = true ∧ operandBit (q.toNat % 16) i = false

/-- D13: SEND or CHECKSUM without a side-band list, or bytes with a request that takes no list (log 7). -/
def IllegalList (q : Descriptor) (data : Option (List Byte)) : Prop :=
  (q.toNat % 16 = 1 ∨ q.toNat % 16 = 4) ∧ data = none ∨
  ¬ (q.toNat % 16 = 1 ∨ q.toNat % 16 = 4) ∧ data.getD [] ≠ []

/-- The failures that the step of a state of `fsm` can end a request with (R119). -/
def failures : Fsm → List Status
  | .awPoll => [.badAck]
  | .awRead => [.badAck]
  | .rxHdr => [.shortRead, .badMagic, .badVersion, .badChecksum, .notAddressedToUs]
  | .rxHdrAck => [.bufferTooSmall]
  | .rxChunk => [.shortRead, .badChecksum]
  | .idle => []
  | .txHdr => []
  | .txChunk => []
  | .awSleep => []
  | .rxAvail => []
  | .rxChunkAck => []
  | .deliver => []

/-- The instructions the host presents (R57); the others are wire units. -/
def isRequest : Instr → Bool
  | .send _ _ _ _ _ => true
  | .receive => true
  | .poll => true
  | .checksum _ _ => true
  | .setId _ => true
  | .registerHandler _ => true
  | .attachDiag _ => true
  | .handlerDone => true
  | .header _ _ _ _ _ _ _ _ => false
  | .chunk _ _ => false
  | .ack _ => false

/-! ### What a step leaves alone -/

/-- The configuration registers (R20 to R23). -/
structure SameConfig (s t : State) : Prop where
  ownId : t.ownId = s.ownId
  idLocked : t.idLocked = s.idLocked
  handler : t.handler = s.handler
  diagEn : t.diagEn = s.diagEn

/-- The registers of the message being sent, but not the chunk register (R18). -/
structure SameMessage (s t : State) : Prop where
  txCmd : t.txCmd = s.txCmd
  txSrc : t.txSrc = s.txSrc
  txDst : t.txDst = s.txDst
  txLen : t.txLen = s.txLen
  txPayload : t.txPayload = s.txPayload
  hdrReg : t.hdrReg = s.hdrReg

/-- The registers of the received header (R18). -/
structure SameHeader (s t : State) : Prop where
  rxCmd : t.rxCmd = s.rxCmd
  rxSrc : t.rxSrc = s.rxSrc
  rxLen : t.rxLen = s.rxLen

/-- The acknowledgment wait's registers (R18). -/
structure SameWait (s t : State) : Prop where
  ackUnit : t.ackUnit = s.ackUnit
  ackAttempts : t.ackAttempts = s.ackAttempts

/-- Every cell of the receive buffer reads as before. -/
def SameBuffer (s t : State) : Prop := ∀ a, cellAt t.rxBuf a = cellAt s.rxBuf a

/-- The configuration, the marks and what the environment will do; and the history only grows. -/
structure SameOutside (s t : State) : Prop where
  cfg : t.cfg = s.cfg
  mark : t.mark = s.mark
  env : t.env = s.env
  hist : ∃ evs, t.hist = s.hist ++ evs

end Sys2Proof.Machine
end

