-- ==== Sys2Proof/Certificates/Slice0/Obligations.lean ====
section
/-! DEFINITION. The statements about the model, for the provers. Each docstring names the rule of spec/ it formalises, or
the log entry where it rests on a choice of the model. -/

open Sys2Proof Sys2Proof.Machine

/-! ### Encodings -/

/-- R54, R56, R61, R62: no bit of an encoding is dropped; every well-formed instruction is what the decoder reads from its
own code. -/
def Obligations.DecodeEncodeRoundTrip : Prop :=
  ∀ i : Instr, i.wf = true → decode (encode i) = .ok i

/-- R53, R56, R58: a code that decodes is the code of its instruction; an empty side-band list with a request that takes
none is as no list (log 7). -/
def Obligations.DecodedCodeIsItsEncoding : Prop :=
  (∀ (u : UnitKind) (bs : List Byte) (i : Instr), decode (.wire u bs) = .ok i → encode i = .wire u bs) ∧
  (∀ (q : Descriptor) (data : Option (List Byte)) (i : Instr), decode (.request q data) = .ok i →
    encode i = .request q (if fieldOp q = 1 ∨ fieldOp q = 4 then data else none) ∧
    (fieldOp q ≠ 1 → fieldOp q ≠ 4 → data.getD [] = []))

/-- R59, with the three conditions of the rule in `IllegalDescriptor`, and D13 on the side-band list in `IllegalList`
(log 7): these requests and no others fail to decode, and IDLE refuses them. A list whose length differs from the `n` of
SEND or CHECKSUM is refused by their meanings (`SendIsAcceptedOrRefused`, `ChecksumAnswersTheCrc`). That the refused
request is off the port in the left state is the model's choice (log 24). -/
def Obligations.IllegalDescriptorsAreRefused : Prop :=
  ∀ (q : Descriptor) (data : Option (List Byte)),
    (IllegalDescriptor q ∨ IllegalList q data →
      (∃ e, decode (.request q data) = .error e) ∧
      ∀ (s : State) (rest : List HostInput), Undisturbed s → s.fsm = .idle → s.env.host = .request q data :: rest →
        step s = .refused (.badDescriptor
          { s with env := { s.env with host := rest }, mark := some .badDescriptor })) ∧
    (¬ IllegalDescriptor q → ¬ IllegalList q data → ∃ i, decode (.request q data) = .ok i)

/-- R54, R55, R56, R61, R62: words written out from the spec's encodings decode to what they stand for. -/
def Obligations.WrittenOutWordsDecode : Prop :=
  decode (.request 0x0000000005102101 (some [0x48, 0x45, 0x4C, 0x4C, 0x4F])) =
    .ok (.send 1 2 0x10 5 [0x48, 0x45, 0x4C, 0x4C, 0x4F]) ∧
  decode (.request 0x0000000000000002 none) = .ok .receive ∧
  decode (.request 0x0000000000000003 none) = .ok .poll ∧
  decode (.request 0x0000000001000004 (some [0x80])) = .ok (.checksum 1 [0x80]) ∧
  decode (.request 0x0000000000000F05 none) = .ok (.setId 15) ∧
  decode (.request 0x000000FFFF000006 none) = .ok (.registerHandler 65535) ∧
  decode (.request 0x0000000000000107 none) = .ok (.attachDiag true) ∧
  decode (.request 0x0000000000000008 none) = .ok .handlerDone ∧
  decode (.request 0x0000000000000103 none) = .error .reservedBit ∧
  decode (.wire .header [0xC3, 0x3C, 0x02, 0xA5, 0x37, 0x01, 0x40, 0xF9]) =
    .ok (.header 0xC3 0x3C 0x02 0xA5 3 7 320 0xF9) ∧
  decode (.wire .chunk (zeros 32 ++ [0x5A])) = .ok (.chunk (zeros 32) 0x5A) ∧
  decode (.wire .ack [0x06]) = .ok (.ack 0x06)

/-! ### The Checksum-8 unit -/

/-- R72's equivalent form: the accumulator takes the byte by exclusive or, then shifts eight times. The loop itself is the
spec's own general knowledge (log 16). -/
def Obligations.CrcStepHasTheEquivalentForm : Prop :=
  ∀ acc b : Byte,
    crc8Step acc b =
      (fun a : Byte => (a >>> 1) ^^^ (if a.getLsbD 0 = true then (0x8C : Byte) else 0))^[8] (acc ^^^ b)

/-- R75 (a), (b), (d), and the equation of (c); they follow from the loop of R72 (log 16). -/
def Obligations.ChecksumLaws : Prop :=
  (∀ n : Nat, crc8 (zeros n) = 0) ∧
  (∀ s t : List Byte, s.length = t.length → crc8 (List.zipWith (· ^^^ ·) s t) = crc8 s ^^^ crc8 t) ∧
  (∀ s : List Byte, crc8 (s ++ [0]) = crc8Step (crc8 s) 0) ∧
  (∀ s : List Byte, crc8 (s ++ [crc8 s]) = 0)

/-- The last half of R75 (c)'s sentence, as the spec writes it: "which differs from crc8(s) unless crc8(s) = 0". It does not
follow from R72 and R73 (log 19). -/
def Obligations.AppendingZeroChangesTheChecksum : Prop :=
  ∀ s : List Byte, crc8 s ≠ 0 → crc8 (s ++ [0]) ≠ crc8 s

/-- R74: the response of CHECKSUM carries the checksum; a list of another length is refused. `resp` and the history are
all that changes. -/
def Obligations.ChecksumAnswersTheCrc : Prop :=
  ∀ (n : Half) (data : List Byte) (s : State), s.fsm = .idle →
    (data.length = n.toNat →
      exec (.checksum n data) s = .next { s with
        resp := some { status := .ok, crc := some (crc8 data) }
        hist := s.hist ++ [.req (descriptor .checksum 0 0 0 n) data,
          .resp { status := .ok, crc := some (crc8 data) }]
        fsm := .idle }) ∧
    (data.length ≠ n.toNat →
      exec (.checksum n data) s = .refused (.badDescriptor { s with mark := some .badDescriptor }))

/-! ### The codecs -/

/-- R77, R78: the eight bytes of a header to send, byte 0 first. -/
def Obligations.EncodedHeaderBytes : Prop :=
  ∀ (c : Cfg) (cmd : Byte) (src dst : Nibble) (l : Half),
    ∃ ad hi lo : Byte,
      ad.toNat = 16 * src.toNat + dst.toNat ∧ hi.toNat = l.toNat / 256 ∧ lo.toNat = l.toNat % 256 ∧
      encodeHeader c cmd src dst l =
        [c.magic1, c.magic2, c.version, cmd, ad, hi, lo, crc8 [c.magic1, c.magic2, c.version, cmd, ad, hi, lo, 0]]

/-- R79, R80: the checks on a header read, in their order, on a read of up to eight bytes. -/
def Obligations.HeaderChecksInOrder : Prop :=
  ∀ (c : Cfg) (own : Nibble),
    (∀ r : List Byte, r.length < 8 → decodeHeader c r own = .error .shortRead) ∧
    ∀ b0 b1 b2 b3 b4 b5 b6 b7 : Byte,
      let r := [b0, b1, b2, b3, b4, b5, b6, b7]
      let magic := b0 = c.magic1 ∧ b1 = c.magic2
      let version := b2 = c.version
      let check := crc8 [b0, b1, b2, b3, b4, b5, b6, 0] = b7
      let mine := b4.toNat % 16 = own.toNat
      (¬ magic → decodeHeader c r own = .error .badMagic) ∧
      (magic → ¬ version → decodeHeader c r own = .error .badVersion) ∧
      (magic → version → ¬ check → decodeHeader c r own = .error .badChecksum) ∧
      (magic → version → check → ¬ mine → decodeHeader c r own = .error .notAddressedToUs) ∧
      (magic → version → check → mine →
        ∃ (src : Nibble) (l : Half), src.toNat = b4.toNat / 16 ∧ l.toNat = 256 * b5.toNat + b6.toNat ∧
          decodeHeader c r own = .ok ⟨b3, src, l⟩)

/-- R83: round trip, filtering, and the status of a header with one byte corrupted. R83 marks (b) and the lengths above
320 of (a) as derived, and rests (c) on general knowledge, as the loop of the checksum does (log 16). -/
def Obligations.FrameCodecLaws : Prop :=
  ∀ (c : Cfg) (cmd : Byte) (src dst : Nibble) (l : Half),
    decodeHeader c (encodeHeader c cmd src dst l) dst = .ok ⟨cmd, src, l⟩ ∧
    (∀ own : Nibble, own ≠ dst → decodeHeader c (encodeHeader c cmd src dst l) own = .error .notAddressedToUs) ∧
    (∀ (own : Nibble) (k : Nat) (x : Byte), k < 8 → (encodeHeader c cmd src dst l)[k]? ≠ some x →
      decodeHeader c ((encodeHeader c cmd src dst l).set k x) own =
        .error (if k < 2 then .badMagic else if k = 2 then .badVersion else .badChecksum))

/-- R84: the 33 bytes of chunk `k`: the payload's bytes from offset `32 k`, zeros after its end, and the checksum of the
32. -/
def Obligations.EncodedChunkBytes : Prop :=
  ∀ (p : List Byte) (k : Nat), p.length ≤ 320 → 32 * k ≤ p.length →
    (encodeChunk p k).length = 33 ∧
    (∀ i, i < 32 → (encodeChunk p k)[i]? = some (if h : 32 * k + i < p.length then p[32 * k + i] else 0)) ∧
    (encodeChunk p k)[32]? = some (crc8 ((encodeChunk p k).take 32))

/-- R85: the checks on a chunk read, in their order, on a read of up to 33 bytes. -/
def Obligations.ChunkChecksInOrder : Prop :=
  (∀ r : List Byte, r.length < 33 → decodeChunk r = .error .shortRead) ∧
  (∀ (d : List Byte) (k : Byte), d.length = 32 → crc8 d ≠ k → decodeChunk (d ++ [k]) = .error .badChecksum) ∧
  (∀ (d : List Byte) (k : Byte), d.length = 32 → crc8 d = k → decodeChunk (d ++ [k]) = .ok d)

/-- R87: `nchunks(L)` is the ceiling of `L / 32`. -/
def Obligations.ChunkCountIsTheCeiling : Prop :=
  (∀ l : Nat, l ≤ 32 * nchunks l ∧ 32 * nchunks l < l + 32) ∧
  nchunks 0 = 0 ∧ nchunks 1 = 1 ∧ nchunks 32 = 1 ∧ nchunks 33 = 2 ∧ nchunks 320 = 10

/-- R36, R84, R87: the data fields of a message's chunks, in order, are its payload and then zeros. -/
def Obligations.ChunksCarryThePayload : Prop :=
  ∀ p : List Byte,
    ((List.range (nchunks p.length)).map fun k => (encodeChunk p k).take 32).flatten =
      p ++ zeros (32 * nchunks p.length - p.length)

/-- R88: round trip of a chunk, and every single-byte substitution in a valid chunk is a bad checksum; R88 rests the
second on general knowledge, as the loop of the checksum does (log 16). -/
def Obligations.ChunkCodecLaws : Prop :=
  (∀ p : List Byte, p.length ≤ 32 → decodeChunk (encodeChunk p 0) = .ok (p ++ zeros (32 - p.length))) ∧
  (∀ (r d : List Byte) (k : Nat) (x : Byte), r.length = 33 → decodeChunk r = .ok d → k < 33 → r[k]? ≠ some x →
    decodeChunk (r.set k x) = .error .badChecksum)

/-! ### Host requests -/

/-- R96: SEND latches the message and builds its header, or is refused. That a list of another length is BadDescriptor
for `n` above 320 too is the model's order of the two checks (log 20). -/
def Obligations.SendIsAcceptedOrRefused : Prop :=
  ∀ (a b : Nibble) (cmd : Byte) (n : Half) (data : List Byte) (s : State), s.fsm = .idle →
    (data.length ≠ n.toNat →
      exec (.send a b cmd n data) s = .refused (.badDescriptor { s with mark := some .badDescriptor })) ∧
    (data.length = n.toNat → 320 < n.toNat →
      exec (.send a b cmd n data) s = .refused (.payloadTooLong { s with mark := some .payloadTooLong })) ∧
    (data.length = n.toNat → n.toNat ≤ 320 →
      exec (.send a b cmd n data) s = .next { s with
        origin := some .send
        txCmd := some cmd
        txSrc := some a
        txDst := some b
        txLen := some n
        txPayload := some data
        hdrReg := some (encodeHeader s.cfg cmd a b n)
        nChunks := some (BitVec.ofNat 4 (nchunks n.toNat))
        chunkIdx := some 0
        hist := s.hist ++ [.req (descriptor .send a b cmd n) data]
        fsm := .txHdr })

/-- R101: RECEIVE goes to the header read without asking what is available. -/
def Obligations.ReceiveStartsTheHeaderRead : Prop :=
  ∀ s : State, s.fsm = .idle →
    exec .receive s = .next { s with
      origin := some .recv
      hist := s.hist ++ [.req (descriptor .receive 0 0 0 0) []]
      fsm := .rxHdr }

/-- R109, R110: POLL goes to the availability query; nothing pending completes it, anything pending starts a receive. -/
def Obligations.PollAsksWhatIsPending : Prop :=
  (∀ s : State, s.fsm = .idle →
    exec .poll s = .next { s with
      origin := some .poll
      hist := s.hist ++ [.req (descriptor .poll 0 0 0 0) []]
      fsm := .rxAvail }) ∧
  ∀ (s : State) (a : Nat) (rest : List Nat), Undisturbed s → s.fsm = .rxAvail → s.env.avails = a :: rest →
    (a = 0 → step s = .next { s with
      env := { s.env with avails := rest }
      resp := some { status := .ok, delivered := some false }
      hist := s.hist ++ [.avail a, .resp { status := .ok, delivered := some false }]
      fsm := .idle }) ∧
    (a ≠ 0 → step s = .next { s with
      env := { s.env with avails := rest }
      hist := s.hist ++ [.avail a]
      fsm := .rxHdr })

/-- R115: SET_ID writes the identity and locks it; a second one is refused. -/
def Obligations.SetIdLocksTheIdentity : Prop :=
  ∀ (a : Nibble) (s : State), s.fsm = .idle →
    (s.idLocked = false → exec (.setId a) s = .next { s with
      ownId := a
      idLocked := true
      resp := some { status := .ok }
      hist := s.hist ++ [.req (descriptor .setId a 0 0 0) [], .resp { status := .ok }]
      fsm := .idle }) ∧
    (s.idLocked = true → exec (.setId a) s = .refused (.idLocked { s with mark := some .idLocked }))

/-- R116: REGISTER_HANDLER fills the handler slot, whatever it held; 0 is a token; and no instruction empties a filled
slot. -/
def Obligations.LastHandlerRegistrationWins : Prop :=
  (∀ (n : Half) (s : State), s.fsm = .idle →
    exec (.registerHandler n) s = .next { s with
      handler := some n
      resp := some { status := .ok }
      hist := s.hist ++ [.req (descriptor .registerHandler 0 0 0 n) [], .resp { status := .ok }]
      fsm := .idle }) ∧
  (∀ (i : Instr) (s t : State), s.handler ≠ none → exec i s = .next t → t.handler ≠ none)

/-- R117: ATTACH_DIAG writes the enable, on or off. -/
def Obligations.AttachDiagWritesTheEnable : Prop :=
  ∀ (en : Bool) (s : State), s.fsm = .idle →
    exec (.attachDiag en) s = .next { s with
      diagEn := en
      resp := some { status := .ok }
      hist := s.hist ++ [.req (descriptor .attachDiag (if en then 1 else 0) 0 0 0) [], .resp { status := .ok }]
      fsm := .idle }

/-- R112: HANDLER_DONE completes a delivery; in IDLE it is refused, and in DELIVER every other request is. -/
def Obligations.HandlerDoneEndsTheDelivery : Prop :=
  (∀ s : State, s.fsm = .deliver →
    exec .handlerDone s = .next { s with
      resp := some { status := .ok, delivered := some true }
      hist := s.hist ++ [.req (descriptor .handlerDone 0 0 0 0) [],
        .resp { status := .ok, delivered := some true }]
      fsm := .idle }) ∧
  (∀ s : State, s.fsm = .idle →
    exec .handlerDone s = .refused (.noDelivery { s with mark := some .noDelivery })) ∧
  (∀ (i : Instr) (s : State), s.fsm = .deliver → isRequest i = true → i ≠ .handlerDone →
    exec i s = .refused (.nestedRequest { s with mark := some .nestedRequest }))

/-- R60: what a presented request does in IDLE, in DELIVER and while the block is busy. The held request stays in
`env.host` (log 1, log 6); a refused one is taken off it, which is the model's choice (log 24). -/
def Obligations.RequestsAreAcceptedByTheState : Prop :=
  ∀ (q : Descriptor) (data : Option (List Byte)) (rest : List HostInput) (s : State),
    Undisturbed s → s.env.host = .request q data :: rest →
    let u := { s with env := { s.env with host := rest } }
    (s.fsm = .idle →
      (∀ e, decode (.request q data) = .error e →
        step s = .refused (.badDescriptor { u with mark := some .badDescriptor })) ∧
      (decode (.request q data) = .ok .handlerDone →
        step s = .refused (.noDelivery { u with mark := some .noDelivery })) ∧
      (∀ i, decode (.request q data) = .ok i → i ≠ .handlerDone → step s = exec i u)) ∧
    (s.fsm = .deliver →
      (decode (.request q data) = .ok .handlerDone → step s = exec .handlerDone u) ∧
      (decode (.request q data) ≠ .ok .handlerDone →
        step s = .refused (.nestedRequest { u with mark := some .nestedRequest }))) ∧
    (busy s.fsm = true → ∀ t, step s = .next t →
      t.env.host = s.env.host ∧ ∀ q' d', Event.req q' d' ∉ newEvents s t)

/-! ### Sending -/

/-- R97, R99 with R90: a unit is written by one write and no flush, and its acknowledgment wait begins. -/
def Obligations.UnitIsWrittenThenAwaited : Prop :=
  ∀ s : State, Undisturbed s →
    (∀ h, s.fsm = .txHdr → s.hdrReg = some h →
      step s = .next { s with
        hist := s.hist ++ [.write h]
        ackUnit := some .hdr
        ackAttempts := some 0
        fsm := .awPoll }) ∧
    (∀ c, s.fsm = .txChunk → s.chkReg = some c →
      step s = .next { s with
        hist := s.hist ++ [.write c]
        ackUnit := some .chunk
        ackAttempts := some 0
        fsm := .awPoll })

/-- R91: one availability poll of the acknowledgment wait; the hundredth empty one is the timeout. -/
def Obligations.AckPollCountsEmptyPolls : Prop :=
  ∀ (s : State) (a : Nat) (rest : List Nat) (k : BitVec 7), Undisturbed s → s.fsm = .awPoll →
    s.env.avails = a :: rest → s.ackAttempts = some k → k.toNat < 100 →
    (0 < a → step s = .next { s with
      env := { s.env with avails := rest }
      hist := s.hist ++ [.avail a]
      fsm := .awRead }) ∧
    (a = 0 → k.toNat + 1 < 100 → step s = .next { s with
      env := { s.env with avails := rest }
      hist := s.hist ++ [.avail a]
      ackAttempts := some (k + 1)
      fsm := .awSleep }) ∧
    (a = 0 → k.toNat + 1 = 100 → step s = .next { s with
      env := { s.env with avails := rest }
      hist := s.hist ++ [.avail a, .resp { status := .badAck }]
      ackAttempts := some (k + 1)
      resp := some { status := .badAck }
      fsm := .idle })

/-- R92 with R28: the wait between two polls lasts until a tick arrives, and consumes it. -/
def Obligations.AckSleepWaitsForATick : Prop :=
  ∀ s : State, Undisturbed s → s.fsm = .awSleep →
    (s.env.ticks = 0 → step s = .next s) ∧
    (∀ k, s.env.ticks = k + 1 → step s = .next { s with
      env := { s.env with ticks := k }
      hist := s.hist ++ [.tick]
      fsm := .awPoll })

/-- R93, R98, R100: the byte read in the acknowledgment wait ends the SEND, or lets it go on to its next chunk. -/
def Obligations.AckByteDecidesTheSend : Prop :=
  ∀ (a : Byte) (s : State), s.fsm = .awRead →
    (a ≠ s.cfg.ack → exec (.ack a) s = .next { s with
      hist := s.hist ++ [.readByte a, .resp { status := .badAck }]
      resp := some { status := .badAck }
      fsm := .idle }) ∧
    (∀ u i n p, a = s.cfg.ack → s.ackUnit = some u → s.chunkIdx = some i → s.nChunks = some n →
      s.txPayload = some p →
      let j := if u = .chunk then i + 1 else i
      (j = n → exec (.ack a) s = .next { s with
        chunkIdx := some j
        hist := s.hist ++ [.readByte a, .resp { status := .ok }]
        resp := some { status := .ok }
        fsm := .idle }) ∧
      (j ≠ n → exec (.ack a) s = .next { s with
        chunkIdx := some j
        hist := s.hist ++ [.readByte a]
        chkReg := some (encodeChunk p j.toNat)
        fsm := .txChunk }))

/-! ### Receiving -/

/-- R102 on a full read, with the checks of R80: the unit HEADER. -/
def Obligations.HeaderUnitIsDecoded : Prop :=
  ∀ (m n v c : Byte) (sn tg : Nibble) (l : Half) (k : Byte) (s : State), s.fsm = .rxHdr →
    let r := headerBytes m n v c sn tg l k
    let u := { s with hist := s.hist ++ [.read 8 r] }
    let magic := m = s.cfg.magic1 ∧ n = s.cfg.magic2
    let check := crc8 (headerBytes m n v c sn tg l 0) = k
    (¬ magic → exec (.header m n v c sn tg l k) s = rxFail .badMagic u) ∧
    (magic → v ≠ s.cfg.version → exec (.header m n v c sn tg l k) s = rxFail .badVersion u) ∧
    (magic → v = s.cfg.version → ¬ check → exec (.header m n v c sn tg l k) s = rxFail .badChecksum u) ∧
    (magic → v = s.cfg.version → check → tg ≠ s.ownId →
      exec (.header m n v c sn tg l k) s = rxFail .notAddressedToUs u) ∧
    (magic → v = s.cfg.version → check → tg = s.ownId →
      exec (.header m n v c sn tg l k) s = .next { u with
        rxCmd := some c
        rxSrc := some sn
        rxLen := some l
        fsm := .rxHdrAck })

/-- R104 on a full read, with the checks of R85: the unit CHUNK is stored at `32 * chunk_idx`, or fails and stores
nothing. -/
def Obligations.ChunkUnitIsStored : Prop :=
  ∀ (d : List Byte) (k : Byte) (s : State), s.fsm = .rxChunk → d.length = 32 →
    let u := { s with hist := s.hist ++ [.read 33 (d ++ [k])] }
    (crc8 d ≠ k → exec (.chunk d k) s = rxFail .badChecksum u) ∧
    (∀ i, crc8 d = k → s.chunkIdx = some i → 32 * i.toNat + 32 ≤ s.cfg.rxCap →
      ∃ m : Memory, exec (.chunk d k) s = .next { u with rxBuf := m, fsm := .rxChunkAck } ∧
        ∀ a, cellAt m a =
          if 32 * i.toNat ≤ a ∧ a < 32 * i.toNat + 32 then d[a - 32 * i.toNat]? else cellAt s.rxBuf a)

/-- R102, R104 on every read the transport may answer, short ones included: one read, then the decoder decides. -/
def Obligations.ReadsGoToTheirDecoder : Prop :=
  ∀ (s : State) (r : List Byte) (rest : List (List Byte)), Undisturbed s → s.env.reads = r :: rest →
    (s.fsm = .rxHdr → r.length ≤ 8 →
      let u := { s with env := { s.env with reads := rest }, hist := s.hist ++ [.read 8 r] }
      (∀ st, decodeHeader s.cfg r s.ownId = .error st → step s = rxFail st u) ∧
      (∀ h, decodeHeader s.cfg r s.ownId = .ok h → step s = .next { u with
        rxCmd := some h.cmd
        rxSrc := some h.src
        rxLen := some h.len
        fsm := .rxHdrAck })) ∧
    (s.fsm = .rxChunk → r.length ≤ 33 →
      let u := { s with env := { s.env with reads := rest }, hist := s.hist ++ [.read 33 r] }
      (∀ st, decodeChunk r = .error st → step s = rxFail st u) ∧
      (∀ d i, decodeChunk r = .ok d → s.chunkIdx = some i → 32 * i.toNat + 32 ≤ s.cfg.rxCap →
        step s = .next { u with rxBuf := cellsSet s.rxBuf (32 * i.toNat) d, fsm := .rxChunkAck }))

/-- R103 with R89: the header is acknowledged, and only then its length is held against the capacity. -/
def Obligations.HeaderIsAcknowledgedBeforeTheCapacityCheck : Prop :=
  ∀ (s : State) (l : Half), Undisturbed s → s.fsm = .rxHdrAck → s.rxLen = some l →
    let u := { s with hist := s.hist ++ [.write [s.cfg.ack], .flush] }
    let v := { u with nChunks := some (BitVec.ofNat 4 (nchunks l.toNat)), chunkIdx := some 0 }
    (s.cfg.rxCap < l.toNat → step s = rxFail .bufferTooSmall u) ∧
    (l.toNat ≤ s.cfg.rxCap → nchunks l.toNat = 0 → step s = rxOk v) ∧
    (l.toNat ≤ s.cfg.rxCap → nchunks l.toNat ≠ 0 → step s = .next { v with fsm := .rxChunk })

/-- R105 with R89: the chunk is acknowledged and counted; the last one completes the message. -/
def Obligations.ChunkIsAcknowledgedAndCounted : Prop :=
  ∀ (s : State) (i n : BitVec 4), Undisturbed s → s.fsm = .rxChunkAck → s.chunkIdx = some i → s.nChunks = some n →
    let u := { s with hist := s.hist ++ [.write [s.cfg.ack], .flush], chunkIdx := some (i + 1) }
    (i + 1 = n → step s = rxOk u) ∧
    (i + 1 ≠ n → step s = .next { u with fsm := .rxChunk })

/-- R106, R111 with R33: a received message is the response of a RECEIVE or the delivery of a POLL, its payload the first
`rx_len` cells of the buffer; a POLL without a handler is the fault NoHandler. -/
def Obligations.ReceivedMessageIsHandedOver : Prop :=
  ∀ (s : State) (cmd : Byte) (src : Nibble) (l : Half) (p : List Byte),
    s.rxCmd = some cmd → s.rxSrc = some src → s.rxLen = some l → p.length = l.toNat →
    (∀ a, a < l.toNat → cellAt s.rxBuf a = p[a]?) →
    (s.origin = some .recv →
      let r : Resp := { status := .ok, cmd := some cmd, src := some src, len := some l, payload := some p }
      rxOk s = .next { s with resp := some r, hist := s.hist ++ [.resp r], fsm := .idle }) ∧
    (∀ token, s.origin = some .poll → s.handler = some token →
      rxOk s = .next { s with hist := s.hist ++ [.deliver token cmd src p l], fsm := .deliver }) ∧
    (s.origin = some .poll → s.handler = none →
      rxOk s = .fault (.noHandler { s with mark := some .noHandler }))

/-- R107, R113, R114 with the codes of R118: a failure is the status of a RECEIVE; a POLL drops it, with a diagnostic
record where the sink is attached. -/
def Obligations.ReceiveFailureIsReported : Prop :=
  (∀ (st : Status) (s : State),
    (s.origin = some .recv →
      rxFail st s = .next { s with
        resp := some { status := st }
        hist := s.hist ++ [.resp { status := st }]
        fsm := .idle }) ∧
    (s.origin = some .poll → s.diagEn = true →
      rxFail st s = .next { s with
        resp := some { status := .ok, delivered := some false }
        hist := s.hist ++ [.diag (statusCode st), .resp { status := .ok, delivered := some false }]
        fsm := .idle }) ∧
    (s.origin = some .poll → s.diagEn = false →
      rxFail st s = .next { s with
        resp := some { status := .ok, delivered := some false }
        hist := s.hist ++ [.resp { status := .ok, delivered := some false }]
        fsm := .idle })) ∧
  [Status.ok, .shortRead, .badMagic, .badVersion, .badChecksum, .bufferTooSmall, .badAck, .notAddressedToUs].map
    statusCode = [0, 1, 2, 3, 4, 5, 6, 7]

/-! ### The machine as a whole -/

/-- The invariant `Inv` holds right after reset (R136). That the configuration of `State.reset` is well formed (R9) is the
model's choice of R8's default capacity for it (log 2). -/
def Obligations.InvariantHoldsAtReset : Prop := Inv State.reset

/-- Every step keeps `Inv`: the value ranges and widths of R18, the buffer inside `RX_CAP` and in canonical form, the
identity 0 until it is locked (R20), and the registers that the next step reads written and in agreement (R18, R32,
R33). -/
def Obligations.EveryStepKeepsTheInvariant : Prop :=
  ∀ s t : State, Inv s → step s = .next t → Inv t

/-- R18: no step reads an unwritten register or cell; and R32: no step writes outside the buffer. -/
def Obligations.NoUnwrittenReadAndNoOutsideWrite : Prop :=
  ∀ s u : State, Inv s → s.mark = none →
    step s ≠ .fault (.unwrittenRead u) ∧ step s ≠ .fault (.outsideBuffer u)

/-- R20 to R24: the configuration never changes, and apart from reset a configuration register changes only by the request
that writes it; the identity not at all once it is locked. -/
def Obligations.ConfigurationRegistersAreWrittenByTheirRequests : Prop :=
  (∀ s t : State, step s = .next t → t.cfg = s.cfg) ∧
  (∀ s t : State, noReset s = true → step s = .next t →
    (s.idLocked = true → t.ownId = s.ownId ∧ t.idLocked = true) ∧
    (s.fsm ≠ .idle → SameConfig s t)) ∧
  (∀ (i : Instr) (s t : State), exec i s = .next t →
    ((∀ a, i ≠ .setId a) → t.ownId = s.ownId ∧ t.idLocked = s.idLocked) ∧
    ((∀ n, i ≠ .registerHandler n) → t.handler = s.handler) ∧
    ((∀ en, i ≠ .attachDiag en) → t.diagEn = s.diagEn))

/-- R14, R45: a step adds its events at the end of the history, and at most one of them is a transport input. -/
def Obligations.StepsOnlyAppendToTheHistory : Prop :=
  ∀ s t : State, step s = .next t →
    t.hist = s.hist ++ newEvents s t ∧ ((newEvents s t).filter isInput).length ≤ 1

/-- R35, R47: apart from reset the buffer changes only in the step that reads a chunk, and there in exactly the block of
32 cells at `32 * chunk_idx`. -/
def Obligations.BufferIsWrittenOnlyByChunks : Prop :=
  ∀ s t : State, noReset s = true → step s = .next t →
    SameBuffer s t ∨
    (s.fsm = .rxChunk ∧ t.fsm = .rxChunkAck ∧ ∃ (i : BitVec 4) (d : List Byte),
      s.chunkIdx = some i ∧ d.length = 32 ∧
      ∀ a, cellAt t.rxBuf a =
        if 32 * i.toNat ≤ a ∧ a < 32 * i.toNat + 32 then d[a - 32 * i.toNat]? else cellAt s.rxBuf a)

/-- R25, R122: apart from reset the response is written only by completing a request: recorded once, last, with the block
back in IDLE. -/
def Obligations.ResponseIsWrittenOnlyAtCompletion : Prop :=
  ∀ s t : State, noReset s = true → step s = .next t →
    (t.resp = s.resp ∧ ∀ r, Event.resp r ∉ newEvents s t) ∨
    (∃ r evs, t.resp = some r ∧ t.fsm = .idle ∧ newEvents s t = evs ++ [.resp r] ∧ ∀ r', Event.resp r' ∉ evs)

/-- R119: which status a request can end with, and which codes the diagnostic port can carry, by the state of the step. -/
def Obligations.StatusesByRequest : Prop :=
  ∀ s t : State, Inv s → noReset s = true → step s = .next t →
    (∀ r, Event.resp r ∈ newEvents s t →
      r.status = .ok ∨
      (r.status ∈ failures s.fsm ∧ (r.status = .badAck → s.origin = some .send) ∧
        (r.status ≠ .badAck → s.origin = some .recv))) ∧
    (∀ code, Event.diag code ∈ newEvents s t →
      s.origin = some .poll ∧ s.diagEn = true ∧ ∃ st ∈ failures s.fsm, code = statusCode st)

/-- R82: the receiver writes nothing while it decodes a header; it goes on to one acknowledgment exactly when the header is
good, and otherwise ends having consumed only that read. -/
def Obligations.HeaderIsAcknowledgedExactlyWhenGood : Prop :=
  ∀ (s : State) (r : List Byte) (rest : List (List Byte)), Inv s → Undisturbed s → s.fsm = .rxHdr →
    s.env.reads = r :: rest → r.length ≤ 8 →
    (∀ st, decodeHeader s.cfg r s.ownId = .error st →
      ∃ t, step s = .next t ∧ t.fsm = .idle ∧ written (newEvents s t) = [] ∧
        t.env = { s.env with reads := rest }) ∧
    (∀ h, decodeHeader s.cfg r s.ownId = .ok h →
      ∃ t, step s = .next t ∧ t.fsm = .rxHdrAck ∧ written (newEvents s t) = [] ∧
        ∃ v, (step t = .next v ∨ step t = .fault (.noHandler v)) ∧ written (newEvents t v) = [[s.cfg.ack]])

/-- R46: a chunk is sent only after the previous unit's acknowledgment was read, and a chunk is read only after the
previous unit was acknowledged; while an acknowledgment is awaited nothing is written. A step that is an act from outside
is no step of the block (log 9); an access to the buffer changes nothing else (`StaleBufferIsRefused`). -/
def Obligations.StopAndWait : Prop :=
  ∀ s t : State, noAct s = true → step s = .next t →
    (t.fsm = .txChunk → s.fsm = .awRead ∧ newEvents s t = [.readByte s.cfg.ack]) ∧
    (t.fsm = .rxChunk → s.fsm ≠ .rxChunk → (s.fsm = .rxHdrAck ∨ s.fsm = .rxChunkAck) ∧
      newEvents s t = [.write [s.cfg.ack], .flush]) ∧
    (s.fsm = .txHdr ∨ s.fsm = .txChunk → t.fsm = .awPoll ∧ ∃ bs, newEvents s t = [.write bs]) ∧
    (s.fsm = .awPoll ∨ s.fsm = .awSleep ∨ s.fsm = .awRead → written (newEvents s t) = [])

/-- R95, R147: in a busy state whose question is answered the block goes on, and comes closer to the end of the request;
the one fault it can meet is NoHandler. -/
def Obligations.BusyStepsMakeProgress : Prop :=
  ∀ s : State, Inv s → Undisturbed s → busy s.fsm = true → answered s = true →
    (∃ t, step s = .next t ∧ stepsLeft t < stepsLeft s) ∨ (∃ u, step s = .fault (.noHandler u))

/-- R147: with enough answers ready, a running request leaves the busy states within `stepsLeft` steps, by completing, by
a delivery, or by the fault NoHandler; and `stepsLeft` is the bound of the rule at the points that the rule counts from. -/
def Obligations.RequestsTerminate : Prop :=
  (∀ s : State, Inv s → Undisturbed s → busy s.fsm = true → Supplied s (stepsLeft s) →
    ∃ k, k ≤ stepsLeft s ∧
      ((∃ t : State, Host.Core.run core k s = .next t ∧ busy t.fsm = false) ∨
       (∃ u : State, Host.Core.run core k s = .fault (.noHandler u)))) ∧
  (∀ s : State, s.fsm = .txHdr → stepsLeft s = 201 * (regNat s.nChunks + 1)) ∧
  (∀ (s : State) (l : Half), s.fsm = .rxHdrAck → s.rxLen = some l → stepsLeft s ≤ 1 + 2 * nchunks l.toNat) ∧
  (∀ s : State, s.fsm = .rxHdr → stepsLeft s ≤ 2 + 2 * 10) ∧
  (∀ s : State, s.fsm = .rxAvail → stepsLeft s ≤ 3 + 2 * 10)

/-- R95 with R91, R92, R100: a wait that is never answered ends with BadAck after exactly 100 empty polls and 99 ticks. -/
def Obligations.SilentPeerTimesOut : Prop :=
  ∀ (s : State) (rest : List Nat), Undisturbed s → s.fsm = .awPoll → s.ackAttempts = some 0 →
    s.env.avails = List.replicate 100 0 ++ rest → 99 ≤ s.env.ticks →
    ∃ t : State, Host.Core.run core 199 s = .next t ∧ t.fsm = .idle ∧ t.resp = some { status := .badAck } ∧
      t.ackAttempts = some 100 ∧ t.env.avails = rest ∧ t.env.ticks + 99 = s.env.ticks ∧
      t.hist = s.hist ++ (List.replicate 99 [Event.avail 0, Event.tick]).flatten ++
        [.avail 0, .resp { status := .badAck }]

/-- R101 to R106, R109 to R111: with the units of a message for this endpoint as the transport's answers, a receive takes
`2 + 2 n` steps; a RECEIVE's response, or a POLL's delivery, carries the message, and every unit was acknowledged once. -/
def Obligations.WholeMessageIsReceived : Prop :=
  ∀ (s : State) (cmd : Byte) (src : Nibble) (l : Half) (p : List Byte) (rest : List (List Byte)),
    Undisturbed s → s.fsm = .rxHdr → p.length = l.toNat → l.toNat ≤ s.cfg.rxCap →
    s.env.reads =
      encodeHeader s.cfg cmd src s.ownId l :: (List.range (nchunks l.toNat)).map (encodeChunk p) ++ rest →
    (s.origin = some .recv → ∃ t : State,
      Host.Core.run core (2 + 2 * nchunks l.toNat) s = .next t ∧ t.fsm = .idle ∧ t.env.reads = rest ∧
      t.resp = some { status := .ok, cmd := some cmd, src := some src, len := some l, payload := some p } ∧
      written (newEvents s t) = List.replicate (1 + nchunks l.toNat) [s.cfg.ack]) ∧
    (∀ token, s.origin = some .poll → s.handler = some token → ∃ t : State,
      Host.Core.run core (2 + 2 * nchunks l.toNat) s = .next t ∧ t.fsm = .deliver ∧ t.env.reads = rest ∧
      (newEvents s t).getLast? = some (.deliver token cmd src p l) ∧
      written (newEvents s t) = List.replicate (1 + nchunks l.toNat) [s.cfg.ack])

/-- R96 to R99: with every unit acknowledged at the first poll, a SEND takes `3 (n + 1)` steps after its acceptance,
completes OK, and has written the header and then every chunk in order. -/
def Obligations.WholeMessageIsSent : Prop :=
  ∀ (s : State) (p : List Byte) (n : BitVec 4) (h bytes : List Byte),
    Undisturbed s → s.fsm = .txHdr → Sending s p n 0 → p.length ≤ 320 → s.hdrReg = some h →
    n.toNat + 1 ≤ s.env.avails.length → (∀ a ∈ s.env.avails, 0 < a) →
    s.env.bytes = List.replicate (n.toNat + 1) s.cfg.ack ++ bytes →
    ∃ t : State, Host.Core.run core (3 * (n.toNat + 1)) s = .next t ∧ t.fsm = .idle ∧
      t.resp = some { status := .ok } ∧ t.env.bytes = bytes ∧
      written (newEvents s t) = h :: (List.range n.toNat).map (encodeChunk p)

/-- What one endpoint's SEND writes, another endpoint of the same magic and version bytes that has the target's identity
receives: the command, the sender, the length and the payload (R83, R88, R96 to R106). -/
def Obligations.SentMessageIsReceived : Prop :=
  ∀ (a b c : State) (cmd : Byte) (src dst : Nibble) (n : Half) (data : List Byte) (rest : List (List Byte)),
    Undisturbed a → a.fsm = .idle → data.length = n.toNat → n.toNat ≤ 320 →
    nchunks n.toNat + 1 ≤ a.env.avails.length → (∀ x ∈ a.env.avails, 0 < x) →
    a.env.bytes = List.replicate (nchunks n.toNat + 1) a.cfg.ack →
    exec (.send src dst cmd n data) a = .next c →
    ∃ t : State, Host.Core.run core (3 * (nchunks n.toNat + 1)) c = .next t ∧ t.resp = some { status := .ok } ∧
      (Undisturbed b → b.fsm = .rxHdr → b.origin = some .recv → b.ownId = dst →
        b.cfg.magic1 = a.cfg.magic1 → b.cfg.magic2 = a.cfg.magic2 → b.cfg.version = a.cfg.version →
        n.toNat ≤ b.cfg.rxCap → b.env.reads = written (newEvents c t) ++ rest →
        ∃ u : State, Host.Core.run core (2 + 2 * nchunks n.toNat) b = .next u ∧
          u.resp = some { status := .ok, cmd := some cmd, src := some src, len := some n, payload := some data })

/-- When what stands at the port decodes to an instruction, the step is that instruction, on the state without the
consumed input: a request in IDLE or DELIVER (R60), a header in RX_HDR (R102), a chunk in RX_CHUNK (R104), a byte in
AW_READ (R93). The step adds nothing else. -/
def Obligations.StepRunsTheDecodedInstruction : Prop :=
  ∀ (s : State) (i : Instr), Undisturbed s →
    (∀ q data rest, s.fsm = .idle ∨ s.fsm = .deliver → s.env.host = .request q data :: rest →
      decode (.request q data) = .ok i → step s = exec i { s with env := { s.env with host := rest } }) ∧
    (∀ r rest, s.fsm = .rxHdr → s.env.reads = r :: rest → decode (.wire .header r) = .ok i →
      step s = exec i { s with env := { s.env with reads := rest } }) ∧
    (∀ r rest, s.fsm = .rxChunk → s.env.reads = r :: rest → decode (.wire .chunk r) = .ok i →
      step s = exec i { s with env := { s.env with reads := rest } }) ∧
    (∀ b rest, s.fsm = .awRead → s.env.bytes = b :: rest → decode (.wire .ack [b]) = .ok i →
      step s = exec i { s with env := { s.env with bytes := rest } })

/-! ### Reset, marks, and the retained reference -/

/-- R136: the state after power-on reset, and that an explicit reset (scheduled as in log 9) sets the same; R137: it
records `Reset` and no response, and the transport's and the host's inputs stay. -/
def Obligations.ResetSetsEveryRegister : Prop :=
  (let z := State.reset
   z.fsm = .idle ∧ z.ownId = 0 ∧ z.idLocked = false ∧ z.handler = none ∧ z.diagEn = false ∧ z.resp = none ∧
   z.origin = none ∧ z.txCmd = none ∧ z.txSrc = none ∧ z.txDst = none ∧ z.txLen = none ∧ z.txPayload = none ∧
   z.hdrReg = none ∧ z.chkReg = none ∧ z.rxCmd = none ∧ z.rxSrc = none ∧ z.rxLen = none ∧ z.nChunks = none ∧
   z.chunkIdx = none ∧ z.ackUnit = none ∧ z.ackAttempts = none ∧ (∀ a, cellAt z.rxBuf a = none) ∧ z.mark = none ∧
   z.hist = [.reset]) ∧
  (∀ (s : State) (rest : List (Nat × Act)), s.env.acts = (0, .reset) :: rest →
    step s = .next { State.reset with
      cfg := s.cfg
      hist := s.hist ++ [.reset]
      env := { s.env with acts := rest } })

/-- R126, R127: the state that a fault or a refusal of a step leaves is marked with its reason, and a marked state never
takes another step while no reset is due; R9: a configuration that is not well formed is refused. -/
def Obligations.StopsAreFinal : Prop :=
  (∀ (s : State) (m : Mark), s.mark = some m → noReset s = true → ∀ t, step s ≠ .next t) ∧
  (∀ s : State, s.mark = none → s.env.acts = [] → ¬ (s.cfg.rxCap % 32 = 0 ∧ s.cfg.rxCap ≤ 320) →
    step s = .refused (.badConfig { s with mark := some .badConfig })) ∧
  (∀ s u : State, step s = .fault (.noHandler u) → u.mark = some .noHandler) ∧
  (∀ s u : State, step s = .fault (.unwrittenRead u) → u.mark = some .unwrittenRead) ∧
  (∀ s u : State, step s = .refused (.badDescriptor u) → u.mark = some .badDescriptor) ∧
  (∀ s u : State, step s = .refused (.payloadTooLong u) → u.mark = some .payloadTooLong) ∧
  (∀ s u : State, step s = .refused (.idLocked u) → u.mark = some .idLocked) ∧
  (∀ s u : State, step s = .refused (.noDelivery u) → u.mark = some .noDelivery) ∧
  (∀ s u : State, step s = .refused (.nestedRequest u) → u.mark = some .nestedRequest) ∧
  (∀ s u : State, step s = .refused (.badConfig u) → u.mark = some .badConfig) ∧
  (∀ s u : State, step s = .refused (.staleBuffer u) → u.mark = some .staleBuffer)

/-- R48, U4, in the form of log 13: in every state of the block, the host depends on the buffer through the reference that
hand-over number `ref` gave it; this is StaleBuffer unless that reference holds. The newest hand-over's does, until
HANDLER_DONE, RECEIVE or POLL is accepted or the block is reset; no other request ends it; and a reference that no longer
holds never holds again, whatever is handed over later. That a refused access is off the schedule in the left state is
the model's choice (log 24). -/
def Obligations.StaleBufferIsRefused : Prop :=
  (∀ (s : State) (ref : Nat) (rest : List (Nat × Act)), s.mark = none → cfgOk s.cfg = true →
    s.env.acts = (0, .access ref) :: rest →
    let u := { s with env := { s.env with acts := rest } }
    (goodRef s.hist = some ref → step s = .next u) ∧
    (goodRef s.hist ≠ some ref → step s = .refused (.staleBuffer { u with mark := some .staleBuffer }))) ∧
  (∀ (h : List Event) (token : Half) (cmd : Byte) (src : Nibble) (p : List Byte) (l : Half),
    goodRef (h ++ [.deliver token cmd src p l]) = some (handOvers h) ∧
    handOvers (h ++ [.deliver token cmd src p l]) = handOvers h + 1) ∧
  (∀ (h : List Event) (r : Resp), r.payload ≠ none →
    goodRef (h ++ [.resp r]) = some (handOvers h) ∧ handOvers (h ++ [.resp r]) = handOvers h + 1) ∧
  (∀ (h : List Event) (q : Descriptor) (d : List Byte),
    goodRef (h ++ [.req q d]) = (if fieldOp q = 2 ∨ fieldOp q = 3 ∨ fieldOp q = 8 then none else goodRef h)) ∧
  (∀ h : List Event, goodRef (h ++ [.reset]) = none) ∧
  (∀ (h later : List Event) (ref : Nat), ref < handOvers h → goodRef h ≠ some ref → goodRef (h ++ later) ≠ some ref)

/-! ### Frames -/

/-- CHECKSUM, SET_ID, REGISTER_HANDLER, ATTACH_DIAG and HANDLER_DONE (R74, R112, R115 to R117) write their own register,
the response, `fsm` and the history, and nothing else: no form of them stores to the buffer. -/
def Obligations.OneStepRequestsFrame : Prop :=
  ∀ (i : Instr) (s t : State),
    (∃ n data, i = .checksum n data) ∨ (∃ a, i = .setId a) ∨ (∃ n, i = .registerHandler n) ∨
      (∃ en, i = .attachDiag en) ∨ i = .handlerDone →
    exec i s = .next t →
    SameMessage s t ∧ SameHeader s t ∧ SameWait s t ∧ SameBuffer s t ∧ SameOutside s t ∧
    t.origin = s.origin ∧ t.chkReg = s.chkReg ∧ t.nChunks = s.nChunks ∧ t.chunkIdx = s.chunkIdx ∧
    ((∀ a, i ≠ .setId a) → t.ownId = s.ownId ∧ t.idLocked = s.idLocked) ∧
    ((∀ n, i ≠ .registerHandler n) → t.handler = s.handler) ∧
    ((∀ en, i ≠ .attachDiag en) → t.diagEn = s.diagEn)

/-- SEND (R96) writes the registers of the message, `origin`, `n_chunks`, `chunk_idx` and `fsm`; RECEIVE and POLL (R101,
R109) write `origin` and `fsm`; nothing else but the history changes, and none of them stores to the buffer. -/
def Obligations.StartingRequestsFrame : Prop :=
  ∀ (i : Instr) (s t : State),
    (∃ a b cmd n data, i = .send a b cmd n data) ∨ i = .receive ∨ i = .poll →
    exec i s = .next t →
    SameConfig s t ∧ SameHeader s t ∧ SameWait s t ∧ SameBuffer s t ∧ SameOutside s t ∧
    t.chkReg = s.chkReg ∧ t.resp = s.resp ∧
    (i = .receive ∨ i = .poll → SameMessage s t ∧ t.nChunks = s.nChunks ∧ t.chunkIdx = s.chunkIdx)

/-- HEADER (R102, R107, R113) writes the received header's registers, and on a failure only the response; ACK (R93, R98,
R100) writes `chunk_idx`, `chk_reg` and the response; beside `fsm` and the history nothing else changes, and neither
stores to the buffer. -/
def Obligations.HeaderAndAckFrame : Prop :=
  (∀ (m n v c : Byte) (sn tg : Nibble) (l : Half) (k : Byte) (s t : State),
    exec (.header m n v c sn tg l k) s = .next t →
    SameConfig s t ∧ SameMessage s t ∧ SameWait s t ∧ SameBuffer s t ∧ SameOutside s t ∧
    t.origin = s.origin ∧ t.chkReg = s.chkReg ∧ t.nChunks = s.nChunks ∧ t.chunkIdx = s.chunkIdx ∧
    (t.fsm = .rxHdrAck ∨ SameHeader s t)) ∧
  (∀ (a : Byte) (s t : State), exec (.ack a) s = .next t →
    SameConfig s t ∧ SameMessage s t ∧ SameHeader s t ∧ SameWait s t ∧ SameBuffer s t ∧ SameOutside s t ∧
    t.origin = s.origin ∧ t.nChunks = s.nChunks ∧
    (t.fsm = .txChunk ∨ t.chkReg = s.chkReg) ∧
    (s.ackUnit = some .chunk ∨ t.chunkIdx = s.chunkIdx))

/-- CHUNK (R104, R107, R113) writes the buffer, `fsm`, the history and on a failure the response; the cells outside the 32
at `CHUNK_DATA * chunk_idx` read as before, and all of them do on a unit that fails. -/
def Obligations.ChunkFrame : Prop :=
  ∀ (d : List Byte) (k : Byte) (s t : State), d.length = 32 → exec (.chunk d k) s = .next t →
    SameConfig s t ∧ SameMessage s t ∧ SameHeader s t ∧ SameWait s t ∧ SameOutside s t ∧
    t.origin = s.origin ∧ t.chkReg = s.chkReg ∧ t.nChunks = s.nChunks ∧ t.chunkIdx = s.chunkIdx ∧
    (∀ i, s.chunkIdx = some i → ∀ a, (a < chunkData * i.toNat ∨ chunkData * i.toNat + 32 ≤ a) →
      cellAt t.rxBuf a = cellAt s.rxBuf a) ∧
    (s.fsm ≠ .rxChunk ∨ crc8 d ≠ k → SameBuffer s t)
end

