-- ==== Sys2Proof/Laws/Codec.lean ====
section
/-! SUPPORT. Lengths and small facts of the two codecs (spec/41_frame_codec.md, spec/42_chunk_codec.md). -/

namespace Sys2Proof.Machine

@[simp] theorem encodeHeader_length (c : Cfg) (cmd : Byte) (src dst : Nibble) (l : Half) :
    (encodeHeader c cmd src dst l).length = hdrLen := rfl

/-- A chunk's data field always has 32 bytes. -/
@[simp] theorem chunkField_length (p : List Byte) (k : Nat) : (chunkField p k).length = chunkData := by
  simp [chunkField, chunkData]

@[simp] theorem encodeChunk_length (p : List Byte) (k : Nat) : (encodeChunk p k).length = chunkLen := by
  simp [encodeChunk, chunkData, chunkLen]

/-- A chunk that decodes gives 32 bytes. -/
theorem decodeChunk_length (r d : List Byte) (h : decodeChunk r = .ok d) : d.length = chunkData := by
  unfold decodeChunk at h
  split at h
  · simp at h
  · split at h
    · simp at h
    · cases h; simp [chunkData, chunkLen] at *; omega

/-- A message that fits the largest buffer has at most ten chunks. -/
theorem nchunks_le {l : Nat} (h : l ≤ maxPayload) : nchunks l ≤ 10 := by
  simp only [nchunks, chunkData, maxPayload] at *; omega

/-- The chunks cover the message. -/
theorem le_nchunks (l : Nat) : l ≤ chunkData * nchunks l := by
  simp only [nchunks, chunkData]; omega

theorem nchunks_eq_zero (l : Nat) : nchunks l = 0 ↔ l = 0 := by
  simp only [nchunks, chunkData]; omega

/-- A multiple of 32 that holds the message holds its chunks (R32). -/
theorem nchunks_fits {l cap : Nat} (h : l ≤ cap) (hc : cap % 32 = 0) : chunkData * nchunks l ≤ cap := by
  simp only [nchunks, chunkData]; omega

end Sys2Proof.Machine
end

