-- ==== Sys2Proof/Laws/Decode.lean ====
section
/-! SUPPORT. The fields of an assembled descriptor and header (spec/30_encoding.md R54 to R58), and that R59 admits every
descriptor the encoder writes. -/

namespace Sys2Proof.Machine

variable (o : Op) (a b : Nibble) (cmd : Byte) (n : Half)

@[simp] theorem fieldOp_descriptor : fieldOp (descriptor o a b cmd n) = opCode o := by
  apply BitVec.eq_of_getLsbD_eq
  intro i hi
  simp only [fieldOp, descriptor, BitVec.getLsbD_extractLsb', BitVec.getLsbD_append]
  interval_cases i <;> simp

@[simp] theorem fieldA_descriptor : fieldA (descriptor o a b cmd n) = a := by
  apply BitVec.eq_of_getLsbD_eq
  intro i hi
  simp only [fieldA, descriptor, BitVec.getLsbD_extractLsb', BitVec.getLsbD_append]
  interval_cases i <;> simp

@[simp] theorem fieldB_descriptor : fieldB (descriptor o a b cmd n) = b := by
  apply BitVec.eq_of_getLsbD_eq
  intro i hi
  simp only [fieldB, descriptor, BitVec.getLsbD_extractLsb', BitVec.getLsbD_append]
  interval_cases i <;> simp

@[simp] theorem fieldCmd_descriptor : fieldCmd (descriptor o a b cmd n) = cmd := by
  apply BitVec.eq_of_getLsbD_eq
  intro i hi
  simp only [fieldCmd, descriptor, BitVec.getLsbD_extractLsb', BitVec.getLsbD_append]
  interval_cases i <;> simp

@[simp] theorem fieldN_descriptor : fieldN (descriptor o a b cmd n) = n := by
  apply BitVec.eq_of_getLsbD_eq
  intro i hi
  simp only [fieldN, descriptor, BitVec.getLsbD_extractLsb', BitVec.getLsbD_append]
  interval_cases i <;> simp

@[simp] theorem fieldEn_descriptor (en : Bool) : fieldEn (descriptor o (enField en) b cmd n) = en := by
  simp only [fieldEn, descriptor, BitVec.getLsbD_append]
  cases en <;> simp [enField]

@[simp] theorem opOfCode_opCode : opOfCode (opCode o) = some o := by cases o <;> rfl

/-! ### R59 on an assembled descriptor -/

theorem mask_send : descriptor .send a b cmd n &&& opMask .send = (opCode .send).setWidth 64 := by
  apply BitVec.eq_of_getLsbD_eq
  intro i hi
  simp only [BitVec.getLsbD_and, descriptor, BitVec.getLsbD_append]
  interval_cases i <;> simp [opMask, opCode]

theorem mask_checksum :
    descriptor .checksum 0 0 0 n &&& opMask .checksum = (opCode .checksum).setWidth 64 := by
  apply BitVec.eq_of_getLsbD_eq
  intro i hi
  simp only [BitVec.getLsbD_and, descriptor, BitVec.getLsbD_append]
  interval_cases i <;> simp [opMask, opCode]

theorem mask_setId : descriptor .setId a 0 0 0 &&& opMask .setId = (opCode .setId).setWidth 64 := by
  revert a; decide +kernel

theorem mask_registerHandler :
    descriptor .registerHandler 0 0 0 n &&& opMask .registerHandler = (opCode .registerHandler).setWidth 64 := by
  apply BitVec.eq_of_getLsbD_eq
  intro i hi
  simp only [BitVec.getLsbD_and, descriptor, BitVec.getLsbD_append]
  interval_cases i <;> simp [opMask, opCode]

theorem mask_attachDiag (en : Bool) :
    descriptor .attachDiag (enField en) 0 0 0 &&& opMask .attachDiag = (opCode .attachDiag).setWidth 64 := by
  cases en <;> decide +kernel

/-! ### Header bytes -/

@[simp] theorem hiNibble_addrByte (s t : Nibble) : hiNibble (addrByte s t) = s := by
  apply BitVec.eq_of_getLsbD_eq
  intro i hi
  simp only [hiNibble, addrByte, BitVec.getLsbD_extractLsb', BitVec.getLsbD_append]
  interval_cases i <;> simp

@[simp] theorem loNibble_addrByte (s t : Nibble) : loNibble (addrByte s t) = t := by
  apply BitVec.eq_of_getLsbD_eq
  intro i hi
  simp only [loNibble, addrByte, BitVec.getLsbD_extractLsb', BitVec.getLsbD_append]
  interval_cases i <;> simp

@[simp] theorem addrByte_nibbles (b : Byte) : addrByte (hiNibble b) (loNibble b) = b := by
  revert b; decide +kernel

@[simp] theorem lenOf_bytes (l : Half) : lenOf (lenHi l) (lenLo l) = l := by
  apply BitVec.eq_of_getLsbD_eq
  intro i hi
  simp only [lenOf, lenHi, lenLo, BitVec.getLsbD_append, BitVec.getLsbD_extractLsb']
  interval_cases i <;> simp

@[simp] theorem lenHi_lenOf (h l : Byte) : lenHi (lenOf h l) = h := by
  apply BitVec.eq_of_getLsbD_eq
  intro i hi
  simp only [lenOf, lenHi, BitVec.getLsbD_append, BitVec.getLsbD_extractLsb']
  interval_cases i <;> simp

@[simp] theorem lenLo_lenOf (h l : Byte) : lenLo (lenOf h l) = l := by
  apply BitVec.eq_of_getLsbD_eq
  intro i hi
  simp only [lenOf, lenLo, BitVec.getLsbD_append, BitVec.getLsbD_extractLsb']
  interval_cases i <;> simp

end Sys2Proof.Machine

namespace Sys2Proof

/-- A descriptor that R59 admits, with a side-band list as D13 asks, decodes to its operation's instruction. -/
theorem decodeRequest_of_mask (o : Machine.Op) (q : Descriptor) (data : Option (List Byte))
    (h : Machine.opOfCode (Machine.fieldOp q) = some o)
    (hm : q &&& Machine.opMask o = (Machine.opCode o).setWidth 64)
    (hd : listError o data = none) :
    decodeRequest q data = .ok (requestOf o q (data.getD [])) := by
  simp [decodeRequest, h, hm, hd]

/-- A header unit decodes exactly when it has eight bytes, and then they are those of the fields. -/
theorem decodeHeaderUnit_ok {bs : List Byte} {i : Instr} (h : decodeHeaderUnit bs = .ok i) :
    ∃ m n v c s t l k, i = .header m n v c s t l k ∧ bs = Machine.headerBytes m n v c s t l k := by
  unfold decodeHeaderUnit at h
  split at h
  · cases h; exact ⟨_, _, _, _, _, _, _, _, rfl, by simp [Machine.headerBytes]⟩
  · cases h

/-- A chunk unit decodes exactly when it has 33 bytes: the data, then the checksum. -/
theorem decodeChunkUnit_ok {bs : List Byte} {i : Instr} (h : decodeChunkUnit bs = .ok i) :
    ∃ d k, i = .chunk d k ∧ bs = d ++ [k] ∧ d.length = Machine.chunkData := by
  unfold decodeChunkUnit at h
  split at h
  · rename_i hl
    cases h
    refine ⟨_, _, rfl, ?_, by simp [hl, Machine.chunkData, Machine.chunkLen]⟩
    have h2 : Machine.chunkData < bs.length := by simp [hl, Machine.chunkData, Machine.chunkLen]
    have h3 : bs.take (Machine.chunkData + 1) = bs := List.take_of_length_le (by simp [hl, Machine.chunkData, Machine.chunkLen])
    conv => lhs; rw [← h3, List.take_add_one]
    simp [Machine.byteAt, List.getElem?_eq_getElem h2]
  · cases h

end Sys2Proof
end

