-- ==== Sys2Proof/Laws/Memory.lean ====
section
/-! SUPPORT. The receive buffer: a read after a write, what a write leaves alone, and the canonical form
(spec/20_memory.md R32, R33, R35). -/

namespace Sys2Proof.Machine

/-- A cell after a write of one cell: the value written there, every other cell as before. -/
theorem cellAt_cellSet (m : Memory) (a b : Nat) (v : Byte) :
    cellAt (cellSet m a v) b = if b = a then some v else cellAt m b := by
  induction m with
  | nil => simp [cellSet, cellAt]
  | cons c m ih =>
    obtain ⟨k, w⟩ := c
    unfold cellSet
    split
    · simp [cellAt]
    · split
      · subst_vars; simp only [cellAt]; split <;> simp_all
      · simp only [cellAt, ih]; split <;> split <;> simp_all

@[simp] theorem cellAt_cellSet_self (m : Memory) (a : Nat) (v : Byte) :
    cellAt (cellSet m a v) a = some v := by simp [cellAt_cellSet]

/-- A cell after a block write. -/
theorem cellAt_cellsSet (m : Memory) (off : Nat) (bs : List Byte) (a : Nat) :
    cellAt (cellsSet m off bs) a =
      if off ≤ a ∧ a < off + bs.length then bs[a - off]? else cellAt m a := by
  induction bs generalizing m off with
  | nil => simp [cellsSet]
  | cons b bs ih =>
    simp only [cellsSet, ih, cellAt_cellSet, List.length_cons]
    by_cases h : a = off
    · subst h; simp
    · by_cases h1 : off + 1 ≤ a ∧ a < off + 1 + bs.length
      · have h2 : off ≤ a ∧ a < off + (bs.length + 1) := by omega
        have h3 : a - off = (a - (off + 1)) + 1 := by omega
        simp [h1, h2, h3]
      · have h2 : ¬ (off ≤ a ∧ a < off + (bs.length + 1)) := by omega
        rw [if_neg h1, if_neg h2, if_neg h]

/-- A block write leaves every cell outside the block alone. -/
theorem cellAt_cellsSet_outside (m : Memory) (off : Nat) (bs : List Byte) (a : Nat)
    (h : a < off ∨ off + bs.length ≤ a) : cellAt (cellsSet m off bs) a = cellAt m a := by
  rw [cellAt_cellsSet, if_neg (by omega)]

/-- After a block write every cell of the block is written. -/
theorem cellsSet_written (m : Memory) (off : Nat) (bs : List Byte) (a : Nat)
    (h : off ≤ a ∧ a < off + bs.length) : (cellAt (cellsSet m off bs) a).isSome := by
  rw [cellAt_cellsSet, if_pos h, List.getElem?_eq_getElem (by omega)]
  rfl

/-- The lowest offset of a memory whose form is canonical bounds the others; what `Memory.wf` says of a cons. -/
theorem Memory.wf_cons (a : Nat) (v : Byte) (m : Memory) :
    Memory.wf ((a, v) :: m) = true ↔ (∀ c ∈ m.head?, a < c.1) ∧ Memory.wf m = true := by
  cases m with
  | nil => simp [Memory.wf]
  | cons c m => obtain ⟨b, w⟩ := c; simp [Memory.wf]

/-- Writing a cell keeps the canonical form. -/
theorem cellSet_wf (m : Memory) (a : Nat) (v : Byte) (h : Memory.wf m = true) : Memory.wf (cellSet m a v) = true := by
  suffices hs : Memory.wf (cellSet m a v) = true ∧
      ∀ k, (∀ c ∈ m.head?, k < c.1) → k < a → ∀ c ∈ (cellSet m a v).head?, k < c.1 from hs.1
  induction m with
  | nil => simp [cellSet, Memory.wf]
  | cons c m ih =>
    obtain ⟨b, w⟩ := c
    rw [Memory.wf_cons] at h
    obtain ⟨ihw, ihh⟩ := ih h.2
    unfold cellSet
    split
    · rename_i hlt
      refine ⟨(Memory.wf_cons _ _ _).2 ⟨by simpa using hlt, (Memory.wf_cons _ _ _).2 h⟩, by simp⟩
    · split
      · rename_i hab; subst hab
        exact ⟨(Memory.wf_cons _ _ _).2 h, by simp⟩
      · refine ⟨(Memory.wf_cons _ _ _).2 ⟨ihh b h.1 (by omega), ihw⟩, by simp; omega⟩

/-- Writing a block keeps the canonical form. -/
theorem cellsSet_wf (m : Memory) (off : Nat) (bs : List Byte) (h : Memory.wf m = true) :
    Memory.wf (cellsSet m off bs) = true := by
  induction bs generalizing m off with
  | nil => exact h
  | cons b bs ih => exact ih _ _ (cellSet_wf m off b h)

/-- A block read gives a value exactly when every cell of the block is written. -/
theorem cellsAt_isSome (m : Memory) (off n : Nat) :
    (cellsAt m off n).isSome ↔ ∀ a, off ≤ a → a < off + n → (cellAt m a).isSome := by
  induction n generalizing off with
  | zero => simp only [cellsAt, Option.isSome_some, true_iff]; omega
  | succ n ih =>
    constructor
    · intro h a h1 h2
      simp only [cellsAt] at h
      split at h
      · rename_i b bs hb hbs
        by_cases ha : a = off
        · subst ha; simp [hb]
        · exact (ih (off + 1)).1 (by simp [hbs]) a (by omega) (by omega)
      · simp at h
    · intro h
      obtain ⟨b, hb⟩ := Option.isSome_iff_exists.1 (h off (by omega) (by omega))
      obtain ⟨bs, hbs⟩ := Option.isSome_iff_exists.1
        ((ih (off + 1)).2 fun a h1 h2 => h a (by omega) (by omega))
      simp [cellsAt, hb, hbs]

/-- A block read has the length asked for. -/
theorem cellsAt_length (m : Memory) (off n : Nat) (bs : List Byte) (h : cellsAt m off n = some bs) :
    bs.length = n := by
  induction n generalizing off bs with
  | zero => simp only [cellsAt, Option.some.injEq] at h; simp [← h]
  | succ n ih =>
    simp only [cellsAt] at h
    split at h
    · rename_i b bs' _ hbs
      cases h
      simp [ih _ _ hbs]
    · simp at h

end Sys2Proof.Machine
end

