-- ==== Sys2Proof/Laws/State.lean ====
section
/-! SUPPORT. The fields of a state after each named update: one lemma per field and update, true by definition. -/

namespace Sys2Proof.Machine

variable (s : State)

/-! ### `log` -/

@[simp] theorem log_cfg (evs : List Event) : (log evs s).cfg = s.cfg := rfl
@[simp] theorem log_fsm (evs : List Event) : (log evs s).fsm = s.fsm := rfl
@[simp] theorem log_ownId (evs : List Event) : (log evs s).ownId = s.ownId := rfl
@[simp] theorem log_idLocked (evs : List Event) : (log evs s).idLocked = s.idLocked := rfl
@[simp] theorem log_handler (evs : List Event) : (log evs s).handler = s.handler := rfl
@[simp] theorem log_diagEn (evs : List Event) : (log evs s).diagEn = s.diagEn := rfl
@[simp] theorem log_origin (evs : List Event) : (log evs s).origin = s.origin := rfl
@[simp] theorem log_txCmd (evs : List Event) : (log evs s).txCmd = s.txCmd := rfl
@[simp] theorem log_txSrc (evs : List Event) : (log evs s).txSrc = s.txSrc := rfl
@[simp] theorem log_txDst (evs : List Event) : (log evs s).txDst = s.txDst := rfl
@[simp] theorem log_txLen (evs : List Event) : (log evs s).txLen = s.txLen := rfl
@[simp] theorem log_txPayload (evs : List Event) : (log evs s).txPayload = s.txPayload := rfl
@[simp] theorem log_hdrReg (evs : List Event) : (log evs s).hdrReg = s.hdrReg := rfl
@[simp] theorem log_chkReg (evs : List Event) : (log evs s).chkReg = s.chkReg := rfl
@[simp] theorem log_rxCmd (evs : List Event) : (log evs s).rxCmd = s.rxCmd := rfl
@[simp] theorem log_rxSrc (evs : List Event) : (log evs s).rxSrc = s.rxSrc := rfl
@[simp] theorem log_rxLen (evs : List Event) : (log evs s).rxLen = s.rxLen := rfl
@[simp] theorem log_nChunks (evs : List Event) : (log evs s).nChunks = s.nChunks := rfl
@[simp] theorem log_chunkIdx (evs : List Event) : (log evs s).chunkIdx = s.chunkIdx := rfl
@[simp] theorem log_ackUnit (evs : List Event) : (log evs s).ackUnit = s.ackUnit := rfl
@[simp] theorem log_ackAttempts (evs : List Event) : (log evs s).ackAttempts = s.ackAttempts := rfl
@[simp] theorem log_rxBuf (evs : List Event) : (log evs s).rxBuf = s.rxBuf := rfl
@[simp] theorem log_resp (evs : List Event) : (log evs s).resp = s.resp := rfl
@[simp] theorem log_mark (evs : List Event) : (log evs s).mark = s.mark := rfl
@[simp] theorem log_hist (evs : List Event) : (log evs s).hist = s.hist ++ evs := rfl
@[simp] theorem log_env (evs : List Event) : (log evs s).env = s.env := rfl

/-! ### `goTo` -/

@[simp] theorem goTo_cfg (f : Fsm) : (goTo f s).cfg = s.cfg := rfl
@[simp] theorem goTo_fsm (f : Fsm) : (goTo f s).fsm = f := rfl
@[simp] theorem goTo_ownId (f : Fsm) : (goTo f s).ownId = s.ownId := rfl
@[simp] theorem goTo_idLocked (f : Fsm) : (goTo f s).idLocked = s.idLocked := rfl
@[simp] theorem goTo_handler (f : Fsm) : (goTo f s).handler = s.handler := rfl
@[simp] theorem goTo_diagEn (f : Fsm) : (goTo f s).diagEn = s.diagEn := rfl
@[simp] theorem goTo_origin (f : Fsm) : (goTo f s).origin = s.origin := rfl
@[simp] theorem goTo_txCmd (f : Fsm) : (goTo f s).txCmd = s.txCmd := rfl
@[simp] theorem goTo_txSrc (f : Fsm) : (goTo f s).txSrc = s.txSrc := rfl
@[simp] theorem goTo_txDst (f : Fsm) : (goTo f s).txDst = s.txDst := rfl
@[simp] theorem goTo_txLen (f : Fsm) : (goTo f s).txLen = s.txLen := rfl
@[simp] theorem goTo_txPayload (f : Fsm) : (goTo f s).txPayload = s.txPayload := rfl
@[simp] theorem goTo_hdrReg (f : Fsm) : (goTo f s).hdrReg = s.hdrReg := rfl
@[simp] theorem goTo_chkReg (f : Fsm) : (goTo f s).chkReg = s.chkReg := rfl
@[simp] theorem goTo_rxCmd (f : Fsm) : (goTo f s).rxCmd = s.rxCmd := rfl
@[simp] theorem goTo_rxSrc (f : Fsm) : (goTo f s).rxSrc = s.rxSrc := rfl
@[simp] theorem goTo_rxLen (f : Fsm) : (goTo f s).rxLen = s.rxLen := rfl
@[simp] theorem goTo_nChunks (f : Fsm) : (goTo f s).nChunks = s.nChunks := rfl
@[simp] theorem goTo_chunkIdx (f : Fsm) : (goTo f s).chunkIdx = s.chunkIdx := rfl
@[simp] theorem goTo_ackUnit (f : Fsm) : (goTo f s).ackUnit = s.ackUnit := rfl
@[simp] theorem goTo_ackAttempts (f : Fsm) : (goTo f s).ackAttempts = s.ackAttempts := rfl
@[simp] theorem goTo_rxBuf (f : Fsm) : (goTo f s).rxBuf = s.rxBuf := rfl
@[simp] theorem goTo_resp (f : Fsm) : (goTo f s).resp = s.resp := rfl
@[simp] theorem goTo_mark (f : Fsm) : (goTo f s).mark = s.mark := rfl
@[simp] theorem goTo_hist (f : Fsm) : (goTo f s).hist = s.hist := rfl
@[simp] theorem goTo_env (f : Fsm) : (goTo f s).env = s.env := rfl

/-! ### `setHost` -/

@[simp] theorem setHost_cfg (x : List HostInput) : (setHost x s).cfg = s.cfg := rfl
@[simp] theorem setHost_fsm (x : List HostInput) : (setHost x s).fsm = s.fsm := rfl
@[simp] theorem setHost_ownId (x : List HostInput) : (setHost x s).ownId = s.ownId := rfl
@[simp] theorem setHost_idLocked (x : List HostInput) : (setHost x s).idLocked = s.idLocked := rfl
@[simp] theorem setHost_handler (x : List HostInput) : (setHost x s).handler = s.handler := rfl
@[simp] theorem setHost_diagEn (x : List HostInput) : (setHost x s).diagEn = s.diagEn := rfl
@[simp] theorem setHost_origin (x : List HostInput) : (setHost x s).origin = s.origin := rfl
@[simp] theorem setHost_txCmd (x : List HostInput) : (setHost x s).txCmd = s.txCmd := rfl
@[simp] theorem setHost_txSrc (x : List HostInput) : (setHost x s).txSrc = s.txSrc := rfl
@[simp] theorem setHost_txDst (x : List HostInput) : (setHost x s).txDst = s.txDst := rfl
@[simp] theorem setHost_txLen (x : List HostInput) : (setHost x s).txLen = s.txLen := rfl
@[simp] theorem setHost_txPayload (x : List HostInput) : (setHost x s).txPayload = s.txPayload := rfl
@[simp] theorem setHost_hdrReg (x : List HostInput) : (setHost x s).hdrReg = s.hdrReg := rfl
@[simp] theorem setHost_chkReg (x : List HostInput) : (setHost x s).chkReg = s.chkReg := rfl
@[simp] theorem setHost_rxCmd (x : List HostInput) : (setHost x s).rxCmd = s.rxCmd := rfl
@[simp] theorem setHost_rxSrc (x : List HostInput) : (setHost x s).rxSrc = s.rxSrc := rfl
@[simp] theorem setHost_rxLen (x : List HostInput) : (setHost x s).rxLen = s.rxLen := rfl
@[simp] theorem setHost_nChunks (x : List HostInput) : (setHost x s).nChunks = s.nChunks := rfl
@[simp] theorem setHost_chunkIdx (x : List HostInput) : (setHost x s).chunkIdx = s.chunkIdx := rfl
@[simp] theorem setHost_ackUnit (x : List HostInput) : (setHost x s).ackUnit = s.ackUnit := rfl
@[simp] theorem setHost_ackAttempts (x : List HostInput) : (setHost x s).ackAttempts = s.ackAttempts := rfl
@[simp] theorem setHost_rxBuf (x : List HostInput) : (setHost x s).rxBuf = s.rxBuf := rfl
@[simp] theorem setHost_resp (x : List HostInput) : (setHost x s).resp = s.resp := rfl
@[simp] theorem setHost_mark (x : List HostInput) : (setHost x s).mark = s.mark := rfl
@[simp] theorem setHost_hist (x : List HostInput) : (setHost x s).hist = s.hist := rfl
@[simp] theorem setHost_env (x : List HostInput) : (setHost x s).env = { s.env with host := x } := rfl

/-! ### `setAvails` -/

@[simp] theorem setAvails_cfg (x : List Nat) : (setAvails x s).cfg = s.cfg := rfl
@[simp] theorem setAvails_fsm (x : List Nat) : (setAvails x s).fsm = s.fsm := rfl
@[simp] theorem setAvails_ownId (x : List Nat) : (setAvails x s).ownId = s.ownId := rfl
@[simp] theorem setAvails_idLocked (x : List Nat) : (setAvails x s).idLocked = s.idLocked := rfl
@[simp] theorem setAvails_handler (x : List Nat) : (setAvails x s).handler = s.handler := rfl
@[simp] theorem setAvails_diagEn (x : List Nat) : (setAvails x s).diagEn = s.diagEn := rfl
@[simp] theorem setAvails_origin (x : List Nat) : (setAvails x s).origin = s.origin := rfl
@[simp] theorem setAvails_txCmd (x : List Nat) : (setAvails x s).txCmd = s.txCmd := rfl
@[simp] theorem setAvails_txSrc (x : List Nat) : (setAvails x s).txSrc = s.txSrc := rfl
@[simp] theorem setAvails_txDst (x : List Nat) : (setAvails x s).txDst = s.txDst := rfl
@[simp] theorem setAvails_txLen (x : List Nat) : (setAvails x s).txLen = s.txLen := rfl
@[simp] theorem setAvails_txPayload (x : List Nat) : (setAvails x s).txPayload = s.txPayload := rfl
@[simp] theorem setAvails_hdrReg (x : List Nat) : (setAvails x s).hdrReg = s.hdrReg := rfl
@[simp] theorem setAvails_chkReg (x : List Nat) : (setAvails x s).chkReg = s.chkReg := rfl
@[simp] theorem setAvails_rxCmd (x : List Nat) : (setAvails x s).rxCmd = s.rxCmd := rfl
@[simp] theorem setAvails_rxSrc (x : List Nat) : (setAvails x s).rxSrc = s.rxSrc := rfl
@[simp] theorem setAvails_rxLen (x : List Nat) : (setAvails x s).rxLen = s.rxLen := rfl
@[simp] theorem setAvails_nChunks (x : List Nat) : (setAvails x s).nChunks = s.nChunks := rfl
@[simp] theorem setAvails_chunkIdx (x : List Nat) : (setAvails x s).chunkIdx = s.chunkIdx := rfl
@[simp] theorem setAvails_ackUnit (x : List Nat) : (setAvails x s).ackUnit = s.ackUnit := rfl
@[simp] theorem setAvails_ackAttempts (x : List Nat) : (setAvails x s).ackAttempts = s.ackAttempts := rfl
@[simp] theorem setAvails_rxBuf (x : List Nat) : (setAvails x s).rxBuf = s.rxBuf := rfl
@[simp] theorem setAvails_resp (x : List Nat) : (setAvails x s).resp = s.resp := rfl
@[simp] theorem setAvails_mark (x : List Nat) : (setAvails x s).mark = s.mark := rfl
@[simp] theorem setAvails_hist (x : List Nat) : (setAvails x s).hist = s.hist := rfl
@[simp] theorem setAvails_env (x : List Nat) : (setAvails x s).env = { s.env with avails := x } := rfl

/-! ### `setReads` -/

@[simp] theorem setReads_cfg (x : List (List Byte)) : (setReads x s).cfg = s.cfg := rfl
@[simp] theorem setReads_fsm (x : List (List Byte)) : (setReads x s).fsm = s.fsm := rfl
@[simp] theorem setReads_ownId (x : List (List Byte)) : (setReads x s).ownId = s.ownId := rfl
@[simp] theorem setReads_idLocked (x : List (List Byte)) : (setReads x s).idLocked = s.idLocked := rfl
@[simp] theorem setReads_handler (x : List (List Byte)) : (setReads x s).handler = s.handler := rfl
@[simp] theorem setReads_diagEn (x : List (List Byte)) : (setReads x s).diagEn = s.diagEn := rfl
@[simp] theorem setReads_origin (x : List (List Byte)) : (setReads x s).origin = s.origin := rfl
@[simp] theorem setReads_txCmd (x : List (List Byte)) : (setReads x s).txCmd = s.txCmd := rfl
@[simp] theorem setReads_txSrc (x : List (List Byte)) : (setReads x s).txSrc = s.txSrc := rfl
@[simp] theorem setReads_txDst (x : List (List Byte)) : (setReads x s).txDst = s.txDst := rfl
@[simp] theorem setReads_txLen (x : List (List Byte)) : (setReads x s).txLen = s.txLen := rfl
@[simp] theorem setReads_txPayload (x : List (List Byte)) : (setReads x s).txPayload = s.txPayload := rfl
@[simp] theorem setReads_hdrReg (x : List (List Byte)) : (setReads x s).hdrReg = s.hdrReg := rfl
@[simp] theorem setReads_chkReg (x : List (List Byte)) : (setReads x s).chkReg = s.chkReg := rfl
@[simp] theorem setReads_rxCmd (x : List (List Byte)) : (setReads x s).rxCmd = s.rxCmd := rfl
@[simp] theorem setReads_rxSrc (x : List (List Byte)) : (setReads x s).rxSrc = s.rxSrc := rfl
@[simp] theorem setReads_rxLen (x : List (List Byte)) : (setReads x s).rxLen = s.rxLen := rfl
@[simp] theorem setReads_nChunks (x : List (List Byte)) : (setReads x s).nChunks = s.nChunks := rfl
@[simp] theorem setReads_chunkIdx (x : List (List Byte)) : (setReads x s).chunkIdx = s.chunkIdx := rfl
@[simp] theorem setReads_ackUnit (x : List (List Byte)) : (setReads x s).ackUnit = s.ackUnit := rfl
@[simp] theorem setReads_ackAttempts (x : List (List Byte)) : (setReads x s).ackAttempts = s.ackAttempts := rfl
@[simp] theorem setReads_rxBuf (x : List (List Byte)) : (setReads x s).rxBuf = s.rxBuf := rfl
@[simp] theorem setReads_resp (x : List (List Byte)) : (setReads x s).resp = s.resp := rfl
@[simp] theorem setReads_mark (x : List (List Byte)) : (setReads x s).mark = s.mark := rfl
@[simp] theorem setReads_hist (x : List (List Byte)) : (setReads x s).hist = s.hist := rfl
@[simp] theorem setReads_env (x : List (List Byte)) : (setReads x s).env = { s.env with reads := x } := rfl

/-! ### `setBytes` -/

@[simp] theorem setBytes_cfg (x : List Byte) : (setBytes x s).cfg = s.cfg := rfl
@[simp] theorem setBytes_fsm (x : List Byte) : (setBytes x s).fsm = s.fsm := rfl
@[simp] theorem setBytes_ownId (x : List Byte) : (setBytes x s).ownId = s.ownId := rfl
@[simp] theorem setBytes_idLocked (x : List Byte) : (setBytes x s).idLocked = s.idLocked := rfl
@[simp] theorem setBytes_handler (x : List Byte) : (setBytes x s).handler = s.handler := rfl
@[simp] theorem setBytes_diagEn (x : List Byte) : (setBytes x s).diagEn = s.diagEn := rfl
@[simp] theorem setBytes_origin (x : List Byte) : (setBytes x s).origin = s.origin := rfl
@[simp] theorem setBytes_txCmd (x : List Byte) : (setBytes x s).txCmd = s.txCmd := rfl
@[simp] theorem setBytes_txSrc (x : List Byte) : (setBytes x s).txSrc = s.txSrc := rfl
@[simp] theorem setBytes_txDst (x : List Byte) : (setBytes x s).txDst = s.txDst := rfl
@[simp] theorem setBytes_txLen (x : List Byte) : (setBytes x s).txLen = s.txLen := rfl
@[simp] theorem setBytes_txPayload (x : List Byte) : (setBytes x s).txPayload = s.txPayload := rfl
@[simp] theorem setBytes_hdrReg (x : List Byte) : (setBytes x s).hdrReg = s.hdrReg := rfl
@[simp] theorem setBytes_chkReg (x : List Byte) : (setBytes x s).chkReg = s.chkReg := rfl
@[simp] theorem setBytes_rxCmd (x : List Byte) : (setBytes x s).rxCmd = s.rxCmd := rfl
@[simp] theorem setBytes_rxSrc (x : List Byte) : (setBytes x s).rxSrc = s.rxSrc := rfl
@[simp] theorem setBytes_rxLen (x : List Byte) : (setBytes x s).rxLen = s.rxLen := rfl
@[simp] theorem setBytes_nChunks (x : List Byte) : (setBytes x s).nChunks = s.nChunks := rfl
@[simp] theorem setBytes_chunkIdx (x : List Byte) : (setBytes x s).chunkIdx = s.chunkIdx := rfl
@[simp] theorem setBytes_ackUnit (x : List Byte) : (setBytes x s).ackUnit = s.ackUnit := rfl
@[simp] theorem setBytes_ackAttempts (x : List Byte) : (setBytes x s).ackAttempts = s.ackAttempts := rfl
@[simp] theorem setBytes_rxBuf (x : List Byte) : (setBytes x s).rxBuf = s.rxBuf := rfl
@[simp] theorem setBytes_resp (x : List Byte) : (setBytes x s).resp = s.resp := rfl
@[simp] theorem setBytes_mark (x : List Byte) : (setBytes x s).mark = s.mark := rfl
@[simp] theorem setBytes_hist (x : List Byte) : (setBytes x s).hist = s.hist := rfl
@[simp] theorem setBytes_env (x : List Byte) : (setBytes x s).env = { s.env with bytes := x } := rfl

/-! ### `setTicks` -/

@[simp] theorem setTicks_cfg (x : Nat) : (setTicks x s).cfg = s.cfg := rfl
@[simp] theorem setTicks_fsm (x : Nat) : (setTicks x s).fsm = s.fsm := rfl
@[simp] theorem setTicks_ownId (x : Nat) : (setTicks x s).ownId = s.ownId := rfl
@[simp] theorem setTicks_idLocked (x : Nat) : (setTicks x s).idLocked = s.idLocked := rfl
@[simp] theorem setTicks_handler (x : Nat) : (setTicks x s).handler = s.handler := rfl
@[simp] theorem setTicks_diagEn (x : Nat) : (setTicks x s).diagEn = s.diagEn := rfl
@[simp] theorem setTicks_origin (x : Nat) : (setTicks x s).origin = s.origin := rfl
@[simp] theorem setTicks_txCmd (x : Nat) : (setTicks x s).txCmd = s.txCmd := rfl
@[simp] theorem setTicks_txSrc (x : Nat) : (setTicks x s).txSrc = s.txSrc := rfl
@[simp] theorem setTicks_txDst (x : Nat) : (setTicks x s).txDst = s.txDst := rfl
@[simp] theorem setTicks_txLen (x : Nat) : (setTicks x s).txLen = s.txLen := rfl
@[simp] theorem setTicks_txPayload (x : Nat) : (setTicks x s).txPayload = s.txPayload := rfl
@[simp] theorem setTicks_hdrReg (x : Nat) : (setTicks x s).hdrReg = s.hdrReg := rfl
@[simp] theorem setTicks_chkReg (x : Nat) : (setTicks x s).chkReg = s.chkReg := rfl
@[simp] theorem setTicks_rxCmd (x : Nat) : (setTicks x s).rxCmd = s.rxCmd := rfl
@[simp] theorem setTicks_rxSrc (x : Nat) : (setTicks x s).rxSrc = s.rxSrc := rfl
@[simp] theorem setTicks_rxLen (x : Nat) : (setTicks x s).rxLen = s.rxLen := rfl
@[simp] theorem setTicks_nChunks (x : Nat) : (setTicks x s).nChunks = s.nChunks := rfl
@[simp] theorem setTicks_chunkIdx (x : Nat) : (setTicks x s).chunkIdx = s.chunkIdx := rfl
@[simp] theorem setTicks_ackUnit (x : Nat) : (setTicks x s).ackUnit = s.ackUnit := rfl
@[simp] theorem setTicks_ackAttempts (x : Nat) : (setTicks x s).ackAttempts = s.ackAttempts := rfl
@[simp] theorem setTicks_rxBuf (x : Nat) : (setTicks x s).rxBuf = s.rxBuf := rfl
@[simp] theorem setTicks_resp (x : Nat) : (setTicks x s).resp = s.resp := rfl
@[simp] theorem setTicks_mark (x : Nat) : (setTicks x s).mark = s.mark := rfl
@[simp] theorem setTicks_hist (x : Nat) : (setTicks x s).hist = s.hist := rfl
@[simp] theorem setTicks_env (x : Nat) : (setTicks x s).env = { s.env with ticks := x } := rfl

/-! ### `setActs` -/

@[simp] theorem setActs_cfg (x : List (Nat × Act)) : (setActs x s).cfg = s.cfg := rfl
@[simp] theorem setActs_fsm (x : List (Nat × Act)) : (setActs x s).fsm = s.fsm := rfl
@[simp] theorem setActs_ownId (x : List (Nat × Act)) : (setActs x s).ownId = s.ownId := rfl
@[simp] theorem setActs_idLocked (x : List (Nat × Act)) : (setActs x s).idLocked = s.idLocked := rfl
@[simp] theorem setActs_handler (x : List (Nat × Act)) : (setActs x s).handler = s.handler := rfl
@[simp] theorem setActs_diagEn (x : List (Nat × Act)) : (setActs x s).diagEn = s.diagEn := rfl
@[simp] theorem setActs_origin (x : List (Nat × Act)) : (setActs x s).origin = s.origin := rfl
@[simp] theorem setActs_txCmd (x : List (Nat × Act)) : (setActs x s).txCmd = s.txCmd := rfl
@[simp] theorem setActs_txSrc (x : List (Nat × Act)) : (setActs x s).txSrc = s.txSrc := rfl
@[simp] theorem setActs_txDst (x : List (Nat × Act)) : (setActs x s).txDst = s.txDst := rfl
@[simp] theorem setActs_txLen (x : List (Nat × Act)) : (setActs x s).txLen = s.txLen := rfl
@[simp] theorem setActs_txPayload (x : List (Nat × Act)) : (setActs x s).txPayload = s.txPayload := rfl
@[simp] theorem setActs_hdrReg (x : List (Nat × Act)) : (setActs x s).hdrReg = s.hdrReg := rfl
@[simp] theorem setActs_chkReg (x : List (Nat × Act)) : (setActs x s).chkReg = s.chkReg := rfl
@[simp] theorem setActs_rxCmd (x : List (Nat × Act)) : (setActs x s).rxCmd = s.rxCmd := rfl
@[simp] theorem setActs_rxSrc (x : List (Nat × Act)) : (setActs x s).rxSrc = s.rxSrc := rfl
@[simp] theorem setActs_rxLen (x : List (Nat × Act)) : (setActs x s).rxLen = s.rxLen := rfl
@[simp] theorem setActs_nChunks (x : List (Nat × Act)) : (setActs x s).nChunks = s.nChunks := rfl
@[simp] theorem setActs_chunkIdx (x : List (Nat × Act)) : (setActs x s).chunkIdx = s.chunkIdx := rfl
@[simp] theorem setActs_ackUnit (x : List (Nat × Act)) : (setActs x s).ackUnit = s.ackUnit := rfl
@[simp] theorem setActs_ackAttempts (x : List (Nat × Act)) : (setActs x s).ackAttempts = s.ackAttempts := rfl
@[simp] theorem setActs_rxBuf (x : List (Nat × Act)) : (setActs x s).rxBuf = s.rxBuf := rfl
@[simp] theorem setActs_resp (x : List (Nat × Act)) : (setActs x s).resp = s.resp := rfl
@[simp] theorem setActs_mark (x : List (Nat × Act)) : (setActs x s).mark = s.mark := rfl
@[simp] theorem setActs_hist (x : List (Nat × Act)) : (setActs x s).hist = s.hist := rfl
@[simp] theorem setActs_env (x : List (Nat × Act)) : (setActs x s).env = { s.env with acts := x } := rfl

/-! ### `marked` -/

@[simp] theorem marked_cfg (m : Mark) : (marked m s).cfg = s.cfg := rfl
@[simp] theorem marked_fsm (m : Mark) : (marked m s).fsm = s.fsm := rfl
@[simp] theorem marked_ownId (m : Mark) : (marked m s).ownId = s.ownId := rfl
@[simp] theorem marked_idLocked (m : Mark) : (marked m s).idLocked = s.idLocked := rfl
@[simp] theorem marked_handler (m : Mark) : (marked m s).handler = s.handler := rfl
@[simp] theorem marked_diagEn (m : Mark) : (marked m s).diagEn = s.diagEn := rfl
@[simp] theorem marked_origin (m : Mark) : (marked m s).origin = s.origin := rfl
@[simp] theorem marked_txCmd (m : Mark) : (marked m s).txCmd = s.txCmd := rfl
@[simp] theorem marked_txSrc (m : Mark) : (marked m s).txSrc = s.txSrc := rfl
@[simp] theorem marked_txDst (m : Mark) : (marked m s).txDst = s.txDst := rfl
@[simp] theorem marked_txLen (m : Mark) : (marked m s).txLen = s.txLen := rfl
@[simp] theorem marked_txPayload (m : Mark) : (marked m s).txPayload = s.txPayload := rfl
@[simp] theorem marked_hdrReg (m : Mark) : (marked m s).hdrReg = s.hdrReg := rfl
@[simp] theorem marked_chkReg (m : Mark) : (marked m s).chkReg = s.chkReg := rfl
@[simp] theorem marked_rxCmd (m : Mark) : (marked m s).rxCmd = s.rxCmd := rfl
@[simp] theorem marked_rxSrc (m : Mark) : (marked m s).rxSrc = s.rxSrc := rfl
@[simp] theorem marked_rxLen (m : Mark) : (marked m s).rxLen = s.rxLen := rfl
@[simp] theorem marked_nChunks (m : Mark) : (marked m s).nChunks = s.nChunks := rfl
@[simp] theorem marked_chunkIdx (m : Mark) : (marked m s).chunkIdx = s.chunkIdx := rfl
@[simp] theorem marked_ackUnit (m : Mark) : (marked m s).ackUnit = s.ackUnit := rfl
@[simp] theorem marked_ackAttempts (m : Mark) : (marked m s).ackAttempts = s.ackAttempts := rfl
@[simp] theorem marked_rxBuf (m : Mark) : (marked m s).rxBuf = s.rxBuf := rfl
@[simp] theorem marked_resp (m : Mark) : (marked m s).resp = s.resp := rfl
@[simp] theorem marked_mark (m : Mark) : (marked m s).mark = some m := rfl
@[simp] theorem marked_hist (m : Mark) : (marked m s).hist = s.hist := rfl
@[simp] theorem marked_env (m : Mark) : (marked m s).env = s.env := rfl

/-! ### `setOrigin` -/

@[simp] theorem setOrigin_cfg (o : Origin) : (setOrigin o s).cfg = s.cfg := rfl
@[simp] theorem setOrigin_fsm (o : Origin) : (setOrigin o s).fsm = s.fsm := rfl
@[simp] theorem setOrigin_ownId (o : Origin) : (setOrigin o s).ownId = s.ownId := rfl
@[simp] theorem setOrigin_idLocked (o : Origin) : (setOrigin o s).idLocked = s.idLocked := rfl
@[simp] theorem setOrigin_handler (o : Origin) : (setOrigin o s).handler = s.handler := rfl
@[simp] theorem setOrigin_diagEn (o : Origin) : (setOrigin o s).diagEn = s.diagEn := rfl
@[simp] theorem setOrigin_origin (o : Origin) : (setOrigin o s).origin = some o := rfl
@[simp] theorem setOrigin_txCmd (o : Origin) : (setOrigin o s).txCmd = s.txCmd := rfl
@[simp] theorem setOrigin_txSrc (o : Origin) : (setOrigin o s).txSrc = s.txSrc := rfl
@[simp] theorem setOrigin_txDst (o : Origin) : (setOrigin o s).txDst = s.txDst := rfl
@[simp] theorem setOrigin_txLen (o : Origin) : (setOrigin o s).txLen = s.txLen := rfl
@[simp] theorem setOrigin_txPayload (o : Origin) : (setOrigin o s).txPayload = s.txPayload := rfl
@[simp] theorem setOrigin_hdrReg (o : Origin) : (setOrigin o s).hdrReg = s.hdrReg := rfl
@[simp] theorem setOrigin_chkReg (o : Origin) : (setOrigin o s).chkReg = s.chkReg := rfl
@[simp] theorem setOrigin_rxCmd (o : Origin) : (setOrigin o s).rxCmd = s.rxCmd := rfl
@[simp] theorem setOrigin_rxSrc (o : Origin) : (setOrigin o s).rxSrc = s.rxSrc := rfl
@[simp] theorem setOrigin_rxLen (o : Origin) : (setOrigin o s).rxLen = s.rxLen := rfl
@[simp] theorem setOrigin_nChunks (o : Origin) : (setOrigin o s).nChunks = s.nChunks := rfl
@[simp] theorem setOrigin_chunkIdx (o : Origin) : (setOrigin o s).chunkIdx = s.chunkIdx := rfl
@[simp] theorem setOrigin_ackUnit (o : Origin) : (setOrigin o s).ackUnit = s.ackUnit := rfl
@[simp] theorem setOrigin_ackAttempts (o : Origin) : (setOrigin o s).ackAttempts = s.ackAttempts := rfl
@[simp] theorem setOrigin_rxBuf (o : Origin) : (setOrigin o s).rxBuf = s.rxBuf := rfl
@[simp] theorem setOrigin_resp (o : Origin) : (setOrigin o s).resp = s.resp := rfl
@[simp] theorem setOrigin_mark (o : Origin) : (setOrigin o s).mark = s.mark := rfl
@[simp] theorem setOrigin_hist (o : Origin) : (setOrigin o s).hist = s.hist := rfl
@[simp] theorem setOrigin_env (o : Origin) : (setOrigin o s).env = s.env := rfl

/-! ### `latchSend` -/

@[simp] theorem latchSend_cfg (c : Byte) (a b : Nibble) (l : Half) (p h : List Byte) (n : BitVec 4) : (latchSend c a b l p h n s).cfg = s.cfg := rfl
@[simp] theorem latchSend_fsm (c : Byte) (a b : Nibble) (l : Half) (p h : List Byte) (n : BitVec 4) : (latchSend c a b l p h n s).fsm = s.fsm := rfl
@[simp] theorem latchSend_ownId (c : Byte) (a b : Nibble) (l : Half) (p h : List Byte) (n : BitVec 4) : (latchSend c a b l p h n s).ownId = s.ownId := rfl
@[simp] theorem latchSend_idLocked (c : Byte) (a b : Nibble) (l : Half) (p h : List Byte) (n : BitVec 4) : (latchSend c a b l p h n s).idLocked = s.idLocked := rfl
@[simp] theorem latchSend_handler (c : Byte) (a b : Nibble) (l : Half) (p h : List Byte) (n : BitVec 4) : (latchSend c a b l p h n s).handler = s.handler := rfl
@[simp] theorem latchSend_diagEn (c : Byte) (a b : Nibble) (l : Half) (p h : List Byte) (n : BitVec 4) : (latchSend c a b l p h n s).diagEn = s.diagEn := rfl
@[simp] theorem latchSend_origin (c : Byte) (a b : Nibble) (l : Half) (p h : List Byte) (n : BitVec 4) : (latchSend c a b l p h n s).origin = some .send := rfl
@[simp] theorem latchSend_txCmd (c : Byte) (a b : Nibble) (l : Half) (p h : List Byte) (n : BitVec 4) : (latchSend c a b l p h n s).txCmd = some c := rfl
@[simp] theorem latchSend_txSrc (c : Byte) (a b : Nibble) (l : Half) (p h : List Byte) (n : BitVec 4) : (latchSend c a b l p h n s).txSrc = some a := rfl
@[simp] theorem latchSend_txDst (c : Byte) (a b : Nibble) (l : Half) (p h : List Byte) (n : BitVec 4) : (latchSend c a b l p h n s).txDst = some b := rfl
@[simp] theorem latchSend_txLen (c : Byte) (a b : Nibble) (l : Half) (p h : List Byte) (n : BitVec 4) : (latchSend c a b l p h n s).txLen = some l := rfl
@[simp] theorem latchSend_txPayload (c : Byte) (a b : Nibble) (l : Half) (p h : List Byte) (n : BitVec 4) : (latchSend c a b l p h n s).txPayload = some p := rfl
@[simp] theorem latchSend_hdrReg (c : Byte) (a b : Nibble) (l : Half) (p h : List Byte) (n : BitVec 4) : (latchSend c a b l p h n s).hdrReg = some h := rfl
@[simp] theorem latchSend_chkReg (c : Byte) (a b : Nibble) (l : Half) (p h : List Byte) (n : BitVec 4) : (latchSend c a b l p h n s).chkReg = s.chkReg := rfl
@[simp] theorem latchSend_rxCmd (c : Byte) (a b : Nibble) (l : Half) (p h : List Byte) (n : BitVec 4) : (latchSend c a b l p h n s).rxCmd = s.rxCmd := rfl
@[simp] theorem latchSend_rxSrc (c : Byte) (a b : Nibble) (l : Half) (p h : List Byte) (n : BitVec 4) : (latchSend c a b l p h n s).rxSrc = s.rxSrc := rfl
@[simp] theorem latchSend_rxLen (c : Byte) (a b : Nibble) (l : Half) (p h : List Byte) (n : BitVec 4) : (latchSend c a b l p h n s).rxLen = s.rxLen := rfl
@[simp] theorem latchSend_nChunks (c : Byte) (a b : Nibble) (l : Half) (p h : List Byte) (n : BitVec 4) : (latchSend c a b l p h n s).nChunks = some n := rfl
@[simp] theorem latchSend_chunkIdx (c : Byte) (a b : Nibble) (l : Half) (p h : List Byte) (n : BitVec 4) : (latchSend c a b l p h n s).chunkIdx = some 0 := rfl
@[simp] theorem latchSend_ackUnit (c : Byte) (a b : Nibble) (l : Half) (p h : List Byte) (n : BitVec 4) : (latchSend c a b l p h n s).ackUnit = s.ackUnit := rfl
@[simp] theorem latchSend_ackAttempts (c : Byte) (a b : Nibble) (l : Half) (p h : List Byte) (n : BitVec 4) : (latchSend c a b l p h n s).ackAttempts = s.ackAttempts := rfl
@[simp] theorem latchSend_rxBuf (c : Byte) (a b : Nibble) (l : Half) (p h : List Byte) (n : BitVec 4) : (latchSend c a b l p h n s).rxBuf = s.rxBuf := rfl
@[simp] theorem latchSend_resp (c : Byte) (a b : Nibble) (l : Half) (p h : List Byte) (n : BitVec 4) : (latchSend c a b l p h n s).resp = s.resp := rfl
@[simp] theorem latchSend_mark (c : Byte) (a b : Nibble) (l : Half) (p h : List Byte) (n : BitVec 4) : (latchSend c a b l p h n s).mark = s.mark := rfl
@[simp] theorem latchSend_hist (c : Byte) (a b : Nibble) (l : Half) (p h : List Byte) (n : BitVec 4) : (latchSend c a b l p h n s).hist = s.hist := rfl
@[simp] theorem latchSend_env (c : Byte) (a b : Nibble) (l : Half) (p h : List Byte) (n : BitVec 4) : (latchSend c a b l p h n s).env = s.env := rfl

/-! ### `setChkReg` -/

@[simp] theorem setChkReg_cfg (c : List Byte) : (setChkReg c s).cfg = s.cfg := rfl
@[simp] theorem setChkReg_fsm (c : List Byte) : (setChkReg c s).fsm = s.fsm := rfl
@[simp] theorem setChkReg_ownId (c : List Byte) : (setChkReg c s).ownId = s.ownId := rfl
@[simp] theorem setChkReg_idLocked (c : List Byte) : (setChkReg c s).idLocked = s.idLocked := rfl
@[simp] theorem setChkReg_handler (c : List Byte) : (setChkReg c s).handler = s.handler := rfl
@[simp] theorem setChkReg_diagEn (c : List Byte) : (setChkReg c s).diagEn = s.diagEn := rfl
@[simp] theorem setChkReg_origin (c : List Byte) : (setChkReg c s).origin = s.origin := rfl
@[simp] theorem setChkReg_txCmd (c : List Byte) : (setChkReg c s).txCmd = s.txCmd := rfl
@[simp] theorem setChkReg_txSrc (c : List Byte) : (setChkReg c s).txSrc = s.txSrc := rfl
@[simp] theorem setChkReg_txDst (c : List Byte) : (setChkReg c s).txDst = s.txDst := rfl
@[simp] theorem setChkReg_txLen (c : List Byte) : (setChkReg c s).txLen = s.txLen := rfl
@[simp] theorem setChkReg_txPayload (c : List Byte) : (setChkReg c s).txPayload = s.txPayload := rfl
@[simp] theorem setChkReg_hdrReg (c : List Byte) : (setChkReg c s).hdrReg = s.hdrReg := rfl
@[simp] theorem setChkReg_chkReg (c : List Byte) : (setChkReg c s).chkReg = some c := rfl
@[simp] theorem setChkReg_rxCmd (c : List Byte) : (setChkReg c s).rxCmd = s.rxCmd := rfl
@[simp] theorem setChkReg_rxSrc (c : List Byte) : (setChkReg c s).rxSrc = s.rxSrc := rfl
@[simp] theorem setChkReg_rxLen (c : List Byte) : (setChkReg c s).rxLen = s.rxLen := rfl
@[simp] theorem setChkReg_nChunks (c : List Byte) : (setChkReg c s).nChunks = s.nChunks := rfl
@[simp] theorem setChkReg_chunkIdx (c : List Byte) : (setChkReg c s).chunkIdx = s.chunkIdx := rfl
@[simp] theorem setChkReg_ackUnit (c : List Byte) : (setChkReg c s).ackUnit = s.ackUnit := rfl
@[simp] theorem setChkReg_ackAttempts (c : List Byte) : (setChkReg c s).ackAttempts = s.ackAttempts := rfl
@[simp] theorem setChkReg_rxBuf (c : List Byte) : (setChkReg c s).rxBuf = s.rxBuf := rfl
@[simp] theorem setChkReg_resp (c : List Byte) : (setChkReg c s).resp = s.resp := rfl
@[simp] theorem setChkReg_mark (c : List Byte) : (setChkReg c s).mark = s.mark := rfl
@[simp] theorem setChkReg_hist (c : List Byte) : (setChkReg c s).hist = s.hist := rfl
@[simp] theorem setChkReg_env (c : List Byte) : (setChkReg c s).env = s.env := rfl

/-! ### `setChunkIdx` -/

@[simp] theorem setChunkIdx_cfg (i : BitVec 4) : (setChunkIdx i s).cfg = s.cfg := rfl
@[simp] theorem setChunkIdx_fsm (i : BitVec 4) : (setChunkIdx i s).fsm = s.fsm := rfl
@[simp] theorem setChunkIdx_ownId (i : BitVec 4) : (setChunkIdx i s).ownId = s.ownId := rfl
@[simp] theorem setChunkIdx_idLocked (i : BitVec 4) : (setChunkIdx i s).idLocked = s.idLocked := rfl
@[simp] theorem setChunkIdx_handler (i : BitVec 4) : (setChunkIdx i s).handler = s.handler := rfl
@[simp] theorem setChunkIdx_diagEn (i : BitVec 4) : (setChunkIdx i s).diagEn = s.diagEn := rfl
@[simp] theorem setChunkIdx_origin (i : BitVec 4) : (setChunkIdx i s).origin = s.origin := rfl
@[simp] theorem setChunkIdx_txCmd (i : BitVec 4) : (setChunkIdx i s).txCmd = s.txCmd := rfl
@[simp] theorem setChunkIdx_txSrc (i : BitVec 4) : (setChunkIdx i s).txSrc = s.txSrc := rfl
@[simp] theorem setChunkIdx_txDst (i : BitVec 4) : (setChunkIdx i s).txDst = s.txDst := rfl
@[simp] theorem setChunkIdx_txLen (i : BitVec 4) : (setChunkIdx i s).txLen = s.txLen := rfl
@[simp] theorem setChunkIdx_txPayload (i : BitVec 4) : (setChunkIdx i s).txPayload = s.txPayload := rfl
@[simp] theorem setChunkIdx_hdrReg (i : BitVec 4) : (setChunkIdx i s).hdrReg = s.hdrReg := rfl
@[simp] theorem setChunkIdx_chkReg (i : BitVec 4) : (setChunkIdx i s).chkReg = s.chkReg := rfl
@[simp] theorem setChunkIdx_rxCmd (i : BitVec 4) : (setChunkIdx i s).rxCmd = s.rxCmd := rfl
@[simp] theorem setChunkIdx_rxSrc (i : BitVec 4) : (setChunkIdx i s).rxSrc = s.rxSrc := rfl
@[simp] theorem setChunkIdx_rxLen (i : BitVec 4) : (setChunkIdx i s).rxLen = s.rxLen := rfl
@[simp] theorem setChunkIdx_nChunks (i : BitVec 4) : (setChunkIdx i s).nChunks = s.nChunks := rfl
@[simp] theorem setChunkIdx_chunkIdx (i : BitVec 4) : (setChunkIdx i s).chunkIdx = some i := rfl
@[simp] theorem setChunkIdx_ackUnit (i : BitVec 4) : (setChunkIdx i s).ackUnit = s.ackUnit := rfl
@[simp] theorem setChunkIdx_ackAttempts (i : BitVec 4) : (setChunkIdx i s).ackAttempts = s.ackAttempts := rfl
@[simp] theorem setChunkIdx_rxBuf (i : BitVec 4) : (setChunkIdx i s).rxBuf = s.rxBuf := rfl
@[simp] theorem setChunkIdx_resp (i : BitVec 4) : (setChunkIdx i s).resp = s.resp := rfl
@[simp] theorem setChunkIdx_mark (i : BitVec 4) : (setChunkIdx i s).mark = s.mark := rfl
@[simp] theorem setChunkIdx_hist (i : BitVec 4) : (setChunkIdx i s).hist = s.hist := rfl
@[simp] theorem setChunkIdx_env (i : BitVec 4) : (setChunkIdx i s).env = s.env := rfl

/-! ### `setChunks` -/

@[simp] theorem setChunks_cfg (n : BitVec 4) : (setChunks n s).cfg = s.cfg := rfl
@[simp] theorem setChunks_fsm (n : BitVec 4) : (setChunks n s).fsm = s.fsm := rfl
@[simp] theorem setChunks_ownId (n : BitVec 4) : (setChunks n s).ownId = s.ownId := rfl
@[simp] theorem setChunks_idLocked (n : BitVec 4) : (setChunks n s).idLocked = s.idLocked := rfl
@[simp] theorem setChunks_handler (n : BitVec 4) : (setChunks n s).handler = s.handler := rfl
@[simp] theorem setChunks_diagEn (n : BitVec 4) : (setChunks n s).diagEn = s.diagEn := rfl
@[simp] theorem setChunks_origin (n : BitVec 4) : (setChunks n s).origin = s.origin := rfl
@[simp] theorem setChunks_txCmd (n : BitVec 4) : (setChunks n s).txCmd = s.txCmd := rfl
@[simp] theorem setChunks_txSrc (n : BitVec 4) : (setChunks n s).txSrc = s.txSrc := rfl
@[simp] theorem setChunks_txDst (n : BitVec 4) : (setChunks n s).txDst = s.txDst := rfl
@[simp] theorem setChunks_txLen (n : BitVec 4) : (setChunks n s).txLen = s.txLen := rfl
@[simp] theorem setChunks_txPayload (n : BitVec 4) : (setChunks n s).txPayload = s.txPayload := rfl
@[simp] theorem setChunks_hdrReg (n : BitVec 4) : (setChunks n s).hdrReg = s.hdrReg := rfl
@[simp] theorem setChunks_chkReg (n : BitVec 4) : (setChunks n s).chkReg = s.chkReg := rfl
@[simp] theorem setChunks_rxCmd (n : BitVec 4) : (setChunks n s).rxCmd = s.rxCmd := rfl
@[simp] theorem setChunks_rxSrc (n : BitVec 4) : (setChunks n s).rxSrc = s.rxSrc := rfl
@[simp] theorem setChunks_rxLen (n : BitVec 4) : (setChunks n s).rxLen = s.rxLen := rfl
@[simp] theorem setChunks_nChunks (n : BitVec 4) : (setChunks n s).nChunks = some n := rfl
@[simp] theorem setChunks_chunkIdx (n : BitVec 4) : (setChunks n s).chunkIdx = some 0 := rfl
@[simp] theorem setChunks_ackUnit (n : BitVec 4) : (setChunks n s).ackUnit = s.ackUnit := rfl
@[simp] theorem setChunks_ackAttempts (n : BitVec 4) : (setChunks n s).ackAttempts = s.ackAttempts := rfl
@[simp] theorem setChunks_rxBuf (n : BitVec 4) : (setChunks n s).rxBuf = s.rxBuf := rfl
@[simp] theorem setChunks_resp (n : BitVec 4) : (setChunks n s).resp = s.resp := rfl
@[simp] theorem setChunks_mark (n : BitVec 4) : (setChunks n s).mark = s.mark := rfl
@[simp] theorem setChunks_hist (n : BitVec 4) : (setChunks n s).hist = s.hist := rfl
@[simp] theorem setChunks_env (n : BitVec 4) : (setChunks n s).env = s.env := rfl

/-! ### `setAckAttempts` -/

@[simp] theorem setAckAttempts_cfg (k : BitVec 7) : (setAckAttempts k s).cfg = s.cfg := rfl
@[simp] theorem setAckAttempts_fsm (k : BitVec 7) : (setAckAttempts k s).fsm = s.fsm := rfl
@[simp] theorem setAckAttempts_ownId (k : BitVec 7) : (setAckAttempts k s).ownId = s.ownId := rfl
@[simp] theorem setAckAttempts_idLocked (k : BitVec 7) : (setAckAttempts k s).idLocked = s.idLocked := rfl
@[simp] theorem setAckAttempts_handler (k : BitVec 7) : (setAckAttempts k s).handler = s.handler := rfl
@[simp] theorem setAckAttempts_diagEn (k : BitVec 7) : (setAckAttempts k s).diagEn = s.diagEn := rfl
@[simp] theorem setAckAttempts_origin (k : BitVec 7) : (setAckAttempts k s).origin = s.origin := rfl
@[simp] theorem setAckAttempts_txCmd (k : BitVec 7) : (setAckAttempts k s).txCmd = s.txCmd := rfl
@[simp] theorem setAckAttempts_txSrc (k : BitVec 7) : (setAckAttempts k s).txSrc = s.txSrc := rfl
@[simp] theorem setAckAttempts_txDst (k : BitVec 7) : (setAckAttempts k s).txDst = s.txDst := rfl
@[simp] theorem setAckAttempts_txLen (k : BitVec 7) : (setAckAttempts k s).txLen = s.txLen := rfl
@[simp] theorem setAckAttempts_txPayload (k : BitVec 7) : (setAckAttempts k s).txPayload = s.txPayload := rfl
@[simp] theorem setAckAttempts_hdrReg (k : BitVec 7) : (setAckAttempts k s).hdrReg = s.hdrReg := rfl
@[simp] theorem setAckAttempts_chkReg (k : BitVec 7) : (setAckAttempts k s).chkReg = s.chkReg := rfl
@[simp] theorem setAckAttempts_rxCmd (k : BitVec 7) : (setAckAttempts k s).rxCmd = s.rxCmd := rfl
@[simp] theorem setAckAttempts_rxSrc (k : BitVec 7) : (setAckAttempts k s).rxSrc = s.rxSrc := rfl
@[simp] theorem setAckAttempts_rxLen (k : BitVec 7) : (setAckAttempts k s).rxLen = s.rxLen := rfl
@[simp] theorem setAckAttempts_nChunks (k : BitVec 7) : (setAckAttempts k s).nChunks = s.nChunks := rfl
@[simp] theorem setAckAttempts_chunkIdx (k : BitVec 7) : (setAckAttempts k s).chunkIdx = s.chunkIdx := rfl
@[simp] theorem setAckAttempts_ackUnit (k : BitVec 7) : (setAckAttempts k s).ackUnit = s.ackUnit := rfl
@[simp] theorem setAckAttempts_ackAttempts (k : BitVec 7) : (setAckAttempts k s).ackAttempts = some k := rfl
@[simp] theorem setAckAttempts_rxBuf (k : BitVec 7) : (setAckAttempts k s).rxBuf = s.rxBuf := rfl
@[simp] theorem setAckAttempts_resp (k : BitVec 7) : (setAckAttempts k s).resp = s.resp := rfl
@[simp] theorem setAckAttempts_mark (k : BitVec 7) : (setAckAttempts k s).mark = s.mark := rfl
@[simp] theorem setAckAttempts_hist (k : BitVec 7) : (setAckAttempts k s).hist = s.hist := rfl
@[simp] theorem setAckAttempts_env (k : BitVec 7) : (setAckAttempts k s).env = s.env := rfl

/-! ### `setRxHeader` -/

@[simp] theorem setRxHeader_cfg (c : Byte) (a : Nibble) (l : Half) : (setRxHeader c a l s).cfg = s.cfg := rfl
@[simp] theorem setRxHeader_fsm (c : Byte) (a : Nibble) (l : Half) : (setRxHeader c a l s).fsm = s.fsm := rfl
@[simp] theorem setRxHeader_ownId (c : Byte) (a : Nibble) (l : Half) : (setRxHeader c a l s).ownId = s.ownId := rfl
@[simp] theorem setRxHeader_idLocked (c : Byte) (a : Nibble) (l : Half) : (setRxHeader c a l s).idLocked = s.idLocked := rfl
@[simp] theorem setRxHeader_handler (c : Byte) (a : Nibble) (l : Half) : (setRxHeader c a l s).handler = s.handler := rfl
@[simp] theorem setRxHeader_diagEn (c : Byte) (a : Nibble) (l : Half) : (setRxHeader c a l s).diagEn = s.diagEn := rfl
@[simp] theorem setRxHeader_origin (c : Byte) (a : Nibble) (l : Half) : (setRxHeader c a l s).origin = s.origin := rfl
@[simp] theorem setRxHeader_txCmd (c : Byte) (a : Nibble) (l : Half) : (setRxHeader c a l s).txCmd = s.txCmd := rfl
@[simp] theorem setRxHeader_txSrc (c : Byte) (a : Nibble) (l : Half) : (setRxHeader c a l s).txSrc = s.txSrc := rfl
@[simp] theorem setRxHeader_txDst (c : Byte) (a : Nibble) (l : Half) : (setRxHeader c a l s).txDst = s.txDst := rfl
@[simp] theorem setRxHeader_txLen (c : Byte) (a : Nibble) (l : Half) : (setRxHeader c a l s).txLen = s.txLen := rfl
@[simp] theorem setRxHeader_txPayload (c : Byte) (a : Nibble) (l : Half) : (setRxHeader c a l s).txPayload = s.txPayload := rfl
@[simp] theorem setRxHeader_hdrReg (c : Byte) (a : Nibble) (l : Half) : (setRxHeader c a l s).hdrReg = s.hdrReg := rfl
@[simp] theorem setRxHeader_chkReg (c : Byte) (a : Nibble) (l : Half) : (setRxHeader c a l s).chkReg = s.chkReg := rfl
@[simp] theorem setRxHeader_rxCmd (c : Byte) (a : Nibble) (l : Half) : (setRxHeader c a l s).rxCmd = some c := rfl
@[simp] theorem setRxHeader_rxSrc (c : Byte) (a : Nibble) (l : Half) : (setRxHeader c a l s).rxSrc = some a := rfl
@[simp] theorem setRxHeader_rxLen (c : Byte) (a : Nibble) (l : Half) : (setRxHeader c a l s).rxLen = some l := rfl
@[simp] theorem setRxHeader_nChunks (c : Byte) (a : Nibble) (l : Half) : (setRxHeader c a l s).nChunks = s.nChunks := rfl
@[simp] theorem setRxHeader_chunkIdx (c : Byte) (a : Nibble) (l : Half) : (setRxHeader c a l s).chunkIdx = s.chunkIdx := rfl
@[simp] theorem setRxHeader_ackUnit (c : Byte) (a : Nibble) (l : Half) : (setRxHeader c a l s).ackUnit = s.ackUnit := rfl
@[simp] theorem setRxHeader_ackAttempts (c : Byte) (a : Nibble) (l : Half) : (setRxHeader c a l s).ackAttempts = s.ackAttempts := rfl
@[simp] theorem setRxHeader_rxBuf (c : Byte) (a : Nibble) (l : Half) : (setRxHeader c a l s).rxBuf = s.rxBuf := rfl
@[simp] theorem setRxHeader_resp (c : Byte) (a : Nibble) (l : Half) : (setRxHeader c a l s).resp = s.resp := rfl
@[simp] theorem setRxHeader_mark (c : Byte) (a : Nibble) (l : Half) : (setRxHeader c a l s).mark = s.mark := rfl
@[simp] theorem setRxHeader_hist (c : Byte) (a : Nibble) (l : Half) : (setRxHeader c a l s).hist = s.hist := rfl
@[simp] theorem setRxHeader_env (c : Byte) (a : Nibble) (l : Half) : (setRxHeader c a l s).env = s.env := rfl

/-! ### `setRxBuf` -/

@[simp] theorem setRxBuf_cfg (m : Memory) : (setRxBuf m s).cfg = s.cfg := rfl
@[simp] theorem setRxBuf_fsm (m : Memory) : (setRxBuf m s).fsm = s.fsm := rfl
@[simp] theorem setRxBuf_ownId (m : Memory) : (setRxBuf m s).ownId = s.ownId := rfl
@[simp] theorem setRxBuf_idLocked (m : Memory) : (setRxBuf m s).idLocked = s.idLocked := rfl
@[simp] theorem setRxBuf_handler (m : Memory) : (setRxBuf m s).handler = s.handler := rfl
@[simp] theorem setRxBuf_diagEn (m : Memory) : (setRxBuf m s).diagEn = s.diagEn := rfl
@[simp] theorem setRxBuf_origin (m : Memory) : (setRxBuf m s).origin = s.origin := rfl
@[simp] theorem setRxBuf_txCmd (m : Memory) : (setRxBuf m s).txCmd = s.txCmd := rfl
@[simp] theorem setRxBuf_txSrc (m : Memory) : (setRxBuf m s).txSrc = s.txSrc := rfl
@[simp] theorem setRxBuf_txDst (m : Memory) : (setRxBuf m s).txDst = s.txDst := rfl
@[simp] theorem setRxBuf_txLen (m : Memory) : (setRxBuf m s).txLen = s.txLen := rfl
@[simp] theorem setRxBuf_txPayload (m : Memory) : (setRxBuf m s).txPayload = s.txPayload := rfl
@[simp] theorem setRxBuf_hdrReg (m : Memory) : (setRxBuf m s).hdrReg = s.hdrReg := rfl
@[simp] theorem setRxBuf_chkReg (m : Memory) : (setRxBuf m s).chkReg = s.chkReg := rfl
@[simp] theorem setRxBuf_rxCmd (m : Memory) : (setRxBuf m s).rxCmd = s.rxCmd := rfl
@[simp] theorem setRxBuf_rxSrc (m : Memory) : (setRxBuf m s).rxSrc = s.rxSrc := rfl
@[simp] theorem setRxBuf_rxLen (m : Memory) : (setRxBuf m s).rxLen = s.rxLen := rfl
@[simp] theorem setRxBuf_nChunks (m : Memory) : (setRxBuf m s).nChunks = s.nChunks := rfl
@[simp] theorem setRxBuf_chunkIdx (m : Memory) : (setRxBuf m s).chunkIdx = s.chunkIdx := rfl
@[simp] theorem setRxBuf_ackUnit (m : Memory) : (setRxBuf m s).ackUnit = s.ackUnit := rfl
@[simp] theorem setRxBuf_ackAttempts (m : Memory) : (setRxBuf m s).ackAttempts = s.ackAttempts := rfl
@[simp] theorem setRxBuf_rxBuf (m : Memory) : (setRxBuf m s).rxBuf = m := rfl
@[simp] theorem setRxBuf_resp (m : Memory) : (setRxBuf m s).resp = s.resp := rfl
@[simp] theorem setRxBuf_mark (m : Memory) : (setRxBuf m s).mark = s.mark := rfl
@[simp] theorem setRxBuf_hist (m : Memory) : (setRxBuf m s).hist = s.hist := rfl
@[simp] theorem setRxBuf_env (m : Memory) : (setRxBuf m s).env = s.env := rfl

/-! ### `setIdentity` -/

@[simp] theorem setIdentity_cfg (a : Nibble) : (setIdentity a s).cfg = s.cfg := rfl
@[simp] theorem setIdentity_fsm (a : Nibble) : (setIdentity a s).fsm = s.fsm := rfl
@[simp] theorem setIdentity_ownId (a : Nibble) : (setIdentity a s).ownId = a := rfl
@[simp] theorem setIdentity_idLocked (a : Nibble) : (setIdentity a s).idLocked = true := rfl
@[simp] theorem setIdentity_handler (a : Nibble) : (setIdentity a s).handler = s.handler := rfl
@[simp] theorem setIdentity_diagEn (a : Nibble) : (setIdentity a s).diagEn = s.diagEn := rfl
@[simp] theorem setIdentity_origin (a : Nibble) : (setIdentity a s).origin = s.origin := rfl
@[simp] theorem setIdentity_txCmd (a : Nibble) : (setIdentity a s).txCmd = s.txCmd := rfl
@[simp] theorem setIdentity_txSrc (a : Nibble) : (setIdentity a s).txSrc = s.txSrc := rfl
@[simp] theorem setIdentity_txDst (a : Nibble) : (setIdentity a s).txDst = s.txDst := rfl
@[simp] theorem setIdentity_txLen (a : Nibble) : (setIdentity a s).txLen = s.txLen := rfl
@[simp] theorem setIdentity_txPayload (a : Nibble) : (setIdentity a s).txPayload = s.txPayload := rfl
@[simp] theorem setIdentity_hdrReg (a : Nibble) : (setIdentity a s).hdrReg = s.hdrReg := rfl
@[simp] theorem setIdentity_chkReg (a : Nibble) : (setIdentity a s).chkReg = s.chkReg := rfl
@[simp] theorem setIdentity_rxCmd (a : Nibble) : (setIdentity a s).rxCmd = s.rxCmd := rfl
@[simp] theorem setIdentity_rxSrc (a : Nibble) : (setIdentity a s).rxSrc = s.rxSrc := rfl
@[simp] theorem setIdentity_rxLen (a : Nibble) : (setIdentity a s).rxLen = s.rxLen := rfl
@[simp] theorem setIdentity_nChunks (a : Nibble) : (setIdentity a s).nChunks = s.nChunks := rfl
@[simp] theorem setIdentity_chunkIdx (a : Nibble) : (setIdentity a s).chunkIdx = s.chunkIdx := rfl
@[simp] theorem setIdentity_ackUnit (a : Nibble) : (setIdentity a s).ackUnit = s.ackUnit := rfl
@[simp] theorem setIdentity_ackAttempts (a : Nibble) : (setIdentity a s).ackAttempts = s.ackAttempts := rfl
@[simp] theorem setIdentity_rxBuf (a : Nibble) : (setIdentity a s).rxBuf = s.rxBuf := rfl
@[simp] theorem setIdentity_resp (a : Nibble) : (setIdentity a s).resp = s.resp := rfl
@[simp] theorem setIdentity_mark (a : Nibble) : (setIdentity a s).mark = s.mark := rfl
@[simp] theorem setIdentity_hist (a : Nibble) : (setIdentity a s).hist = s.hist := rfl
@[simp] theorem setIdentity_env (a : Nibble) : (setIdentity a s).env = s.env := rfl

/-! ### `setHandler` -/

@[simp] theorem setHandler_cfg (n : Half) : (setHandler n s).cfg = s.cfg := rfl
@[simp] theorem setHandler_fsm (n : Half) : (setHandler n s).fsm = s.fsm := rfl
@[simp] theorem setHandler_ownId (n : Half) : (setHandler n s).ownId = s.ownId := rfl
@[simp] theorem setHandler_idLocked (n : Half) : (setHandler n s).idLocked = s.idLocked := rfl
@[simp] theorem setHandler_handler (n : Half) : (setHandler n s).handler = some n := rfl
@[simp] theorem setHandler_diagEn (n : Half) : (setHandler n s).diagEn = s.diagEn := rfl
@[simp] theorem setHandler_origin (n : Half) : (setHandler n s).origin = s.origin := rfl
@[simp] theorem setHandler_txCmd (n : Half) : (setHandler n s).txCmd = s.txCmd := rfl
@[simp] theorem setHandler_txSrc (n : Half) : (setHandler n s).txSrc = s.txSrc := rfl
@[simp] theorem setHandler_txDst (n : Half) : (setHandler n s).txDst = s.txDst := rfl
@[simp] theorem setHandler_txLen (n : Half) : (setHandler n s).txLen = s.txLen := rfl
@[simp] theorem setHandler_txPayload (n : Half) : (setHandler n s).txPayload = s.txPayload := rfl
@[simp] theorem setHandler_hdrReg (n : Half) : (setHandler n s).hdrReg = s.hdrReg := rfl
@[simp] theorem setHandler_chkReg (n : Half) : (setHandler n s).chkReg = s.chkReg := rfl
@[simp] theorem setHandler_rxCmd (n : Half) : (setHandler n s).rxCmd = s.rxCmd := rfl
@[simp] theorem setHandler_rxSrc (n : Half) : (setHandler n s).rxSrc = s.rxSrc := rfl
@[simp] theorem setHandler_rxLen (n : Half) : (setHandler n s).rxLen = s.rxLen := rfl
@[simp] theorem setHandler_nChunks (n : Half) : (setHandler n s).nChunks = s.nChunks := rfl
@[simp] theorem setHandler_chunkIdx (n : Half) : (setHandler n s).chunkIdx = s.chunkIdx := rfl
@[simp] theorem setHandler_ackUnit (n : Half) : (setHandler n s).ackUnit = s.ackUnit := rfl
@[simp] theorem setHandler_ackAttempts (n : Half) : (setHandler n s).ackAttempts = s.ackAttempts := rfl
@[simp] theorem setHandler_rxBuf (n : Half) : (setHandler n s).rxBuf = s.rxBuf := rfl
@[simp] theorem setHandler_resp (n : Half) : (setHandler n s).resp = s.resp := rfl
@[simp] theorem setHandler_mark (n : Half) : (setHandler n s).mark = s.mark := rfl
@[simp] theorem setHandler_hist (n : Half) : (setHandler n s).hist = s.hist := rfl
@[simp] theorem setHandler_env (n : Half) : (setHandler n s).env = s.env := rfl

/-! ### `setDiagEn` -/

@[simp] theorem setDiagEn_cfg (en : Bool) : (setDiagEn en s).cfg = s.cfg := rfl
@[simp] theorem setDiagEn_fsm (en : Bool) : (setDiagEn en s).fsm = s.fsm := rfl
@[simp] theorem setDiagEn_ownId (en : Bool) : (setDiagEn en s).ownId = s.ownId := rfl
@[simp] theorem setDiagEn_idLocked (en : Bool) : (setDiagEn en s).idLocked = s.idLocked := rfl
@[simp] theorem setDiagEn_handler (en : Bool) : (setDiagEn en s).handler = s.handler := rfl
@[simp] theorem setDiagEn_diagEn (en : Bool) : (setDiagEn en s).diagEn = en := rfl
@[simp] theorem setDiagEn_origin (en : Bool) : (setDiagEn en s).origin = s.origin := rfl
@[simp] theorem setDiagEn_txCmd (en : Bool) : (setDiagEn en s).txCmd = s.txCmd := rfl
@[simp] theorem setDiagEn_txSrc (en : Bool) : (setDiagEn en s).txSrc = s.txSrc := rfl
@[simp] theorem setDiagEn_txDst (en : Bool) : (setDiagEn en s).txDst = s.txDst := rfl
@[simp] theorem setDiagEn_txLen (en : Bool) : (setDiagEn en s).txLen = s.txLen := rfl
@[simp] theorem setDiagEn_txPayload (en : Bool) : (setDiagEn en s).txPayload = s.txPayload := rfl
@[simp] theorem setDiagEn_hdrReg (en : Bool) : (setDiagEn en s).hdrReg = s.hdrReg := rfl
@[simp] theorem setDiagEn_chkReg (en : Bool) : (setDiagEn en s).chkReg = s.chkReg := rfl
@[simp] theorem setDiagEn_rxCmd (en : Bool) : (setDiagEn en s).rxCmd = s.rxCmd := rfl
@[simp] theorem setDiagEn_rxSrc (en : Bool) : (setDiagEn en s).rxSrc = s.rxSrc := rfl
@[simp] theorem setDiagEn_rxLen (en : Bool) : (setDiagEn en s).rxLen = s.rxLen := rfl
@[simp] theorem setDiagEn_nChunks (en : Bool) : (setDiagEn en s).nChunks = s.nChunks := rfl
@[simp] theorem setDiagEn_chunkIdx (en : Bool) : (setDiagEn en s).chunkIdx = s.chunkIdx := rfl
@[simp] theorem setDiagEn_ackUnit (en : Bool) : (setDiagEn en s).ackUnit = s.ackUnit := rfl
@[simp] theorem setDiagEn_ackAttempts (en : Bool) : (setDiagEn en s).ackAttempts = s.ackAttempts := rfl
@[simp] theorem setDiagEn_rxBuf (en : Bool) : (setDiagEn en s).rxBuf = s.rxBuf := rfl
@[simp] theorem setDiagEn_resp (en : Bool) : (setDiagEn en s).resp = s.resp := rfl
@[simp] theorem setDiagEn_mark (en : Bool) : (setDiagEn en s).mark = s.mark := rfl
@[simp] theorem setDiagEn_hist (en : Bool) : (setDiagEn en s).hist = s.hist := rfl
@[simp] theorem setDiagEn_env (en : Bool) : (setDiagEn en s).env = s.env := rfl

/-! ### `complete` -/

@[simp] theorem complete_cfg (r : Resp) : (complete r s).cfg = s.cfg := rfl
@[simp] theorem complete_fsm (r : Resp) : (complete r s).fsm = .idle := rfl
@[simp] theorem complete_ownId (r : Resp) : (complete r s).ownId = s.ownId := rfl
@[simp] theorem complete_idLocked (r : Resp) : (complete r s).idLocked = s.idLocked := rfl
@[simp] theorem complete_handler (r : Resp) : (complete r s).handler = s.handler := rfl
@[simp] theorem complete_diagEn (r : Resp) : (complete r s).diagEn = s.diagEn := rfl
@[simp] theorem complete_origin (r : Resp) : (complete r s).origin = s.origin := rfl
@[simp] theorem complete_txCmd (r : Resp) : (complete r s).txCmd = s.txCmd := rfl
@[simp] theorem complete_txSrc (r : Resp) : (complete r s).txSrc = s.txSrc := rfl
@[simp] theorem complete_txDst (r : Resp) : (complete r s).txDst = s.txDst := rfl
@[simp] theorem complete_txLen (r : Resp) : (complete r s).txLen = s.txLen := rfl
@[simp] theorem complete_txPayload (r : Resp) : (complete r s).txPayload = s.txPayload := rfl
@[simp] theorem complete_hdrReg (r : Resp) : (complete r s).hdrReg = s.hdrReg := rfl
@[simp] theorem complete_chkReg (r : Resp) : (complete r s).chkReg = s.chkReg := rfl
@[simp] theorem complete_rxCmd (r : Resp) : (complete r s).rxCmd = s.rxCmd := rfl
@[simp] theorem complete_rxSrc (r : Resp) : (complete r s).rxSrc = s.rxSrc := rfl
@[simp] theorem complete_rxLen (r : Resp) : (complete r s).rxLen = s.rxLen := rfl
@[simp] theorem complete_nChunks (r : Resp) : (complete r s).nChunks = s.nChunks := rfl
@[simp] theorem complete_chunkIdx (r : Resp) : (complete r s).chunkIdx = s.chunkIdx := rfl
@[simp] theorem complete_ackUnit (r : Resp) : (complete r s).ackUnit = s.ackUnit := rfl
@[simp] theorem complete_ackAttempts (r : Resp) : (complete r s).ackAttempts = s.ackAttempts := rfl
@[simp] theorem complete_rxBuf (r : Resp) : (complete r s).rxBuf = s.rxBuf := rfl
@[simp] theorem complete_resp (r : Resp) : (complete r s).resp = some r := rfl
@[simp] theorem complete_mark (r : Resp) : (complete r s).mark = s.mark := rfl
@[simp] theorem complete_hist (r : Resp) : (complete r s).hist = s.hist ++ [.resp r] := rfl
@[simp] theorem complete_env (r : Resp) : (complete r s).env = s.env := rfl

/-! ### `sendAck` -/

@[simp] theorem sendAck_cfg : (sendAck s).cfg = s.cfg := rfl
@[simp] theorem sendAck_fsm : (sendAck s).fsm = s.fsm := rfl
@[simp] theorem sendAck_ownId : (sendAck s).ownId = s.ownId := rfl
@[simp] theorem sendAck_idLocked : (sendAck s).idLocked = s.idLocked := rfl
@[simp] theorem sendAck_handler : (sendAck s).handler = s.handler := rfl
@[simp] theorem sendAck_diagEn : (sendAck s).diagEn = s.diagEn := rfl
@[simp] theorem sendAck_origin : (sendAck s).origin = s.origin := rfl
@[simp] theorem sendAck_txCmd : (sendAck s).txCmd = s.txCmd := rfl
@[simp] theorem sendAck_txSrc : (sendAck s).txSrc = s.txSrc := rfl
@[simp] theorem sendAck_txDst : (sendAck s).txDst = s.txDst := rfl
@[simp] theorem sendAck_txLen : (sendAck s).txLen = s.txLen := rfl
@[simp] theorem sendAck_txPayload : (sendAck s).txPayload = s.txPayload := rfl
@[simp] theorem sendAck_hdrReg : (sendAck s).hdrReg = s.hdrReg := rfl
@[simp] theorem sendAck_chkReg : (sendAck s).chkReg = s.chkReg := rfl
@[simp] theorem sendAck_rxCmd : (sendAck s).rxCmd = s.rxCmd := rfl
@[simp] theorem sendAck_rxSrc : (sendAck s).rxSrc = s.rxSrc := rfl
@[simp] theorem sendAck_rxLen : (sendAck s).rxLen = s.rxLen := rfl
@[simp] theorem sendAck_nChunks : (sendAck s).nChunks = s.nChunks := rfl
@[simp] theorem sendAck_chunkIdx : (sendAck s).chunkIdx = s.chunkIdx := rfl
@[simp] theorem sendAck_ackUnit : (sendAck s).ackUnit = s.ackUnit := rfl
@[simp] theorem sendAck_ackAttempts : (sendAck s).ackAttempts = s.ackAttempts := rfl
@[simp] theorem sendAck_rxBuf : (sendAck s).rxBuf = s.rxBuf := rfl
@[simp] theorem sendAck_resp : (sendAck s).resp = s.resp := rfl
@[simp] theorem sendAck_mark : (sendAck s).mark = s.mark := rfl
@[simp] theorem sendAck_hist : (sendAck s).hist = s.hist ++ [.write [s.cfg.ack], .flush] := rfl
@[simp] theorem sendAck_env : (sendAck s).env = s.env := rfl

/-! ### `awaitAck` -/

@[simp] theorem awaitAck_cfg (u : AckUnit) : (awaitAck u s).cfg = s.cfg := rfl
@[simp] theorem awaitAck_fsm (u : AckUnit) : (awaitAck u s).fsm = .awPoll := rfl
@[simp] theorem awaitAck_ownId (u : AckUnit) : (awaitAck u s).ownId = s.ownId := rfl
@[simp] theorem awaitAck_idLocked (u : AckUnit) : (awaitAck u s).idLocked = s.idLocked := rfl
@[simp] theorem awaitAck_handler (u : AckUnit) : (awaitAck u s).handler = s.handler := rfl
@[simp] theorem awaitAck_diagEn (u : AckUnit) : (awaitAck u s).diagEn = s.diagEn := rfl
@[simp] theorem awaitAck_origin (u : AckUnit) : (awaitAck u s).origin = s.origin := rfl
@[simp] theorem awaitAck_txCmd (u : AckUnit) : (awaitAck u s).txCmd = s.txCmd := rfl
@[simp] theorem awaitAck_txSrc (u : AckUnit) : (awaitAck u s).txSrc = s.txSrc := rfl
@[simp] theorem awaitAck_txDst (u : AckUnit) : (awaitAck u s).txDst = s.txDst := rfl
@[simp] theorem awaitAck_txLen (u : AckUnit) : (awaitAck u s).txLen = s.txLen := rfl
@[simp] theorem awaitAck_txPayload (u : AckUnit) : (awaitAck u s).txPayload = s.txPayload := rfl
@[simp] theorem awaitAck_hdrReg (u : AckUnit) : (awaitAck u s).hdrReg = s.hdrReg := rfl
@[simp] theorem awaitAck_chkReg (u : AckUnit) : (awaitAck u s).chkReg = s.chkReg := rfl
@[simp] theorem awaitAck_rxCmd (u : AckUnit) : (awaitAck u s).rxCmd = s.rxCmd := rfl
@[simp] theorem awaitAck_rxSrc (u : AckUnit) : (awaitAck u s).rxSrc = s.rxSrc := rfl
@[simp] theorem awaitAck_rxLen (u : AckUnit) : (awaitAck u s).rxLen = s.rxLen := rfl
@[simp] theorem awaitAck_nChunks (u : AckUnit) : (awaitAck u s).nChunks = s.nChunks := rfl
@[simp] theorem awaitAck_chunkIdx (u : AckUnit) : (awaitAck u s).chunkIdx = s.chunkIdx := rfl
@[simp] theorem awaitAck_ackUnit (u : AckUnit) : (awaitAck u s).ackUnit = some u := rfl
@[simp] theorem awaitAck_ackAttempts (u : AckUnit) : (awaitAck u s).ackAttempts = some 0 := rfl
@[simp] theorem awaitAck_rxBuf (u : AckUnit) : (awaitAck u s).rxBuf = s.rxBuf := rfl
@[simp] theorem awaitAck_resp (u : AckUnit) : (awaitAck u s).resp = s.resp := rfl
@[simp] theorem awaitAck_mark (u : AckUnit) : (awaitAck u s).mark = s.mark := rfl
@[simp] theorem awaitAck_hist (u : AckUnit) : (awaitAck u s).hist = s.hist := rfl
@[simp] theorem awaitAck_env (u : AckUnit) : (awaitAck u s).env = s.env := rfl

/-! ### `logReq` -/

@[simp] theorem logReq_cfg (o : Op) (a b : Nibble) (cmd : Byte) (n : Half) (d : List Byte) : (logReq o a b cmd n d s).cfg = s.cfg := rfl
@[simp] theorem logReq_fsm (o : Op) (a b : Nibble) (cmd : Byte) (n : Half) (d : List Byte) : (logReq o a b cmd n d s).fsm = s.fsm := rfl
@[simp] theorem logReq_ownId (o : Op) (a b : Nibble) (cmd : Byte) (n : Half) (d : List Byte) : (logReq o a b cmd n d s).ownId = s.ownId := rfl
@[simp] theorem logReq_idLocked (o : Op) (a b : Nibble) (cmd : Byte) (n : Half) (d : List Byte) : (logReq o a b cmd n d s).idLocked = s.idLocked := rfl
@[simp] theorem logReq_handler (o : Op) (a b : Nibble) (cmd : Byte) (n : Half) (d : List Byte) : (logReq o a b cmd n d s).handler = s.handler := rfl
@[simp] theorem logReq_diagEn (o : Op) (a b : Nibble) (cmd : Byte) (n : Half) (d : List Byte) : (logReq o a b cmd n d s).diagEn = s.diagEn := rfl
@[simp] theorem logReq_origin (o : Op) (a b : Nibble) (cmd : Byte) (n : Half) (d : List Byte) : (logReq o a b cmd n d s).origin = s.origin := rfl
@[simp] theorem logReq_txCmd (o : Op) (a b : Nibble) (cmd : Byte) (n : Half) (d : List Byte) : (logReq o a b cmd n d s).txCmd = s.txCmd := rfl
@[simp] theorem logReq_txSrc (o : Op) (a b : Nibble) (cmd : Byte) (n : Half) (d : List Byte) : (logReq o a b cmd n d s).txSrc = s.txSrc := rfl
@[simp] theorem logReq_txDst (o : Op) (a b : Nibble) (cmd : Byte) (n : Half) (d : List Byte) : (logReq o a b cmd n d s).txDst = s.txDst := rfl
@[simp] theorem logReq_txLen (o : Op) (a b : Nibble) (cmd : Byte) (n : Half) (d : List Byte) : (logReq o a b cmd n d s).txLen = s.txLen := rfl
@[simp] theorem logReq_txPayload (o : Op) (a b : Nibble) (cmd : Byte) (n : Half) (d : List Byte) : (logReq o a b cmd n d s).txPayload = s.txPayload := rfl
@[simp] theorem logReq_hdrReg (o : Op) (a b : Nibble) (cmd : Byte) (n : Half) (d : List Byte) : (logReq o a b cmd n d s).hdrReg = s.hdrReg := rfl
@[simp] theorem logReq_chkReg (o : Op) (a b : Nibble) (cmd : Byte) (n : Half) (d : List Byte) : (logReq o a b cmd n d s).chkReg = s.chkReg := rfl
@[simp] theorem logReq_rxCmd (o : Op) (a b : Nibble) (cmd : Byte) (n : Half) (d : List Byte) : (logReq o a b cmd n d s).rxCmd = s.rxCmd := rfl
@[simp] theorem logReq_rxSrc (o : Op) (a b : Nibble) (cmd : Byte) (n : Half) (d : List Byte) : (logReq o a b cmd n d s).rxSrc = s.rxSrc := rfl
@[simp] theorem logReq_rxLen (o : Op) (a b : Nibble) (cmd : Byte) (n : Half) (d : List Byte) : (logReq o a b cmd n d s).rxLen = s.rxLen := rfl
@[simp] theorem logReq_nChunks (o : Op) (a b : Nibble) (cmd : Byte) (n : Half) (d : List Byte) : (logReq o a b cmd n d s).nChunks = s.nChunks := rfl
@[simp] theorem logReq_chunkIdx (o : Op) (a b : Nibble) (cmd : Byte) (n : Half) (d : List Byte) : (logReq o a b cmd n d s).chunkIdx = s.chunkIdx := rfl
@[simp] theorem logReq_ackUnit (o : Op) (a b : Nibble) (cmd : Byte) (n : Half) (d : List Byte) : (logReq o a b cmd n d s).ackUnit = s.ackUnit := rfl
@[simp] theorem logReq_ackAttempts (o : Op) (a b : Nibble) (cmd : Byte) (n : Half) (d : List Byte) : (logReq o a b cmd n d s).ackAttempts = s.ackAttempts := rfl
@[simp] theorem logReq_rxBuf (o : Op) (a b : Nibble) (cmd : Byte) (n : Half) (d : List Byte) : (logReq o a b cmd n d s).rxBuf = s.rxBuf := rfl
@[simp] theorem logReq_resp (o : Op) (a b : Nibble) (cmd : Byte) (n : Half) (d : List Byte) : (logReq o a b cmd n d s).resp = s.resp := rfl
@[simp] theorem logReq_mark (o : Op) (a b : Nibble) (cmd : Byte) (n : Half) (d : List Byte) : (logReq o a b cmd n d s).mark = s.mark := rfl
@[simp] theorem logReq_hist (o : Op) (a b : Nibble) (cmd : Byte) (n : Half) (d : List Byte) : (logReq o a b cmd n d s).hist = s.hist ++ [.req (descriptor o a b cmd n) d] := rfl
@[simp] theorem logReq_env (o : Op) (a b : Nibble) (cmd : Byte) (n : Half) (d : List Byte) : (logReq o a b cmd n d s).env = s.env := rfl

/-! ### `takeReset` -/

@[simp] theorem takeReset_cfg : (takeReset s).cfg = s.cfg := rfl
@[simp] theorem takeReset_fsm : (takeReset s).fsm = .idle := rfl
@[simp] theorem takeReset_ownId : (takeReset s).ownId = 0 := rfl
@[simp] theorem takeReset_idLocked : (takeReset s).idLocked = false := rfl
@[simp] theorem takeReset_handler : (takeReset s).handler = none := rfl
@[simp] theorem takeReset_diagEn : (takeReset s).diagEn = false := rfl
@[simp] theorem takeReset_origin : (takeReset s).origin = none := rfl
@[simp] theorem takeReset_txCmd : (takeReset s).txCmd = none := rfl
@[simp] theorem takeReset_txSrc : (takeReset s).txSrc = none := rfl
@[simp] theorem takeReset_txDst : (takeReset s).txDst = none := rfl
@[simp] theorem takeReset_txLen : (takeReset s).txLen = none := rfl
@[simp] theorem takeReset_txPayload : (takeReset s).txPayload = none := rfl
@[simp] theorem takeReset_hdrReg : (takeReset s).hdrReg = none := rfl
@[simp] theorem takeReset_chkReg : (takeReset s).chkReg = none := rfl
@[simp] theorem takeReset_rxCmd : (takeReset s).rxCmd = none := rfl
@[simp] theorem takeReset_rxSrc : (takeReset s).rxSrc = none := rfl
@[simp] theorem takeReset_rxLen : (takeReset s).rxLen = none := rfl
@[simp] theorem takeReset_nChunks : (takeReset s).nChunks = none := rfl
@[simp] theorem takeReset_chunkIdx : (takeReset s).chunkIdx = none := rfl
@[simp] theorem takeReset_ackUnit : (takeReset s).ackUnit = none := rfl
@[simp] theorem takeReset_ackAttempts : (takeReset s).ackAttempts = none := rfl
@[simp] theorem takeReset_rxBuf : (takeReset s).rxBuf = [] := rfl
@[simp] theorem takeReset_resp : (takeReset s).resp = none := rfl
@[simp] theorem takeReset_mark : (takeReset s).mark = none := rfl
@[simp] theorem takeReset_hist : (takeReset s).hist = s.hist ++ [.reset] := rfl
@[simp] theorem takeReset_env : (takeReset s).env = s.env := rfl

end Sys2Proof.Machine
end

