-- ==== Sys2Proof/Laws/Ops.lean ====
section
/-! SUPPORT. What each shared operation can answer, said once: when it answers a next state, and which. -/

namespace Sys2Proof.Machine

/-- A stop is never a next state. -/
@[simp] theorem stop_ne_next (m : Mark) (s t : State) : stop m s = .next t ↔ False := by
  cases m <;> simp [stop]

/-- Reading a register goes on exactly when the register is written. -/
@[simp] theorem readReg_next {α : Type} (r : Option α) (s t : State) (k : α → Result) :
    readReg r s k = .next t ↔ ∃ v, r = some v ∧ k v = .next t := by
  cases r <;> simp [readReg]

@[simp] theorem readReg_some {α : Type} (v : α) (s : State) (k : α → Result) :
    readReg (some v) s k = k v := rfl

@[simp] theorem readReg_none {α : Type} (s : State) (k : α → Result) :
    readReg none s k = stop .unwrittenRead s := rfl

/-- A buffer write goes on exactly when the block is inside the buffer. -/
@[simp] theorem memWrite_next (off : Nat) (v : List Byte) (s t : State) (k : State → Result) :
    memWrite off v s k = .next t ↔
      off + v.length ≤ s.cfg.rxCap ∧ k (setRxBuf (cellsSet s.rxBuf off v) s) = .next t := by
  unfold memWrite; split <;> simp_all

/-- A buffer read goes on exactly when every cell is written. -/
@[simp] theorem memRead_next (off n : Nat) (s t : State) (k : List Byte → Result) :
    memRead off n s k = .next t ↔ ∃ v, cellsAt s.rxBuf off n = some v ∧ k v = .next t := by
  unfold memRead; split <;> simp_all

/-- Completing a request always answers the completed state. -/
@[simp] theorem respond_next (r : Resp) (s t : State) : respond r s = .next t ↔ complete r s = t := by
  simp [respond]

@[simp] theorem raiseStatus_next (st : Status) (s t : State) :
    raiseStatus st s = .next t ↔ complete { status := st } s = t := by
  simp [raiseStatus]

/-- A request (but HANDLER_DONE) goes on in IDLE, is refused in DELIVER, and changes nothing while the block is busy. -/
theorem acceptRequest_next (s t : State) (body : Result) :
    acceptRequest s body = .next t ↔
      (s.fsm = .idle ∧ body = .next t) ∨ (s.fsm ≠ .idle ∧ s.fsm ≠ .deliver ∧ s = t) := by
  cases h : s.fsm <;> simp [acceptRequest, h]

@[simp] theorem acceptRequest_idle (s : State) (body : Result) (h : s.fsm = .idle) :
    acceptRequest s body = body := by simp [acceptRequest, h]

@[simp] theorem acceptRequest_deliver (s : State) (body : Result) (h : s.fsm = .deliver) :
    acceptRequest s body = stop .nestedRequest s := by simp [acceptRequest, h]

/-- HANDLER_DONE goes on in DELIVER, is refused in IDLE, and changes nothing while the block is busy. -/
theorem acceptDone_next (s t : State) (body : Result) :
    acceptDone s body = .next t ↔
      (s.fsm = .deliver ∧ body = .next t) ∨ (s.fsm ≠ .idle ∧ s.fsm ≠ .deliver ∧ s = t) := by
  cases h : s.fsm <;> simp [acceptDone, h]

@[simp] theorem acceptDone_deliver (s : State) (body : Result) (h : s.fsm = .deliver) :
    acceptDone s body = body := by simp [acceptDone, h]

/-- A descriptor that R59 refuses is never accepted: a next state is the unchanged one of a busy block. -/
theorem refuseDescriptor_next (s t : State) :
    refuseDescriptor s = .next t ↔ s.fsm ≠ .idle ∧ s.fsm ≠ .deliver ∧ s = t := by
  cases h : s.fsm <;> simp [refuseDescriptor, h]

/-- The references after more events go on from those before them (R48). -/
theorem bufferRefs_append (h evs : List Event) : bufferRefs (h ++ evs) = evs.foldl refsAfter (bufferRefs h) :=
  List.foldl_append

/-- The reference that holds is that of the newest hand-over, or there is none (R48). -/
theorem goodRef_newest (h : List Event) (ref : Nat) (hg : goodRef h = some ref) : ref + 1 = handOvers h := by
  suffices hs : ∀ (evs : List Event) (c : Nat × Option Nat), (∀ k, c.2 = some k → k + 1 = c.1) →
      ∀ k, (evs.foldl refsAfter c).2 = some k → k + 1 = (evs.foldl refsAfter c).1 from
    hs h (0, none) (by simp) ref hg
  intro evs
  induction evs with
  | nil => exact fun _ h => h
  | cons e evs ih =>
    refine fun c hc => ih _ fun k hk => ?_
    cases e <;> simp only [refsAfter] at hk ⊢
    case req => split at hk <;> simp_all
    case resp => split at hk <;> simp_all
    all_goals first | exact hc k hk | (injection hk; omega) | cases hk

/-- A retained reference is good or the access is refused; the state does not change. -/
theorem accessBuffer_next (ref : Nat) (s t : State) :
    accessBuffer ref s = .next t ↔ goodRef s.hist = some ref ∧ s = t := by
  unfold accessBuffer; split <;> simp_all

/-- The availability query waits while there is no answer, and otherwise goes on with it. -/
theorem askAvail_next (s t : State) (k : Nat → State → Result) :
    askAvail s k = .next t ↔
      (s.env.avails = [] ∧ s = t) ∨
      ∃ a rest, s.env.avails = a :: rest ∧
        k a (log [.avail a] (setAvails rest s)) = .next t := by
  unfold askAvail; split <;> simp_all

end Sys2Proof.Machine
end

