-- ==== Sys2Proof/Laws/Step.lean ====
section
/-! SUPPORT. What a step can do, said once: the cases of `step`, and for each meaning and each of the block's own steps
the next states it can answer. Proofs about steps cite these and do not unfold the machine. -/

namespace Sys2Proof.Machine

variable {s t : State}

/-! ### Exec, arm by arm -/

theorem execSend_next {a b : Nibble} {cmd : Byte} {n : Half} {data : List Byte} :
    execSend a b cmd n data s = .next t ↔
      (s.fsm = .idle ∧ data.length = n.toNat ∧ n.toNat ≤ maxPayload ∧
        goTo .txHdr
          (latchSend cmd a b n data (encodeHeader s.cfg cmd a b n) (BitVec.ofNat 4 (nchunks n.toNat))
            (logReq .send a b cmd n data s)) = t) ∨
      (s.fsm ≠ .idle ∧ s.fsm ≠ .deliver ∧ s = t) := by
  rw [execSend, acceptRequest_next]
  by_cases hl : data.length = n.toNat
  · by_cases hm : maxPayload < n.toNat
    · simp [hl, hm, Nat.not_le_of_lt hm]
    · simp [hl, hm, Nat.le_of_not_lt hm]
  · simp [hl]

theorem execReceive_next : execReceive s = .next t ↔
    (s.fsm = .idle ∧ goTo .rxHdr (setOrigin .recv (logReq .receive 0 0 0 0 [] s)) = t) ∨
    (s.fsm ≠ .idle ∧ s.fsm ≠ .deliver ∧ s = t) := by
  simp [execReceive, acceptRequest_next]

theorem execPoll_next : execPoll s = .next t ↔
    (s.fsm = .idle ∧ goTo .rxAvail (setOrigin .poll (logReq .poll 0 0 0 0 [] s)) = t) ∨
    (s.fsm ≠ .idle ∧ s.fsm ≠ .deliver ∧ s = t) := by
  simp [execPoll, acceptRequest_next]

theorem execChecksum_next {n : Half} {data : List Byte} : execChecksum n data s = .next t ↔
    (s.fsm = .idle ∧ data.length = n.toNat ∧
      complete { status := .ok, crc := some (crc8 data) } (logReq .checksum 0 0 0 n data s) = t) ∨
    (s.fsm ≠ .idle ∧ s.fsm ≠ .deliver ∧ s = t) := by
  rw [execChecksum, acceptRequest_next]; split <;> simp_all

theorem execSetId_next {a : Nibble} : execSetId a s = .next t ↔
    (s.fsm = .idle ∧ s.idLocked = false ∧
      complete { status := .ok } (setIdentity a (logReq .setId a 0 0 0 [] s)) = t) ∨
    (s.fsm ≠ .idle ∧ s.fsm ≠ .deliver ∧ s = t) := by
  rw [execSetId, acceptRequest_next]; split <;> simp_all

theorem execRegisterHandler_next {n : Half} : execRegisterHandler n s = .next t ↔
    (s.fsm = .idle ∧
      complete { status := .ok } (setHandler n (logReq .registerHandler 0 0 0 n [] s)) = t) ∨
    (s.fsm ≠ .idle ∧ s.fsm ≠ .deliver ∧ s = t) := by
  simp [execRegisterHandler, acceptRequest_next]

theorem execAttachDiag_next {en : Bool} : execAttachDiag en s = .next t ↔
    (s.fsm = .idle ∧
      complete { status := .ok } (setDiagEn en (logReq .attachDiag (enField en) 0 0 0 [] s)) = t) ∨
    (s.fsm ≠ .idle ∧ s.fsm ≠ .deliver ∧ s = t) := by
  simp [execAttachDiag, acceptRequest_next]

theorem execHandlerDone_next : execHandlerDone s = .next t ↔
    (s.fsm = .deliver ∧
      complete { status := .ok, delivered := some true } (logReq .handlerDone 0 0 0 0 [] s) = t) ∨
    (s.fsm ≠ .idle ∧ s.fsm ≠ .deliver ∧ s = t) := by
  simp [execHandlerDone, acceptDone_next]

theorem execHeader_next {m n v c : Byte} {sn tg : Nibble} {l : Half} {k : Byte} :
    execHeader m n v c sn tg l k s = .next t ↔
      (s.fsm = .rxHdr ∧ rxHdr (headerBytes m n v c sn tg l k) s = .next t) ∨ (s.fsm ≠ .rxHdr ∧ s = t) := by
  unfold execHeader; split <;> simp_all

theorem execChunk_next {d : List Byte} {k : Byte} : execChunk d k s = .next t ↔
    (s.fsm = .rxChunk ∧ rxChunk (d ++ [k]) s = .next t) ∨ (s.fsm ≠ .rxChunk ∧ s = t) := by
  unfold execChunk; split <;> simp_all

theorem execAck_next {a : Byte} : execAck a s = .next t ↔
    (s.fsm = .awRead ∧ awRead a s = .next t) ∨ (s.fsm ≠ .awRead ∧ s = t) := by
  unfold execAck; split <;> simp_all

/-! ### The block's own steps -/

theorem txHdr_next : txHdr s = .next t ↔
    ∃ h, s.hdrReg = some h ∧ awaitAck .hdr (log [.write h] s) = t := by simp [txHdr]

theorem txChunk_next : txChunk s = .next t ↔
    ∃ c, s.chkReg = some c ∧ awaitAck .chunk (log [.write c] s) = t := by simp [txChunk]

/-- `ack_ok` after the index is settled: complete, or on to the next chunk. -/
theorem nextUnit_next : nextUnit s = .next t ↔
    ∃ i n, s.chunkIdx = some i ∧ s.nChunks = some n ∧
      ((i = n ∧ complete { status := .ok } s = t) ∨
       (i ≠ n ∧ ∃ p, s.txPayload = some p ∧
          goTo .txChunk (setChkReg (encodeChunk p i.toNat) s) = t)) := by
  simp only [nextUnit, readReg_next]
  constructor
  · rintro ⟨i, hi, n, hn, h⟩
    refine ⟨i, n, hi, hn, ?_⟩
    split at h <;> simp_all
  · rintro ⟨i, n, hi, hn, h⟩
    refine ⟨i, hi, n, hn, ?_⟩
    split <;> simp_all

theorem ackOk_next : ackOk s = .next t ↔
    (s.ackUnit = some .hdr ∧ nextUnit s = .next t) ∨
    (s.ackUnit = some .chunk ∧ ∃ i, s.chunkIdx = some i ∧
      nextUnit (setChunkIdx (i + 1) s) = .next t) := by
  simp only [ackOk, readReg_next]
  constructor
  · rintro ⟨u, hu, h⟩
    cases u
    · exact .inl ⟨hu, h⟩
    · exact .inr ⟨hu, by simpa only [readReg_next] using h⟩
  · rintro (⟨hu, h⟩ | ⟨hu, i, hi, h⟩)
    · exact ⟨.hdr, hu, h⟩
    · exact ⟨.chunk, hu, by simpa only [readReg_next] using ⟨i, hi, h⟩⟩

theorem awPoll_next : awPoll s = .next t ↔
    (s.env.avails = [] ∧ s = t) ∨
    ∃ a rest, s.env.avails = a :: rest ∧
      ((0 < a ∧ goTo .awRead (log [.avail a] (setAvails rest s)) = t) ∨
       (a = 0 ∧ ∃ k, s.ackAttempts = some k ∧
        (((k + 1).toNat = ackPollAttempts ∧
            complete { status := .badAck }
              (setAckAttempts (k + 1) (log [.avail a] (setAvails rest s))) = t) ∨
         ((k + 1).toNat ≠ ackPollAttempts ∧
            goTo .awSleep
              (setAckAttempts (k + 1) (log [.avail a] (setAvails rest s))) = t)))) := by
  simp only [awPoll, askAvail_next]
  refine or_congr_right (exists_congr fun a => exists_congr fun rest => and_congr_right fun _ => ?_)
  by_cases h : 0 < a
  · have h0 : a ≠ 0 := by omega
    simp [h, h0]
  · have h0 : a = 0 := by omega
    subst h0
    rw [if_neg h]
    simp only [readReg_next, Nat.lt_irrefl, false_and, false_or, true_and]
    refine exists_congr fun k => and_congr_right fun _ => ?_
    by_cases hk : (k + 1).toNat = ackPollAttempts
    · simp only [if_true, ackFail, raiseStatus_next, hk, ne_eq, not_true_eq_false, false_and, or_false, true_and]
    · simp only [if_false, hk, ne_eq, not_false_eq_true, false_and, false_or, true_and, Host.Outcome.next.injEq]

theorem awSleep_next : awSleep s = .next t ↔
    (s.env.ticks = 0 ∧ s = t) ∨
    ∃ k, s.env.ticks = k + 1 ∧ goTo .awPoll (log [.tick] (setTicks k s)) = t := by
  unfold awSleep; split <;> simp_all

theorem awRead_next {b : Byte} : awRead b s = .next t ↔
    (b = s.cfg.ack ∧ ackOk (log [.readByte b] s) = .next t) ∨
    (b ≠ s.cfg.ack ∧ complete { status := .badAck } (log [.readByte b] s) = t) := by
  by_cases h : b = s.cfg.ack <;> simp [awRead, ackFail, h]

theorem rxAvail_next : rxAvail s = .next t ↔
    (s.env.avails = [] ∧ s = t) ∨
    ∃ a rest, s.env.avails = a :: rest ∧
      ((a = 0 ∧ complete { status := .ok, delivered := some false }
          (log [.avail a] (setAvails rest s)) = t) ∨
       (a ≠ 0 ∧ goTo .rxHdr (log [.avail a] (setAvails rest s)) = t)) := by
  simp only [rxAvail, askAvail_next]
  refine or_congr_right (exists_congr fun a => exists_congr fun rest => and_congr_right fun _ => ?_)
  split <;> simp_all

theorem dispatchDeliver_next : dispatchDeliver s = .next t ↔
    ∃ token cmd src len p, s.handler = some token ∧ s.rxCmd = some cmd ∧ s.rxSrc = some src ∧
      s.rxLen = some len ∧ cellsAt s.rxBuf 0 len.toNat = some p ∧
      goTo .deliver (log [.deliver token cmd src p len] s) = t := by
  cases h : s.handler <;> simp [dispatchDeliver, h]

theorem dispatchDrop_next {st : Status} : dispatchDrop st s = .next t ↔
    complete { status := .ok, delivered := some false }
      (if s.diagEn then log [.diag (statusCode st)] s else s) = t := by simp [dispatchDrop]

theorem rxOk_next : rxOk s = .next t ↔
    (s.origin = some .recv ∧ ∃ cmd src len p, s.rxCmd = some cmd ∧ s.rxSrc = some src ∧
      s.rxLen = some len ∧ cellsAt s.rxBuf 0 len.toNat = some p ∧
      complete { status := .ok, cmd := some cmd, src := some src, len := some len, payload := some p } s = t) ∨
    ((s.origin = some .send ∨ s.origin = some .poll) ∧ dispatchDeliver s = .next t) := by
  simp only [rxOk, readReg_next]
  constructor
  · rintro ⟨o, ho, h⟩
    cases o
    · exact .inr ⟨.inl ho, h⟩
    · simp only [readReg_next, memRead_next, respond_next] at h
      obtain ⟨c, hc, a, ha, l, hl, p, hp, h⟩ := h
      exact .inl ⟨ho, c, a, l, p, hc, ha, hl, hp, h⟩
    · exact .inr ⟨.inr ho, h⟩
  · rintro (⟨ho, c, a, l, p, hc, ha, hl, hp, h⟩ | ⟨ho | ho, h⟩)
    · exact ⟨.recv, ho, by simp [hc, ha, hl, hp, h]⟩
    · exact ⟨.send, ho, h⟩
    · exact ⟨.poll, ho, h⟩

theorem rxFail_next {st : Status} : rxFail st s = .next t ↔
    (s.origin = some .recv ∧ complete { status := st } s = t) ∨
    ((s.origin = some .send ∨ s.origin = some .poll) ∧ dispatchDrop st s = .next t) := by
  simp only [rxFail, readReg_next]
  constructor
  · rintro ⟨o, ho, h⟩; cases o <;> simp_all
  · rintro (⟨ho, h⟩ | ⟨ho | ho, h⟩)
    · exact ⟨.recv, ho, by simpa using h⟩
    · exact ⟨.send, ho, h⟩
    · exact ⟨.poll, ho, h⟩

theorem rxHdr_next {r : List Byte} : rxHdr r s = .next t ↔
    (∃ st, decodeHeader s.cfg r s.ownId = .error st ∧ rxFail st (log [.read hdrLen r] s) = .next t) ∨
    (∃ i, decodeHeader s.cfg r s.ownId = .ok i ∧
      goTo .rxHdrAck
        (setRxHeader i.cmd i.src i.len (log [.read hdrLen r] s)) = t) := by
  simp only [rxHdr, log_cfg, log_ownId]; split <;> simp_all

theorem rxHdrAck_next : rxHdrAck s = .next t ↔
    ∃ len, s.rxLen = some len ∧
      ((s.cfg.rxCap < len.toNat ∧ rxFail .bufferTooSmall (sendAck s) = .next t) ∨
       (len.toNat ≤ s.cfg.rxCap ∧
        ((BitVec.ofNat 4 (nchunks len.toNat) = 0 ∧
            rxOk (setChunks 0 (sendAck s)) = .next t) ∨
         (BitVec.ofNat 4 (nchunks len.toNat) ≠ 0 ∧
            goTo .rxChunk (setChunks (BitVec.ofNat 4 (nchunks len.toNat)) (sendAck s)) = t)))) := by
  simp only [rxHdrAck, readReg_next, sendAck_rxLen]
  refine exists_congr fun l => and_congr_right fun _ => ?_
  by_cases hc : s.cfg.rxCap < l.toNat
  · simp [hc, Nat.not_le_of_lt hc]
  · rw [if_neg (show ¬ (sendAck s).cfg.rxCap < l.toNat from hc)]
    generalize BitVec.ofNat 4 (nchunks l.toNat) = n
    by_cases hz : n = 0
    · subst hz; simp [hc, Nat.le_of_not_lt hc]
    · rw [if_neg hz]; simp only [hc, Nat.le_of_not_lt hc, hz, ne_eq, not_false_eq_true, false_and, false_or, true_and,
        Host.Outcome.next.injEq]

theorem rxChunk_next {r : List Byte} : rxChunk r s = .next t ↔
    (∃ st, decodeChunk r = .error st ∧ rxFail st (log [.read chunkLen r] s) = .next t) ∨
    (∃ d i, decodeChunk r = .ok d ∧ s.chunkIdx = some i ∧ chunkData * i.toNat + d.length ≤ s.cfg.rxCap ∧
      goTo .rxChunkAck
        (setRxBuf (cellsSet s.rxBuf (chunkData * i.toNat) d) (log [.read chunkLen r] s)) = t) := by
  simp only [rxChunk]
  split <;> simp_all

theorem rxChunkAck_next : rxChunkAck s = .next t ↔
    ∃ i n, s.chunkIdx = some i ∧ s.nChunks = some n ∧
      ((i + 1 = n ∧ rxOk (setChunkIdx (i + 1) (sendAck s)) = .next t) ∨
       (i + 1 ≠ n ∧ goTo .rxChunk (setChunkIdx (i + 1) (sendAck s)) = t)) := by
  simp only [rxChunkAck, readReg_next, sendAck_chunkIdx]
  constructor
  · rintro ⟨i, hi, n, hn, h⟩
    refine ⟨i, n, hi, hn, ?_⟩
    split at h <;> simp_all
  · rintro ⟨i, n, hi, hn, h⟩
    refine ⟨i, hi, n, hn, ?_⟩
    split <;> simp_all

/-! ### The step -/

/-- What a fetched step answers. -/
def answerOf (f : Fetched) : Result :=
  match f with
  | .run i t => exec i t
  | .answer r => r

@[simp] theorem answerOf_run (i : Instr) (s : State) : answerOf (.run i s) = exec i s := rfl

@[simp] theorem answerOf_answer (r : Result) : answerOf (.answer r) = r := rfl

theorem step_eq (s : State) : step s = answerOf (fetch s) := rfl

/-- A header read in RX_HDR, full or short, goes to the step of R102. -/
theorem fetchHeader_cons {r : List Byte} {rest : List (List Byte)} (hf : s.fsm = .rxHdr)
    (hr : s.env.reads = r :: rest) :
    answerOf (fetchHeader s) = rxHdr (r.take hdrLen) (setReads rest s) := by
  cases hd : decodeHeaderUnit (r.take hdrLen) with
  | error e => simp [fetchHeader, hr, decode, hd]
  | ok i =>
    obtain ⟨m, n, v, c, sn, tg, l, k, rfl, hb⟩ := decodeHeaderUnit_ok hd
    simp [fetchHeader, hr, decode, hd, exec, execHeader, hf, ← hb]

/-- A chunk read in RX_CHUNK, full or short, goes to the step of R104. -/
theorem fetchChunk_cons {r : List Byte} {rest : List (List Byte)} (hf : s.fsm = .rxChunk)
    (hr : s.env.reads = r :: rest) :
    answerOf (fetchChunk s) = rxChunk (r.take chunkLen) (setReads rest s) := by
  cases hd : decodeChunkUnit (r.take chunkLen) with
  | error e => simp [fetchChunk, hr, decode, hd]
  | ok i =>
    obtain ⟨d, k, rfl, hb, _⟩ := decodeChunkUnit_ok hd
    simp [fetchChunk, hr, decode, hd, exec, execChunk, hf, ← hb]

/-- A byte read in AW_READ goes to the step of R93. -/
theorem fetchAck_cons {b : Byte} {rest : List Byte} (hf : s.fsm = .awRead) (hr : s.env.bytes = b :: rest) :
    answerOf (fetchAck s) = awRead b (setBytes rest s) := by
  simp [fetchAck, hr, decode, decodeAckUnit, exec, execAck, hf]

/-- What a state that listens to the host can answer. -/
theorem fetchHost_next : answerOf (fetchHost s) = .next t ↔
    (s.env.host = [] ∧ s = t) ∨
    (∃ q data rest i, s.env.host = .request q data :: rest ∧ decode (.request q data) = .ok i ∧
      exec i (setHost rest s) = .next t) ∨
    (∃ q data rest e, s.env.host = .request q data :: rest ∧ decode (.request q data) = .error e ∧
      refuseDescriptor (setHost rest s) = .next t) := by
  unfold fetchHost
  rcases h : s.env.host with _ | ⟨⟨q, data⟩, rest⟩
  · simp
  · cases hd : decode (.request q data) <;> simp [hd]

/-- An enabled state that answers a next state is unmarked and well configured. -/
theorem whenEnabled_next {f : Fetched} : answerOf (whenEnabled s f) = .next t ↔
    s.mark = none ∧ cfgOk s.cfg = true ∧ answerOf f = .next t := by
  unfold whenEnabled
  cases hm : s.mark with
  | some m => simp
  | none => by_cases hc : cfgOk s.cfg = true <;> simp [hc]

/-- A step is an explicit reset, an access to the buffer, or the block's step with the next act one step nearer. -/
theorem step_next : step s = .next t ↔
    (s.env.acts = [] ∧ answerOf (whenEnabled s (fetchByState s)) = .next t) ∨
    (∃ rest, s.env.acts = (0, .reset) :: rest ∧ takeReset (setActs rest s) = t) ∨
    (∃ ref rest, s.env.acts = (0, .access ref) :: rest ∧ s.mark = none ∧ cfgOk s.cfg = true ∧
      goodRef s.hist = some ref ∧ setActs rest s = t) ∨
    (∃ k a rest, s.env.acts = (k + 1, a) :: rest ∧
      answerOf (whenEnabled (setActs ((k, a) :: rest) s) (fetchByState (setActs ((k, a) :: rest) s))) = .next t) := by
  rw [step_eq, fetch]
  rcases h : s.env.acts with _ | ⟨⟨_ | k, _ | ref⟩, rest⟩ <;> simp [whenEnabled_next, accessBuffer_next]

theorem noReset_of_noAct (h : noAct s = true) : noReset s = true := by
  unfold noAct at h; unfold noReset
  rcases hs : s.env.acts with _ | ⟨⟨_ | k, a⟩, rest⟩ <;> simp_all

/-- A step of an undisturbed state is the one its `fsm` gives. -/
theorem step_undisturbed (h : Undisturbed s) : step s = answerOf (fetchByState s) := by
  simp [step_eq, fetch, whenEnabled, h.mark, h.acts, h.config]

end Sys2Proof.Machine
end

