-- ==== Sys2Proof/Laws/Cases.lean ====
section
/-! SUPPORT. Every next state a step can answer, as one relation: a step that answers a next state is one of these cases.
Proofs of whole-machine statements split on it and never unfold the machine. -/

namespace Sys2Proof.Machine

/-- How a failed receive ends (R107, R113): `u` is the state of the failing step, `t` the next one. -/
inductive Failed (st : Status) (u : State) : State → Prop where
  | receive (ho : u.origin = some .recv) : Failed st u (complete { status := st } u)
  | drop (ho : u.origin = some .send ∨ u.origin = some .poll) (hd : u.diagEn = false) :
      Failed st u (complete { status := .ok, delivered := some false } u)
  | dropLogged (ho : u.origin = some .send ∨ u.origin = some .poll) (hd : u.diagEn = true) :
      Failed st u (complete { status := .ok, delivered := some false } (log [.diag (statusCode st)] u))

/-- How a whole message is handed over (R106, R111). -/
inductive HandedOver (u : State) : State → Prop where
  | receive (cmd : Byte) (src : Nibble) (len : Half) (p : List Byte) (ho : u.origin = some .recv)
      (hc : u.rxCmd = some cmd) (hs : u.rxSrc = some src) (hl : u.rxLen = some len)
      (hp : cellsAt u.rxBuf 0 len.toNat = some p) :
      HandedOver u
        (complete { status := .ok, cmd := some cmd, src := some src, len := some len, payload := some p } u)
  | deliver (token : Half) (cmd : Byte) (src : Nibble) (len : Half) (p : List Byte)
      (ho : u.origin = some .send ∨ u.origin = some .poll) (hh : u.handler = some token)
      (hc : u.rxCmd = some cmd) (hs : u.rxSrc = some src) (hl : u.rxLen = some len)
      (hp : cellsAt u.rxBuf 0 len.toNat = some p) :
      HandedOver u (goTo .deliver (log [.deliver token cmd src p len] u))

/-- What the acknowledged unit leads to (R98). -/
inductive Acked (u : State) : State → Prop where
  | done (i n : BitVec 4) (hi : u.chunkIdx = some i) (hn : u.nChunks = some n) (he : i = n) :
      Acked u (complete { status := .ok } u)
  | more (i n : BitVec 4) (p : List Byte) (hi : u.chunkIdx = some i) (hn : u.nChunks = some n) (he : i ≠ n)
      (hp : u.txPayload = some p) :
      Acked u (goTo .txChunk (setChkReg (encodeChunk p i.toNat) u))

/-- What an instruction the host presents can do when it is accepted (R60, R74, R96, R101, R109, R112, R115 to R117). -/
inductive Accepted (u : State) : Instr → State → Prop where
  | send (a b : Nibble) (cmd : Byte) (n : Half) (data : List Byte) (hf : u.fsm = .idle)
      (hl : data.length = n.toNat) (hm : n.toNat ≤ maxPayload) :
      Accepted u (.send a b cmd n data)
        (goTo .txHdr
          (latchSend cmd a b n data (encodeHeader u.cfg cmd a b n) (BitVec.ofNat 4 (nchunks n.toNat))
            (logReq .send a b cmd n data u)))
  | receive (hf : u.fsm = .idle) :
      Accepted u .receive (goTo .rxHdr (setOrigin .recv (logReq .receive 0 0 0 0 [] u)))
  | poll (hf : u.fsm = .idle) :
      Accepted u .poll (goTo .rxAvail (setOrigin .poll (logReq .poll 0 0 0 0 [] u)))
  | checksum (n : Half) (data : List Byte) (hf : u.fsm = .idle) (hl : data.length = n.toNat) :
      Accepted u (.checksum n data)
        (complete { status := .ok, crc := some (crc8 data) } (logReq .checksum 0 0 0 n data u))
  | setId (a : Nibble) (hf : u.fsm = .idle) (hk : u.idLocked = false) :
      Accepted u (.setId a) (complete { status := .ok } (setIdentity a (logReq .setId a 0 0 0 [] u)))
  | registerHandler (n : Half) (hf : u.fsm = .idle) :
      Accepted u (.registerHandler n)
        (complete { status := .ok } (setHandler n (logReq .registerHandler 0 0 0 n [] u)))
  | attachDiag (en : Bool) (hf : u.fsm = .idle) :
      Accepted u (.attachDiag en)
        (complete { status := .ok } (setDiagEn en (logReq .attachDiag (enField en) 0 0 0 [] u)))
  | handlerDone (hf : u.fsm = .deliver) :
      Accepted u .handlerDone
        (complete { status := .ok, delivered := some true } (logReq .handlerDone 0 0 0 0 [] u))

/-- Every next state of a step that is the block's own and no act from outside, by the state of `fsm` (R19). -/
inductive Took (s : State) : State → Prop where
  | wait (hw : answered s = false) : Took s s
  | accepted {t : State} (q : Descriptor) (data : Option (List Byte)) (rest : List HostInput) (i : Instr)
      (hh : s.env.host = .request q data :: rest) (hd : decode (.request q data) = .ok i)
      (ha : Accepted (setHost rest s) i t) : Took s t
  | txHdr (h : List Byte) (hf : s.fsm = .txHdr) (hr : s.hdrReg = some h) :
      Took s (awaitAck .hdr (log [.write h] s))
  | txChunk (c : List Byte) (hf : s.fsm = .txChunk) (hr : s.chkReg = some c) :
      Took s (awaitAck .chunk (log [.write c] s))
  | polled (a : Nat) (rest : List Nat) (hf : s.fsm = .awPoll) (ha : s.env.avails = a :: rest) (hp : 0 < a) :
      Took s (goTo .awRead (log [.avail a] (setAvails rest s)))
  | empty (rest : List Nat) (k : BitVec 7) (hf : s.fsm = .awPoll) (ha : s.env.avails = 0 :: rest)
      (hk : s.ackAttempts = some k) (hn : (k + 1).toNat ≠ ackPollAttempts) :
      Took s (goTo .awSleep (setAckAttempts (k + 1) (log [.avail 0] (setAvails rest s))))
  | timeout (rest : List Nat) (k : BitVec 7) (hf : s.fsm = .awPoll) (ha : s.env.avails = 0 :: rest)
      (hk : s.ackAttempts = some k) (hn : (k + 1).toNat = ackPollAttempts) :
      Took s (complete { status := .badAck } (setAckAttempts (k + 1) (log [.avail 0] (setAvails rest s))))
  | slept (k : Nat) (hf : s.fsm = .awSleep) (hk : s.env.ticks = k + 1) :
      Took s (goTo .awPoll (log [.tick] (setTicks k s)))
  | mismatch (b : Byte) (rest : List Byte) (hf : s.fsm = .awRead) (hb : s.env.bytes = b :: rest)
      (hn : b ≠ s.cfg.ack) : Took s (complete { status := .badAck } (log [.readByte b] (setBytes rest s)))
  | ackedHdr {t : State} (rest : List Byte) (hf : s.fsm = .awRead) (hb : s.env.bytes = s.cfg.ack :: rest)
      (hu : s.ackUnit = some .hdr) (ha : Acked (log [.readByte s.cfg.ack] (setBytes rest s)) t) : Took s t
  | ackedChunk {t : State} (rest : List Byte) (i : BitVec 4) (hf : s.fsm = .awRead)
      (hb : s.env.bytes = s.cfg.ack :: rest) (hu : s.ackUnit = some .chunk) (hi : s.chunkIdx = some i)
      (ha : Acked (setChunkIdx (i + 1) (log [.readByte s.cfg.ack] (setBytes rest s))) t) : Took s t
  | nothing (rest : List Nat) (hf : s.fsm = .rxAvail) (ha : s.env.avails = 0 :: rest) :
      Took s (complete { status := .ok, delivered := some false } (log [.avail 0] (setAvails rest s)))
  | pending (a : Nat) (rest : List Nat) (hf : s.fsm = .rxAvail) (ha : s.env.avails = a :: rest) (hp : a ≠ 0) :
      Took s (goTo .rxHdr (log [.avail a] (setAvails rest s)))
  | badHeader {t : State} (r : List Byte) (rest : List (List Byte)) (st : Status) (hf : s.fsm = .rxHdr)
      (hr : s.env.reads = r :: rest) (hd : decodeHeader s.cfg (r.take hdrLen) s.ownId = .error st)
      (ht : Failed st (log [.read hdrLen (r.take hdrLen)] (setReads rest s)) t) : Took s t
  | goodHeader (r : List Byte) (rest : List (List Byte)) (h : HeaderInfo) (hf : s.fsm = .rxHdr)
      (hr : s.env.reads = r :: rest) (hd : decodeHeader s.cfg (r.take hdrLen) s.ownId = .ok h) :
      Took s
        (goTo .rxHdrAck
          (setRxHeader h.cmd h.src h.len (log [.read hdrLen (r.take hdrLen)] (setReads rest s))))
  | tooLong {t : State} (l : Half) (hf : s.fsm = .rxHdrAck) (hl : s.rxLen = some l)
      (hc : s.cfg.rxCap < l.toNat) (ht : Failed .bufferTooSmall (sendAck s) t) : Took s t
  | noChunk {t : State} (l : Half) (hf : s.fsm = .rxHdrAck) (hl : s.rxLen = some l) (hc : l.toNat ≤ s.cfg.rxCap)
      (hz : BitVec.ofNat 4 (nchunks l.toNat) = 0) (ht : HandedOver (setChunks 0 (sendAck s)) t) : Took s t
  | firstChunk (l : Half) (hf : s.fsm = .rxHdrAck) (hl : s.rxLen = some l) (hc : l.toNat ≤ s.cfg.rxCap)
      (hz : BitVec.ofNat 4 (nchunks l.toNat) ≠ 0) :
      Took s (goTo .rxChunk (setChunks (BitVec.ofNat 4 (nchunks l.toNat)) (sendAck s)))
  | badChunk {t : State} (r : List Byte) (rest : List (List Byte)) (st : Status) (hf : s.fsm = .rxChunk)
      (hr : s.env.reads = r :: rest) (hd : decodeChunk (r.take chunkLen) = .error st)
      (ht : Failed st (log [.read chunkLen (r.take chunkLen)] (setReads rest s)) t) : Took s t
  | goodChunk (r d : List Byte) (rest : List (List Byte)) (i : BitVec 4) (hf : s.fsm = .rxChunk)
      (hr : s.env.reads = r :: rest) (hd : decodeChunk (r.take chunkLen) = .ok d) (hi : s.chunkIdx = some i)
      (hc : chunkData * i.toNat + d.length ≤ s.cfg.rxCap) :
      Took s
        (goTo .rxChunkAck
          (setRxBuf (cellsSet s.rxBuf (chunkData * i.toNat) d)
            (log [.read chunkLen (r.take chunkLen)] (setReads rest s))))
  | lastChunk {t : State} (i n : BitVec 4) (hf : s.fsm = .rxChunkAck) (hi : s.chunkIdx = some i)
      (hn : s.nChunks = some n) (he : i + 1 = n) (ht : HandedOver (setChunkIdx (i + 1) (sendAck s)) t) : Took s t
  | nextChunk (i n : BitVec 4) (hf : s.fsm = .rxChunkAck) (hi : s.chunkIdx = some i) (hn : s.nChunks = some n)
      (he : i + 1 ≠ n) : Took s (goTo .rxChunk (setChunkIdx (i + 1) (sendAck s)))

variable {s t : State}

theorem failed_of_next {st : Status} (h : rxFail st s = .next t) : Failed st s t := by
  rcases rxFail_next.1 h with ⟨ho, rfl⟩ | ⟨ho, h⟩
  · exact .receive ho
  · rw [dispatchDrop_next] at h
    cases hd : s.diagEn <;> simp only [hd, if_true, Bool.false_eq_true, if_false] at h <;> subst h
    · exact .drop ho hd
    · exact .dropLogged ho hd

theorem handedOver_of_next (h : rxOk s = .next t) : HandedOver s t := by
  rcases rxOk_next.1 h with ⟨ho, c, a, l, p, hc, ha, hl, hp, rfl⟩ | ⟨ho, h⟩
  · exact .receive c a l p ho hc ha hl hp
  · obtain ⟨k, c, a, l, p, hh, hc, ha, hl, hp, rfl⟩ := dispatchDeliver_next.1 h
    exact .deliver k c a l p ho hh hc ha hl hp

theorem acked_of_next (h : nextUnit s = .next t) : Acked s t := by
  obtain ⟨i, n, hi, hn, ⟨he, rfl⟩ | ⟨he, p, hp, rfl⟩⟩ := nextUnit_next.1 h
  · exact .done i n hi hn he
  · exact .more i n p hi hn he hp

/-- A request that answers a next state was accepted, or the block is busy and nothing changed. -/
theorem accepted_of_next {i : Instr} (hr : isRequest i = true) (h : exec i s = .next t) :
    Accepted s i t ∨ (s.fsm ≠ .idle ∧ s.fsm ≠ .deliver ∧ s = t) := by
  cases i <;> simp only [exec] at h
  case send =>
    rcases execSend_next.1 h with ⟨hf, hl, hm, rfl⟩ | h
    · exact .inl (.send _ _ _ _ _ hf hl hm)
    · exact .inr h
  case receive =>
    rcases execReceive_next.1 h with ⟨hf, rfl⟩ | h
    · exact .inl (.receive hf)
    · exact .inr h
  case poll =>
    rcases execPoll_next.1 h with ⟨hf, rfl⟩ | h
    · exact .inl (.poll hf)
    · exact .inr h
  case checksum =>
    rcases execChecksum_next.1 h with ⟨hf, hl, rfl⟩ | h
    · exact .inl (.checksum _ _ hf hl)
    · exact .inr h
  case setId =>
    rcases execSetId_next.1 h with ⟨hf, hk, rfl⟩ | h
    · exact .inl (.setId _ hf hk)
    · exact .inr h
  case registerHandler =>
    rcases execRegisterHandler_next.1 h with ⟨hf, rfl⟩ | h
    · exact .inl (.registerHandler _ hf)
    · exact .inr h
  case attachDiag =>
    rcases execAttachDiag_next.1 h with ⟨hf, rfl⟩ | h
    · exact .inl (.attachDiag _ hf)
    · exact .inr h
  case handlerDone =>
    rcases execHandlerDone_next.1 h with ⟨hf, rfl⟩ | h
    · exact .inl (.handlerDone hf)
    · exact .inr h
  all_goals cases hr

/-- What a host request decodes to is a request. -/
theorem isRequest_of_decode {q : Descriptor} {data : Option (List Byte)} {i : Instr}
    (h : decode (.request q data) = .ok i) : isRequest i = true := by
  simp only [decode, decodeRequest] at h
  split at h
  · cases h
  · rename_i o _
    split at h
    · split at h
      · cases h
      · cases h; cases o <;> rfl
    · cases h

theorem took_of_host (hf : s.fsm = .idle ∨ s.fsm = .deliver) (h : answerOf (fetchHost s) = .next t) : Took s t := by
  rcases fetchHost_next.1 h with ⟨hh, rfl⟩ | ⟨q, data, rest, i, hh, hd, h⟩ | ⟨q, data, rest, e, _, _, h⟩
  · exact .wait (by rcases hf with hf | hf <;> simp [answered, hf, hh])
  · rcases accepted_of_next (isRequest_of_decode hd) h with h | ⟨h1, h2, _⟩
    · exact .accepted q data rest i hh hd h
    · rcases hf with hf | hf
      · exact absurd hf h1
      · exact absurd hf h2
  · obtain ⟨h1, h2, _⟩ := (refuseDescriptor_next _ _).1 h
    rcases hf with hf | hf
    · exact absurd hf h1
    · exact absurd hf h2

/-- The step that `fsm` gives, when it answers a next state, is one of the cases. -/
theorem took_of_fetch (h : answerOf (fetchByState s) = .next t) : Took s t := by
  unfold fetchByState at h
  cases hf : s.fsm <;> simp only [hf] at h
  case idle => exact took_of_host (.inl hf) h
  case deliver => exact took_of_host (.inr hf) h
  case txHdr =>
    obtain ⟨c, hr, rfl⟩ := txHdr_next.1 h
    exact .txHdr c hf hr
  case txChunk =>
    obtain ⟨c, hr, rfl⟩ := txChunk_next.1 h
    exact .txChunk c hf hr
  case awPoll =>
    rcases awPoll_next.1 h with ⟨ha, rfl⟩ | ⟨a, rest, ha, ⟨hp, rfl⟩ | ⟨rfl, k, hk, ⟨hn, rfl⟩ | ⟨hn, rfl⟩⟩⟩
    · exact .wait (by simp [answered, hf, ha])
    · exact .polled a rest hf ha hp
    · exact .timeout rest k hf ha hk hn
    · exact .empty rest k hf ha hk hn
  case awSleep =>
    rcases awSleep_next.1 h with ⟨hk, rfl⟩ | ⟨k, hk, rfl⟩
    · exact .wait (by simp [answered, hf, hk])
    · exact .slept k hf hk
  case awRead =>
    rcases hb : s.env.bytes with _ | ⟨b, rest⟩
    · simp only [fetchAck, hb, answerOf_answer, Host.Outcome.next.injEq] at h; subst h; exact .wait (by simp [answered, hf, hb])
    · rw [fetchAck_cons hf hb] at h
      rcases awRead_next.1 h with ⟨he, h⟩ | ⟨he, rfl⟩
      · rw [setBytes_cfg] at he; subst he
        rcases ackOk_next.1 h with ⟨hu, h⟩ | ⟨hu, i, hi, h⟩
        · exact .ackedHdr rest hf hb hu (acked_of_next h)
        · exact .ackedChunk rest i hf hb hu hi (acked_of_next h)
      · exact .mismatch b rest hf hb he
  case rxAvail =>
    rcases rxAvail_next.1 h with ⟨ha, rfl⟩ | ⟨a, rest, ha, ⟨rfl, rfl⟩ | ⟨hp, rfl⟩⟩
    · exact .wait (by simp [answered, hf, ha])
    · exact .nothing rest hf ha
    · exact .pending a rest hf ha hp
  case rxHdr =>
    rcases hb : s.env.reads with _ | ⟨r, rest⟩
    · simp only [fetchHeader, hb, answerOf_answer, Host.Outcome.next.injEq] at h; subst h; exact .wait (by simp [answered, hf, hb])
    · rw [fetchHeader_cons hf hb] at h
      rcases rxHdr_next.1 h with ⟨st, hd, h⟩ | ⟨i, hd, rfl⟩
      · exact .badHeader r rest st hf hb hd (failed_of_next h)
      · exact .goodHeader r rest i hf hb hd
  case rxHdrAck =>
    obtain ⟨l, hl, ⟨hc, h⟩ | ⟨hc, ⟨hz, h⟩ | ⟨hz, rfl⟩⟩⟩ := rxHdrAck_next.1 h
    · exact .tooLong l hf hl hc (failed_of_next h)
    · exact .noChunk l hf hl hc hz (handedOver_of_next h)
    · exact .firstChunk l hf hl hc hz
  case rxChunk =>
    rcases hb : s.env.reads with _ | ⟨r, rest⟩
    · simp only [fetchChunk, hb, answerOf_answer, Host.Outcome.next.injEq] at h; subst h; exact .wait (by simp [answered, hf, hb])
    · rw [fetchChunk_cons hf hb] at h
      rcases rxChunk_next.1 h with ⟨st, hd, h⟩ | ⟨d, i, hd, hi, hc, rfl⟩
      · exact .badChunk r rest st hf hb hd (failed_of_next h)
      · exact .goodChunk r d rest i hf hb hd hi hc
  case rxChunkAck =>
    obtain ⟨i, n, hi, hn, ⟨he, h⟩ | ⟨he, rfl⟩⟩ := rxChunkAck_next.1 h
    · exact .lastChunk i n hf hi hn he (handedOver_of_next h)
    · exact .nextChunk i n hf hi hn he

/-- A step of a state with no reset due is one of the cases, on the state with the next act one step nearer, or an access
through the reference that holds, which only leaves the schedule of acts. -/
theorem took_of_step (hn : noReset s = true) (h : step s = .next t) :
    (∃ x, Took (setActs x s) t) ∨
    ∃ ref rest, s.env.acts = (0, .access ref) :: rest ∧ goodRef s.hist = some ref ∧ setActs rest s = t := by
  have e : setActs s.env.acts s = s := rfl
  rcases step_next.1 h with ⟨hr, h⟩ | ⟨rest, hr, _⟩ | ⟨ref, rest, hr, _, _, hg, h⟩ | ⟨k, a, rest, _, h⟩
  · exact .inl ⟨s.env.acts, e ▸ took_of_fetch (whenEnabled_next.1 h).2.2⟩
  · simp [noReset, hr] at hn
  · exact .inr ⟨ref, rest, hr, hg, h⟩
  · exact .inl ⟨(k, a) :: rest, took_of_fetch (whenEnabled_next.1 h).2.2⟩

/-- A step of a state with no act from outside due is one of the cases. -/
theorem took_of_noAct (hn : noAct s = true) (h : step s = .next t) : ∃ x, Took (setActs x s) t := by
  rcases took_of_step (noReset_of_noAct hn) h with h | ⟨ref, rest, ha, _⟩
  · exact h
  · simp [noAct, ha] at hn

end Sys2Proof.Machine
end

