-- ==== Sys2Proof/Laws/Crc.lean ====
section
/-! SUPPORT. The Checksum-8 unit as a linear map: what one turn of the loop does with an exclusive or, and that the
accumulator and the byte enter only through their exclusive or (spec/40_checksum.md R72, R75). -/

namespace Sys2Proof.Machine

/-- One turn with its condition as a bit. -/
theorem crcShift_eq (a b : Byte) :
    crcShift a b = (a >>> 1) ^^^ (if a.getLsbD 0 ^^ b.getLsbD 0 then crcPoly else 0) := by
  have key : ∀ x : Byte, (x &&& 0x01 = 1) = (x.getLsbD 0 = true) := by decide +kernel
  have e := key (a ^^^ b)
  simp only [BitVec.getLsbD_xor] at e
  unfold crcShift
  by_cases h : (a.getLsbD 0 ^^ b.getLsbD 0) = true
  · rw [if_pos (e.mpr h), if_pos h]
  · rw [if_neg (fun c => h (e.mp c)), if_neg h]; simp

/-- One turn on the exclusive or of two pairs is the exclusive or of the turns. -/
theorem crcShift_xor (a b c d : Byte) :
    crcShift (a ^^^ c) (b ^^^ d) = crcShift a b ^^^ crcShift c d := by
  have p0 : ∀ x y : Byte, (x ^^^ y) ^^^ 0 = (x ^^^ crcPoly) ^^^ (y ^^^ crcPoly) := fun x y => by
    rw [show (x ^^^ crcPoly) ^^^ (y ^^^ crcPoly) = x ^^^ y ^^^ (crcPoly ^^^ crcPoly) by ac_rfl, BitVec.xor_self]
    rfl
  simp only [crcShift_eq, BitVec.ushiftRight_xor_distrib, BitVec.getLsbD_xor]
  generalize a.getLsbD 0 = x, b.getLsbD 0 = y, c.getLsbD 0 = z, d.getLsbD 0 = w
  generalize a >>> 1 = u, c >>> 1 = v
  cases x <;> cases y <;> cases z <;> cases w <;> first | exact p0 u v | (simp; try ac_rfl)

/-- The loop on the exclusive or of two pairs is the exclusive or of the loops. -/
theorem crcTurns_xor (k : Nat) (a b c d : Byte) :
    crcTurns k (a ^^^ c) (b ^^^ d) = crcTurns k a b ^^^ crcTurns k c d := by
  induction k generalizing a b c d with
  | zero => rfl
  | succ k ih => simp only [crcTurns, crcShift_xor, BitVec.ushiftRight_xor_distrib, ih]

/-- One byte's step is linear in the pair of accumulator and byte. -/
theorem crc8Step_xor (a b c d : Byte) :
    crc8Step (a ^^^ c) (b ^^^ d) = crc8Step a b ^^^ crc8Step c d := crcTurns_xor 8 a b c d

@[simp] theorem crc8Step_zero : crc8Step 0 0 = 0 := by decide +kernel

/-- A byte equal to the accumulator clears it: the residue of one step. -/
theorem crc8Step_self (a : Byte) : crc8Step a a = 0 := by
  revert a; decide +kernel

/-- The step with a zero byte is injective in the accumulator. -/
theorem crc8Step_eq_zero (a : Byte) : crc8Step a 0 = 0 ↔ a = 0 := by
  revert a; decide +kernel

@[simp] theorem crc8_nil : crc8 [] = 0 := rfl

theorem crc8_append (s : List Byte) (b : Byte) : crc8 (s ++ [b]) = crc8Step (crc8 s) b := by
  simp [crc8]

end Sys2Proof.Machine
end

