-- ==== Sys2Proof/Laws/PerInstr.lean ====
section
/-! SUPPORT. The family RoundTrip: an instruction whose chunk data, if any, has 32 bytes is what the decoder reads from
its own code (spec/30_encoding.md R54, R56, R61, R62). -/

namespace Sys2Proof.Laws.RoundTrip

open Sys2Proof.Machine

/-- Decoding the code of a well-formed instruction gives the instruction. -/
def Statement (i : Instr) : Prop := i.wf = true → decode (encode i) = .ok i

theorem send (a b : Nibble) (cmd : Byte) (n : Half) (data : List Byte) :
    Statement (.send a b cmd n data) := fun _ => by
  simp only [encode, decode]
  rw [decodeRequest_of_mask .send _ _ (by simp) (mask_send a b cmd n) rfl]
  simp [requestOf]

theorem receive : Statement .receive := fun _ => by rfl

theorem poll : Statement .poll := fun _ => by rfl

theorem checksum (n : Half) (data : List Byte) : Statement (.checksum n data) := fun _ => by
  simp only [encode, decode]
  rw [decodeRequest_of_mask .checksum _ _ (by simp) (mask_checksum n) rfl]
  simp [requestOf]

theorem setId (a : Nibble) : Statement (.setId a) := fun _ => by
  simp only [encode, decode]
  rw [decodeRequest_of_mask .setId _ _ (by simp) (mask_setId a) rfl]
  simp [requestOf]

theorem registerHandler (n : Half) : Statement (.registerHandler n) := fun _ => by
  simp only [encode, decode]
  rw [decodeRequest_of_mask .registerHandler _ _ (by simp) (mask_registerHandler n) rfl]
  simp [requestOf]

theorem attachDiag (en : Bool) : Statement (.attachDiag en) := fun _ => by
  simp only [encode, decode]
  rw [decodeRequest_of_mask .attachDiag _ _ (by simp) (mask_attachDiag en) rfl]
  simp [requestOf]

theorem handlerDone : Statement .handlerDone := fun _ => by rfl

theorem header (m n v c : Byte) (s t : Nibble) (l : Half) (k : Byte) :
    Statement (.header m n v c s t l k) := fun _ => by
  simp [encode, decode, decodeHeaderUnit, headerBytes]

theorem chunk (d : List Byte) (k : Byte) : Statement (.chunk d k) := fun h => by
  have hd : d.length = chunkData := by simpa [Instr.wf] using h
  have hl : (d ++ [k]).length = chunkLen := by simp [hd, chunkData, chunkLen]
  have hk : byteAt (d ++ [k]) chunkData = k := by simp [byteAt, ← hd]
  have ht : (d ++ [k]).take chunkData = d := by simp [← hd]
  simp only [encode, decode, decodeChunkUnit, hl, hk, ht, if_true]

theorem ack (a : Byte) : Statement (.ack a) := fun _ => by rfl

end Sys2Proof.Laws.RoundTrip
end

