-- ==== Sys2Proof/Laws/Stops.lean ====
section
/-! SUPPORT. Every fault and refusal of a step is made by `stop`: the state it leaves carries the mark of its reason
(spec/60_exceptions.md R126, R127). -/

namespace Sys2Proof.Machine

/-- A next state, or a stop whose left state carries the mark of its reason. -/
inductive MarkedStop : Result → Prop where
  | next (x : State) : MarkedStop (.next x)
  | stop (m : Mark) (x : State) : MarkedStop (stop m x)

theorem MarkedStop.of_stop {r : Result} (m : Mark) (x : State) (h : r = Machine.stop m x) : MarkedStop r :=
  h ▸ .stop m x

theorem readReg_marked {α : Type} (r : Option α) (s : State) (k : α → Result) (h : ∀ v, MarkedStop (k v)) :
    MarkedStop (readReg r s k) := by
  cases r
  · exact .of_stop .unwrittenRead s rfl
  · exact h _

theorem memRead_marked (off n : Nat) (s : State) (k : List Byte → Result) (h : ∀ v, MarkedStop (k v)) :
    MarkedStop (memRead off n s k) := by
  unfold memRead; split
  · exact h _
  · exact .stop _ _

theorem memWrite_marked (off : Nat) (v : List Byte) (s : State) (k : State → Result) (h : ∀ v, MarkedStop (k v)) :
    MarkedStop (memWrite off v s k) := by
  unfold memWrite; split
  · exact h _
  · exact .stop _ _

theorem respond_marked (r : Resp) (s : State) : MarkedStop (respond r s) := .next _

theorem acceptRequest_marked (s : State) (b : Result) (h : MarkedStop b) : MarkedStop (acceptRequest s b) := by
  unfold acceptRequest; split <;> first | exact h | exact .stop _ _ | exact .next _

theorem acceptDone_marked (s : State) (b : Result) (h : MarkedStop b) : MarkedStop (acceptDone s b) := by
  unfold acceptDone; split <;> first | exact h | exact .stop _ _ | exact .next _

theorem refuseDescriptor_marked (s : State) : MarkedStop (refuseDescriptor s) := by
  unfold refuseDescriptor; split <;> first | exact .stop _ _ | exact .next _

theorem askAvail_marked (s : State) (k : Nat → State → Result) (h : ∀ a t, MarkedStop (k a t)) :
    MarkedStop (askAvail s k) := by
  unfold askAvail; split
  · exact .next _
  · exact h _ _

theorem dispatchDeliver_marked (s : State) : MarkedStop (dispatchDeliver s) := by
  unfold dispatchDeliver; split
  · exact .stop _ _
  · exact readReg_marked _ _ _ fun _ => readReg_marked _ _ _ fun _ => readReg_marked _ _ _ fun _ =>
      memRead_marked _ _ _ _ fun _ => .next _

theorem rxOk_marked (s : State) : MarkedStop (rxOk s) := by
  refine readReg_marked _ _ _ fun o => ?_
  cases o
  · exact dispatchDeliver_marked _
  · exact readReg_marked _ _ _ fun _ => readReg_marked _ _ _ fun _ => readReg_marked _ _ _ fun _ =>
      memRead_marked _ _ _ _ fun _ => .next _
  · exact dispatchDeliver_marked _

theorem rxFail_marked (st : Status) (s : State) : MarkedStop (rxFail st s) := by
  refine readReg_marked _ _ _ fun o => ?_
  cases o <;> exact .next _

theorem nextUnit_marked (s : State) : MarkedStop (nextUnit s) := by
  refine readReg_marked _ _ _ fun o => readReg_marked _ _ _ fun o => ?_
  split
  · exact .next _
  · exact readReg_marked _ _ _ fun o => .next _

theorem ackOk_marked (s : State) : MarkedStop (ackOk s) := by
  refine readReg_marked _ _ _ fun o => ?_
  cases o
  · exact nextUnit_marked _
  · exact readReg_marked _ _ _ fun _ => nextUnit_marked _

theorem awRead_marked (b : Byte) (s : State) : MarkedStop (awRead b s) := by
  unfold awRead; dsimp only; split
  · exact ackOk_marked _
  · exact .next _

theorem rxHdr_marked (r : List Byte) (s : State) : MarkedStop (rxHdr r s) := by
  unfold rxHdr; dsimp only; split
  · exact rxFail_marked _ _
  · exact .next _

theorem rxChunk_marked (r : List Byte) (s : State) : MarkedStop (rxChunk r s) := by
  unfold rxChunk; dsimp only; split
  · exact rxFail_marked _ _
  · exact readReg_marked _ _ _ fun _ => memWrite_marked _ _ _ _ fun _ => .next _

theorem exec_marked (i : Instr) (s : State) : MarkedStop (exec i s) := by
  cases i <;> unfold exec <;> dsimp only
  case send => refine acceptRequest_marked _ _ ?_; split; exact .stop _ _; split; exact .stop _ _; exact .next _
  case receive => exact acceptRequest_marked _ _ (.next _)
  case poll => exact acceptRequest_marked _ _ (.next _)
  case checksum => refine acceptRequest_marked _ _ ?_; split; exact .stop _ _; exact .next _
  case setId => refine acceptRequest_marked _ _ ?_; split; exact .stop _ _; exact .next _
  case registerHandler => exact acceptRequest_marked _ _ (.next _)
  case attachDiag => exact acceptRequest_marked _ _ (.next _)
  case handlerDone => exact acceptDone_marked _ _ (.next _)
  case header => unfold execHeader; split; exact rxHdr_marked _ _; exact .next _
  case chunk => unfold execChunk; split; exact rxChunk_marked _ _; exact .next _
  case ack => unfold execAck; split; exact awRead_marked _ _; exact .next _

theorem fetchByState_marked (s : State) : MarkedStop (answerOf (fetchByState s)) := by
  have hh : MarkedStop (answerOf (fetchHost s)) := by
    unfold fetchHost; split
    · exact .next _
    · split
      · exact exec_marked _ _
      · exact refuseDescriptor_marked _
  unfold fetchByState
  cases s.fsm <;> simp only [answerOf_answer]
  · exact hh
  · exact readReg_marked _ _ _ fun _ => .next _
  · exact readReg_marked _ _ _ fun _ => .next _
  · refine askAvail_marked _ _ fun a t => ?_
    dsimp only; split
    · exact .next _
    · refine readReg_marked _ _ _ fun _ => ?_
      split <;> exact .next _
  · unfold awSleep; split <;> exact .next _
  · unfold fetchAck; split
    · exact .next _
    · split
      · exact exec_marked _ _
      · exact awRead_marked _ _
  · refine askAvail_marked _ _ fun a t => ?_
    split <;> exact .next _
  · unfold fetchHeader; split
    · exact .next _
    · split
      · exact exec_marked _ _
      · exact rxHdr_marked _ _
  · unfold rxHdrAck; dsimp only
    refine readReg_marked _ _ _ fun _ => ?_
    split
    · exact rxFail_marked _ _
    · split
      · exact rxOk_marked _
      · exact .next _
  · unfold fetchChunk; split
    · exact .next _
    · split
      · exact exec_marked _ _
      · exact rxChunk_marked _ _
  · unfold rxChunkAck; dsimp only
    refine readReg_marked _ _ _ fun _ => ?_
    refine readReg_marked _ _ _ fun _ => ?_
    split
    · exact rxOk_marked _
    · exact .next _
  · exact hh

theorem step_marked (s : State) : MarkedStop (step s) := by
  have en : ∀ s f, MarkedStop (answerOf f) → MarkedStop (answerOf (whenEnabled s f)) := by
    intro s f hf; unfold whenEnabled; split
    · exact .stop _ _
    · split
      · exact hf
      · exact .of_stop .badConfig s rfl
  rw [step_eq, fetch]; split
  · exact en _ _ (fetchByState_marked _)
  · exact .next _
  · refine en _ _ ?_
    simp only [answerOf_answer, accessBuffer]; split
    · exact .next _
    · exact .stop _ _
  · exact en _ _ (fetchByState_marked _)

end Sys2Proof.Machine
end

