-- ==== Sys2Proof/Tests/Slice0.lean ====
section
/-! SUPPORT. Tests on fixed values, from spec/95_test_vectors.md (its test configuration TC) and the tables of the rules,
and for each statement with hypotheses a state and operands that meet them. -/

namespace Sys2Proof.Tests

-- One declaration at a time: each waiting kernel check would hold a thread and its stack.
set_option Elab.async false

open Sys2Proof.Machine

/-! ### Helpers -/

/-- The test configuration TC of spec/95_test_vectors.md. -/
def tc : Cfg := ⟨0xC3, 0x3C, 0x02, 0x06, 320, 0, 0⟩

/-- `HELLO` in ASCII. -/
def hello : List Byte := [0x48, 0x45, 0x4C, 0x4C, 0x4F]

/-- The header of (0x10, 1, 2, 5). -/
def helloHeader : List Byte := [0xC3, 0x3C, 0x02, 0x10, 0x12, 0x00, 0x05, 0xDD]

/-- The chunk of `HELLO` (V5.1). -/
def helloChunk : List Byte := hello ++ zeros 27 ++ [0xA3]

/-- One answer of every kind. -/
def oneEach : Env := ⟨[.request 0x2 none], [1], [helloHeader], [0x06], 1, []⟩

/-- The reset state with configuration TC, `fsm` at `f`, and one answer of every kind. -/
def ready (f : Fsm) : State := { State.reset with cfg := tc, fsm := f, env := oneEach }

/-- RECEIVE waits for a header for identity 2. -/
def listening : State := { ready .rxHdr with ownId := 2, idLocked := true, origin := some .recv }

/-- A chunk of `HELLO` is to be read, its buffer position 0. -/
def chunking : State :=
  { ready .rxChunk with
    origin := some .recv, rxCmd := some 0x10, rxSrc := some 1, rxLen := some 5, nChunks := some 1, chunkIdx := some 0
    env := { oneEach with reads := [helloChunk] } }

/-- SEND of `HELLO` is accepted; the environment has 402 answers of every kind. -/
def sending : State :=
  { ready .txHdr with
    origin := some .send, txCmd := some 0x10, txSrc := some 1, txDst := some 2, txLen := some 5
    txPayload := some hello, hdrReg := some (encodeHeader tc 0x10 1 2 5), nChunks := some 1, chunkIdx := some 0
    env := ⟨[], List.replicate 402 1, List.replicate 402 [], List.replicate 402 0x06, 402, []⟩ }

/-- The acknowledgment of a SEND without chunks is to be read. -/
def acking : State :=
  { ready .awRead with
    origin := some .send, txPayload := some [], nChunks := some 0, chunkIdx := some 0, ackUnit := some .hdr
    ackAttempts := some 0 }

/-- Does an outcome answer a next state with a property? -/
def nextIs (r : Result) (p : State → Bool) : Bool :=
  match r with
  | .next t => p t
  | .fault _ => false
  | .refused _ => false

theorem exists_of_nextIs {r : Result} {p : State → Bool} (h : nextIs r p = true) : ∃ t, r = .next t ∧ p t = true := by
  cases r with
  | next t => exact ⟨t, rfl, h⟩
  | fault _ => cases h
  | refused _ => cases h

/-- Does an outcome refuse with this reason? -/
def refusesWith (r : Result) (m : Mark) : Bool :=
  match r with
  | .refused (.badDescriptor s) => decide (s.mark = some m)
  | .refused (.payloadTooLong s) => decide (s.mark = some m)
  | .refused (.idLocked s) => decide (s.mark = some m)
  | .refused (.noDelivery s) => decide (s.mark = some m)
  | .refused (.nestedRequest s) => decide (s.mark = some m)
  | .refused (.badConfig s) => decide (s.mark = some m)
  | .refused (.staleBuffer s) => decide (s.mark = some m)
  | .refused (.notModelled _) => false
  | .next _ => false
  | .fault _ => false

/-! ### WellFormed refuses -/

theorem test_wf_send_length : (Instr.send 1 2 0x10 5 [0x48, 0x45, 0x4C, 0x4C]).wf = false := by decide +kernel

theorem test_wf_send_too_long : (Instr.send 1 2 0x10 321 (zeros 321)).wf = false := by decide +kernel

theorem test_wf_checksum_length : (Instr.checksum 9 (zeros 8)).wf = false := by decide +kernel

theorem test_wf_chunk_length : (Instr.chunk (zeros 31) 0).wf = false := by decide +kernel

/-! ### Decoding, from written-out words -/

/-- SEND: n = 0x0005, cmd = 0x10, b = 2, a = 1, op = 1 (L2.12). -/
theorem test_decode_send : decode (.request (0#24 ++ 0x0005#16 ++ 0x10#8 ++ 2#4 ++ 1#4 ++ 0#4 ++ 1#4) (some hello)) =
    .ok (.send 1 2 0x10 5 hello) := by decide +kernel

theorem test_decode_receive : decode (.request 0x2 none) = .ok .receive := by decide +kernel

theorem test_decode_poll : decode (.request 0x3 none) = .ok .poll := by decide +kernel

theorem test_decode_checksum : decode (.request 0x1000004 (some [0x80])) = .ok (.checksum 1 [0x80]) := by
  decide +kernel

theorem test_decode_setId : decode (.request 0xF05 none) = .ok (.setId 15) := by decide +kernel

theorem test_decode_registerHandler : decode (.request 0x7000006 none) = .ok (.registerHandler 7) := by decide +kernel

theorem test_decode_attachDiag : decode (.request 0x107 none) = .ok (.attachDiag true) := by decide +kernel

theorem test_decode_handlerDone : decode (.request 0x8 none) = .ok .handlerDone := by decide +kernel

/-- Byte 4 is sender then target, bytes 5 and 6 the length, high byte first (R54; L2.2). -/
theorem test_decode_header : decode (.wire .header [0xC3, 0x3C, 0x02, 0xA5, 0x37, 0x01, 0x40, 0xF9]) =
    .ok (.header 0xC3 0x3C 0x02 0xA5 3 7 320 0xF9) := by decide +kernel

theorem test_decode_chunk : decode (.wire .chunk helloChunk) = .ok (.chunk (hello ++ zeros 27) 0xA3) := by
  decide +kernel

theorem test_decode_ack : decode (.wire .ack [0x06]) = .ok (.ack 0x06) := by decide +kernel

/-- The refused descriptors of L2.12. -/
theorem test_decode_refused :
    [0x0, 0x9, 0xF].map (fun q => decode (.request q none)) = List.replicate 3 (.error .reservedOp) ∧
    [0x13, 0x12, 0x103, 0x1000000003, 0x8000000000000003, 0x1205, 0x207].map (fun q => decode (.request q none)) =
      List.replicate 7 (.error .reservedBit) ∧
    decode (.request 0x2000104 (some [1, 2])) = .error .reservedBit ∧
    decode (.request 0x4 none) = .error .missingData := by decide +kernel

/-- D13: bytes with a request that takes no list; a list of length 0 is as none. -/
theorem test_decode_list : [0x2, 0x3, 0x205, 0x7000006, 0x107, 0x8].map (fun q => decode (.request q (some [0x55]))) =
      List.replicate 6 (.error .unexpectedData) ∧
    decode (.request 0x3 (some [])) = .ok .poll := by decide +kernel

/-- The columns `mask` and `match` of opcode_table.json, from R56 and R57: the bits no operand uses. -/
theorem test_masks : ∀ o : Op, o ∈ [Op.send, .receive, .poll, .checksum, .setId, .registerHandler, .attachDiag,
    .handlerDone] → ∀ i, i < 64 → (opMask o).getLsbD i = !(operandBit (opCode o).toNat i) := by decide +kernel

theorem test_tableWord : decodeTableWord 64 0x1 = some (.send 0 0 0 0 []) ∧
    decodeTableWord 64 0xDD05001210023CC3 = some (.header 0xC3 0x3C 0x02 0x10 1 2 5 0xDD) ∧
    decodeTableWord 264 0x48 = some (.chunk (0x48 :: zeros 31) 0) ∧
    decodeTableWord 8 0x06 = some (.ack 0x06) := by decide +kernel

/-! ### The pure functions -/

/-- The table of L2.1. -/
theorem test_crc8 : [[], [0x01], [0x02], [0x80], [0xFF], [0x01, 0x00], [0x12, 0x34], [0x01, 0x02], [0x02, 0x01],
      [0x31, 0x32, 0x33, 0x34, 0x35, 0x36, 0x37, 0x38, 0x39]].map crc8 =
    [0x00, 0x5E, 0xBC, 0x8C, 0x35, 0xC4, 0xA2, 0x78, 0xCF, 0xA1] := by decide +kernel

/-- Rows of L2.2. -/
theorem test_encodeHeader : encodeHeader tc 0x10 1 2 5 = helloHeader ∧
    encodeHeader tc 0xFF 15 15 65535 = [0xC3, 0x3C, 0x02, 0xFF, 0xFF, 0xFF, 0xFF, 0x10] ∧
    encodeHeader tc 0xA5 3 7 40 = [0xC3, 0x3C, 0x02, 0xA5, 0x37, 0x00, 0x28, 0xF9] ∧
    encodeHeader tc 0x10 1 2 320 = [0xC3, 0x3C, 0x02, 0x10, 0x12, 0x01, 0x40, 0x12] := by decide +kernel

/-- The order of the checks (L2.3). -/
theorem test_decodeHeader : decodeHeader tc helloHeader 2 = .ok ⟨0x10, 1, 5⟩ ∧
    decodeHeader tc (helloHeader.take 7) 2 = .error .shortRead ∧
    decodeHeader tc [0x00, 0x3C, 0x02, 0x10, 0x12, 0x00, 0x05, 0x00] 2 = .error .badMagic ∧
    decodeHeader tc [0xC3, 0x3C, 0x03, 0x10, 0x12, 0x00, 0x05, 0xDC] 2 = .error .badVersion ∧
    decodeHeader tc [0xC3, 0x3C, 0x02, 0x10, 0x12, 0x00, 0x05, 0xDC] 3 = .error .badChecksum ∧
    decodeHeader tc [0xC3, 0x3C, 0x02, 0x10, 0x13, 0x00, 0x05, 0x52] 2 = .error .notAddressedToUs := by
  decide +kernel

/-- V5.1, V5.3, V5.6, V5.8, V5.9, V5.12. -/
theorem test_chunkCodec : encodeChunk hello 0 = helloChunk ∧
    encodeChunk ((List.range 33).map fun i => BitVec.ofNat 8 (i + 1)) 1 = 0x21 :: zeros 31 ++ [0x4E] ∧
    encodeChunk [] 0 = zeros 33 ∧
    decodeChunk (helloChunk.take 32) = .error .shortRead ∧
    decodeChunk (hello ++ zeros 27 ++ [0xA2]) = .error .badChecksum ∧
    decodeChunk (hello ++ zeros 26 ++ [0x7E, 0x44]) = .ok (hello ++ zeros 26 ++ [0x7E]) := by decide +kernel

/-- L2.6. -/
theorem test_nchunks : [0, 1, 31, 32, 33, 64, 65, 288, 289, 320].map nchunks = [0, 1, 1, 1, 2, 2, 3, 9, 10, 10] := by
  decide +kernel

/-! ### One step of each instruction -/

/-- P1: SEND latches `tx_len = 5` and builds the header. -/
theorem test_send : nextIs (exec (.send 1 2 0x10 5 hello) (ready .idle)) (fun t =>
    decide (t.hdrReg = some helloHeader ∧ t.txLen = some 5 ∧ t.nChunks = some 1 ∧ t.fsm = .txHdr)) = true := by
  decide +kernel

/-- V8.4: 321 bytes are refused. -/
theorem test_send_too_long :
    refusesWith (exec (.send 1 2 0x10 321 (zeros 321)) (ready .idle)) .payloadTooLong = true := by decide +kernel

/-- P2 (b). -/
theorem test_receive : nextIs (exec .receive (ready .idle)) (fun t =>
    decide (t.origin = some .recv ∧ t.fsm = .rxHdr ∧ t.env = oneEach)) = true := by decide +kernel

/-- P2 (a). -/
theorem test_poll : nextIs (exec .poll (ready .idle)) (fun t =>
    decide (t.origin = some .poll ∧ t.fsm = .rxAvail)) = true := by decide +kernel

/-- P5. -/
theorem test_checksum :
    nextIs (exec (.checksum 9 [0x31, 0x32, 0x33, 0x34, 0x35, 0x36, 0x37, 0x38, 0x39]) (ready .idle)) (fun t =>
      decide (t.resp = some { status := .ok, crc := some 0xA1 } ∧ t.fsm = .idle)) = true := by decide +kernel

/-- V11.1. -/
theorem test_setId : nextIs (exec (.setId 2) (ready .idle)) (fun t =>
    decide (t.ownId = 2 ∧ t.idLocked = true ∧ t.resp = some { status := .ok })) = true := by decide +kernel

/-- V11.2: the second SET_ID. -/
theorem test_setId_twice :
    refusesWith (exec (.setId 3) { ready .idle with ownId := 2, idLocked := true }) .idLocked = true := by
  decide +kernel

/-- V11.5: the last registration wins. -/
theorem test_registerHandler : nextIs (exec (.registerHandler 9) { ready .idle with handler := some 7 }) (fun t =>
    decide (t.handler = some 9)) = true := by decide +kernel

/-- V11.9: `ATTACH_DIAG 0` detaches. -/
theorem test_attachDiag : nextIs (exec (.attachDiag false) { ready .idle with diagEn := true }) (fun t =>
    decide (t.diagEn = false)) = true := by decide +kernel

/-- P2 (a): HANDLER_DONE in DELIVER. -/
theorem test_handlerDone : nextIs (exec .handlerDone (ready .deliver)) (fun t =>
    decide (t.resp = some { status := .ok, delivered := some true } ∧ t.fsm = .idle)) = true := by decide +kernel

/-- V10.8. -/
theorem test_handlerDone_idle : refusesWith (exec .handlerDone (ready .idle)) .noDelivery = true := by decide +kernel

/-- V10.7: SEND in DELIVER. -/
theorem test_send_nested : refusesWith (exec (.send 2 1 0x11 0 []) (ready .deliver)) .nestedRequest = true := by
  decide +kernel

/-- P2: the header decodes. -/
theorem test_header : nextIs (exec (.header 0xC3 0x3C 0x02 0x10 1 2 5 0xDD) listening) (fun t =>
    decide (t.rxCmd = some 0x10 ∧ t.rxSrc = some 1 ∧ t.rxLen = some 5 ∧ t.fsm = .rxHdrAck)) = true := by
  decide +kernel

/-- V9.7: a header for endpoint 3, no acknowledgment. -/
theorem test_header_other : nextIs (exec (.header 0xC3 0x3C 0x02 0x10 1 3 5 0x52) listening) (fun t =>
    decide (t.resp = some { status := .notAddressedToUs } ∧ written (newEvents listening t) = [])) = true := by
  decide +kernel

/-- V9.13: nonzero padding with a matching checksum is stored. -/
theorem test_chunk : nextIs (exec (.chunk (hello ++ zeros 26 ++ [0x7E]) 0x44) chunking) (fun t =>
    decide (cellsAt t.rxBuf 0 5 = some hello ∧ cellAt t.rxBuf 31 = some 0x7E ∧ cellAt t.rxBuf 32 = none)) = true := by
  decide +kernel

/-- V9.4: a bad chunk is not stored. -/
theorem test_chunk_bad : nextIs (exec (.chunk (hello ++ zeros 27) 0xA2) chunking) (fun t =>
    decide (t.resp = some { status := .badChecksum } ∧ t.rxBuf = [])) = true := by decide +kernel

/-- V7.1. -/
theorem test_ack : nextIs (exec (.ack 0x06) acking) (fun t => decide (t.resp = some { status := .ok })) = true := by
  decide +kernel

/-- V7.5. -/
theorem test_ack_mismatch : nextIs (exec (.ack 0x15) acking) (fun t =>
    decide (t.resp = some { status := .badAck })) = true := by decide +kernel

/-- V10.5: a POLL's whole message without a handler, after its acknowledgment. -/
theorem test_noHandler :
    (match step { chunking with fsm := .rxChunkAck, origin := some .poll } with
      | .fault (.noHandler u) => decide (newEvents chunking u = [.write [0x06], .flush])
      | _ => false) = true := by decide +kernel

/-! ### Placing an instruction -/

theorem test_fetchWord_request : nextIs (step (State.reset.withFetchWord 64 0x205)) (fun t =>
    decide (t.ownId = 2 ∧ t.resp = some { status := .ok })) = true := by decide +kernel

theorem test_fetchWord_handlerDone : nextIs (step (State.reset.withFetchWord 64 0x8)) (fun t =>
    decide (t.resp = some { status := .ok, delivered := some true })) = true := by decide +kernel

theorem test_fetchWord_header :
    nextIs (step ({ State.reset with cfg := tc, ownId := 2 }.withFetchWord 64 0xDD05001210023CC3)) (fun t =>
      decide (t.rxLen = some 5 ∧ t.fsm = .rxHdrAck)) = true := by decide +kernel

theorem test_fetchWord_chunk : nextIs (step (State.reset.withFetchWord 264 0)) (fun t =>
    decide (cellsAt t.rxBuf 0 32 = some (zeros 32) ∧ t.fsm = .rxChunkAck)) = true := by decide +kernel

theorem test_fetchWord_ack : nextIs (step ({ State.reset with cfg := tc }.withFetchWord 8 0x06)) (fun t =>
    decide (t.resp = some { status := .ok })) = true := by decide +kernel

/-! ### Witnesses: a state and operands that meet each statement's hypotheses -/

theorem tc_ok : cfgOk tc = true := by decide

theorem ready_undisturbed (f : Fsm) : Undisturbed (ready f) := ⟨rfl, rfl, tc_ok⟩

theorem listening_undisturbed : Undisturbed listening := ⟨rfl, rfl, by decide⟩

theorem chunking_undisturbed : Undisturbed chunking := ⟨rfl, rfl, by decide⟩

theorem sending_undisturbed : Undisturbed sending := ⟨rfl, rfl, by decide⟩

theorem emptyBuffer_ok {s : State} (h : s.rxBuf = []) : BufferOk s := by
  refine ⟨by rw [h]; rfl, fun a ha => ?_⟩
  rw [h] at ha
  cases ha

theorem listening_inv : Inv listening where
  config := by decide
  identity := fun h => by cases h
  buffer := emptyBuffer_ok rfl
  ranges := by constructor <;> intro _ h <;> cases h
  phase := .inl rfl

/-- A POLL listens for a header with the diagnostic sink attached. -/
def polling : State := { listening with origin := some .poll, diagEn := true }

theorem polling_inv : Inv polling where
  config := by decide
  identity := fun h => by cases h
  buffer := emptyBuffer_ok rfl
  ranges := by constructor <;> intro _ h <;> cases h
  phase := .inr rfl

theorem sending_sends : Sending sending hello 1 0 where
  origin := rfl
  header := ⟨_, _, _, rfl, rfl, rfl, rfl⟩
  payload := rfl
  chunks := rfl
  index := rfl
  count := by decide
  bound := by decide

theorem sending_inv : Inv sending where
  config := by decide
  identity := fun _ => rfl
  buffer := emptyBuffer_ok rfl
  ranges := by
    constructor <;> intro v h <;> cases h
    · decide
    · exact ⟨rfl, by decide⟩
    · rfl
    · decide
    · decide
  phase := ⟨hello, 1, sending_sends⟩

theorem witness_DecodeEncodeRoundTrip : (Instr.send 1 2 0x10 320 (zeros 320)).wf = true := by decide +kernel

theorem witness_DecodedCodeIsItsEncoding :
    decode (.wire .header helloHeader) = .ok (.header 0xC3 0x3C 0x02 0x10 1 2 5 0xDD) ∧
    decode (.request 0x4 (some [])) = .ok (.checksum 0 []) ∧
    decode (.request 0x3 (some [])) = .ok .poll := by decide +kernel

theorem witness_IllegalDescriptors_op : IllegalDescriptor 0x0 ∧ IllegalDescriptor 0x9 :=
  ⟨.inl (by decide), .inr (.inl (by decide))⟩

theorem witness_IllegalDescriptors_bit : IllegalDescriptor 0x13 ∧ IllegalDescriptor 0x8000000000000003 ∧
    IllegalDescriptor 0x1205 ∧ IllegalDescriptor 0x207 :=
  ⟨.inr (.inr ⟨4, by decide⟩), .inr (.inr ⟨63, by decide⟩), .inr (.inr ⟨12, by decide⟩), .inr (.inr ⟨9, by decide⟩)⟩

theorem witness_IllegalDescriptors_not : ¬ IllegalDescriptor 0x107 := by
  have h : ∀ i, i < 64 → 4 ≤ i → (0x107 : Descriptor).getLsbD i = true → operandBit 7 i = true := by decide
  rintro (h0 | h9 | ⟨i, h4, h64, hq, hu⟩)
  · exact absurd h0 (by decide)
  · exact absurd h9 (by decide)
  · exact absurd (h i h64 h4 hq) (by rw [show (7 : Nat) = (0x107 : Descriptor).toNat % 16 from rfl, hu]; decide)

theorem witness_IllegalDescriptors_list : IllegalList 0x3 (some [0x55]) ∧ IllegalList 0x4 none ∧
    ¬ IllegalList 0x3 none ∧ ¬ IllegalList 0x4 (some []) := by
  unfold IllegalList; decide

theorem witness_IllegalDescriptors_step : ∃ (s : State) (rest : List HostInput), Undisturbed s ∧ s.fsm = .idle ∧
    s.env.host = .request 0x13 none :: rest :=
  ⟨{ ready .idle with env := { oneEach with host := [.request 0x13 none] } }, [], ⟨rfl, rfl, by decide⟩, rfl, rfl⟩

theorem witness_ChecksumLaws : hello.length = [0x01, 0x02, 0x03, 0x04, 0x05].length := by decide

/-- Also the reason the statement fails: a byte whose checksum a zero byte does not change. -/
theorem witness_AppendingZeroChangesTheChecksum : ∃ b : Byte, crc8 [b] ≠ 0 ∧ crc8 [b, 0] = crc8 [b] := by
  decide +kernel

theorem witness_ChecksumAnswersTheCrc : (ready .idle).fsm = .idle ∧ ([] : List Byte).length = (0 : Half).toNat ∧
    hello.length ≠ (4 : Half).toNat := by decide

theorem witness_HeaderChecksInOrder : [0xC3, 0x3C, 0x02, 0x10, 0x12, 0x00, 0x05].length < 8 ∧
    ¬ ((0xC3 : Byte) = tc.magic1 ∧ (0x00 : Byte) = tc.magic2) ∧ (0x03 : Byte) ≠ tc.version ∧
    crc8 [0xC3, 0x3C, 0x02, 0x10, 0x12, 0x00, 0x05, 0] ≠ 0xDC ∧
    crc8 [0xC3, 0x3C, 0x02, 0x10, 0x12, 0x00, 0x05, 0] = 0xDD ∧
    (0x12 : Byte).toNat % 16 ≠ (3 : Nibble).toNat ∧ (0x12 : Byte).toNat % 16 = (2 : Nibble).toNat := by decide +kernel

theorem witness_FrameCodecLaws : (3 : Nibble) ≠ 2 ∧ ∀ k, k < 8 → (encodeHeader tc 0x10 1 2 5)[k]? ≠ some 0xAA := by
  decide +kernel

theorem witness_EncodedChunkBytes : (zeros 320).length ≤ 320 ∧ 32 * 9 ≤ (zeros 320).length ∧
    32 * 10 ≤ (zeros 320).length ∧ 32 * 0 ≤ ([] : List Byte).length := by decide +kernel

theorem witness_ChunkChecksInOrder : (zeros 32).length < 33 ∧ (zeros 32).length = 32 ∧ crc8 (zeros 32) ≠ 1 ∧
    crc8 (zeros 32) = 0 := by decide +kernel

theorem witness_ChunkCodecLaws : (zeros 32).length ≤ 32 ∧ (zeros 33).length = 33 ∧
    decodeChunk (zeros 33) = .ok (zeros 32) ∧ (zeros 33)[0]? ≠ some 1 ∧ (zeros 33)[32]? ≠ some 1 := by decide +kernel

theorem witness_SendIsAcceptedOrRefused : (ready .idle).fsm = .idle ∧ [0x48].length ≠ (5 : Half).toNat ∧
    (zeros 320).length ≠ (321 : Half).toNat ∧
    (zeros 321).length = (321 : Half).toNat ∧ 320 < (321 : Half).toNat ∧
    (zeros 320).length = (320 : Half).toNat ∧ (320 : Half).toNat ≤ 320 := by decide +kernel

theorem witness_idle : (ready .idle).fsm = .idle ∧ (ready .idle).idLocked = false ∧
    { ready .idle with idLocked := true }.fsm = .idle := by decide

theorem witness_LastHandlerRegistrationWins : { ready .idle with handler := some 7 }.handler ≠ none ∧
    nextIs (exec (.registerHandler 0) { ready .idle with handler := some 7 }) (fun t => t.handler == some 0) = true := by
  decide +kernel

theorem witness_PollAsksWhatIsPending : ∃ s z : State, Undisturbed s ∧ s.fsm = .rxAvail ∧ s.env.avails = [1] ∧
    Undisturbed z ∧ z.fsm = .rxAvail ∧ z.env.avails = [0] :=
  ⟨ready .rxAvail, { ready .rxAvail with env := { oneEach with avails := [0] } }, ready_undisturbed _, rfl, rfl,
    ⟨rfl, rfl, by decide⟩, rfl, rfl⟩

theorem witness_HandlerDoneEndsTheDelivery : (ready .deliver).fsm = .deliver ∧ (ready .idle).fsm = .idle ∧
    isRequest .poll = true ∧ Instr.poll ≠ .handlerDone := by decide

theorem witness_RequestsAreAcceptedByTheState (f : Fsm) : Undisturbed (ready f) ∧
    (ready f).env.host = .request 0x2 none :: [] ∧ decode (.request 0x2 none) = .ok .receive ∧
    decode (.request 0x2 none) ≠ .ok .handlerDone :=
  ⟨ready_undisturbed f, rfl, by decide +kernel, by decide +kernel⟩

theorem witness_RequestsAreAcceptedByTheState_codes : decode (.request 0x8 none) = .ok .handlerDone ∧
    decode (.request 0x13 none) = .error .reservedBit := by decide +kernel

theorem witness_RequestsAreAcceptedByTheState_busy : busy (ready .rxAvail).fsm = true ∧
    ∃ t, step (ready .rxAvail) = .next t := by
  obtain ⟨t, ht, _⟩ := exists_of_nextIs (r := step (ready .rxAvail)) (p := fun _ => true) (by decide +kernel)
  exact ⟨rfl, t, ht⟩

theorem witness_UnitIsWrittenThenAwaited : Undisturbed sending ∧ sending.fsm = .txHdr ∧
    sending.hdrReg = some helloHeader ∧ Undisturbed { ready .txChunk with chkReg := some helloChunk } :=
  ⟨sending_undisturbed, rfl, by decide +kernel, ⟨rfl, rfl, by decide⟩⟩

theorem witness_AckPollCountsEmptyPolls : ∃ s z : State, Undisturbed s ∧ s.fsm = .awPoll ∧ s.env.avails = [1] ∧
    s.ackAttempts = some 98 ∧ Undisturbed z ∧ z.fsm = .awPoll ∧ z.env.avails = [0] ∧ z.ackAttempts = some 99 :=
  ⟨{ ready .awPoll with ackAttempts := some 98 },
    { ready .awPoll with ackAttempts := some 99, env := { oneEach with avails := [0] } },
    ⟨rfl, rfl, by decide⟩, rfl, rfl, rfl, ⟨rfl, rfl, by decide⟩, rfl, rfl, rfl⟩

theorem witness_AckSleepWaitsForATick : Undisturbed (ready .awSleep) ∧ (ready .awSleep).env.ticks = 0 + 1 ∧
    { ready .awSleep with env := { oneEach with ticks := 0 } }.env.ticks = 0 :=
  ⟨ready_undisturbed _, rfl, rfl⟩

theorem witness_AckByteDecidesTheSend : acking.fsm = .awRead ∧ (0x15 : Byte) ≠ acking.cfg.ack ∧
    (0x06 : Byte) = acking.cfg.ack ∧ acking.ackUnit = some .hdr ∧ acking.chunkIdx = some 0 ∧
    acking.nChunks = some 0 ∧ acking.txPayload = some [] ∧
    { acking with nChunks := some 10, chunkIdx := some 9, ackUnit := some .chunk }.chunkIdx = some 9 := by decide

theorem witness_HeaderUnitIsDecoded : listening.fsm = .rxHdr ∧ (0xC3 : Byte) = listening.cfg.magic1 ∧
    (0x3C : Byte) = listening.cfg.magic2 ∧ (0x02 : Byte) = listening.cfg.version ∧
    crc8 (headerBytes 0xC3 0x3C 0x02 0x10 1 2 5 0) = 0xDD ∧ (2 : Nibble) = listening.ownId ∧
    (3 : Nibble) ≠ listening.ownId ∧ (0x03 : Byte) ≠ listening.cfg.version ∧
    crc8 (headerBytes 0xC3 0x3C 0x02 0x10 1 2 5 0) ≠ 0xDC := by decide +kernel

theorem witness_ChunkUnitIsStored : chunking.fsm = .rxChunk ∧ (hello ++ zeros 27).length = 32 ∧
    crc8 (hello ++ zeros 27) ≠ 0xA2 ∧ crc8 (hello ++ zeros 27) = 0xA3 ∧ chunking.chunkIdx = some 0 ∧
    32 * (0 : BitVec 4).toNat + 32 ≤ chunking.cfg.rxCap ∧ 32 * (9 : BitVec 4).toNat + 32 ≤ chunking.cfg.rxCap := by
  decide +kernel

theorem witness_ReadsGoToTheirDecoder : Undisturbed listening ∧ listening.env.reads = [helloHeader] ∧
    decodeHeader listening.cfg helloHeader listening.ownId = .ok ⟨0x10, 1, 5⟩ ∧
    decodeHeader listening.cfg [] listening.ownId = .error .shortRead ∧ Undisturbed chunking ∧
    chunking.env.reads = [helloChunk] ∧ decodeChunk helloChunk = .ok (hello ++ zeros 27) ∧
    decodeChunk [] = .error .shortRead :=
  ⟨listening_undisturbed, rfl, by decide +kernel, by decide, chunking_undisturbed, rfl, by decide +kernel, by decide⟩

theorem witness_HeaderIsAcknowledgedBeforeTheCapacityCheck (l : Half) :
    Undisturbed { ready .rxHdrAck with rxLen := some l } ∧ 320 < (321 : Half).toNat ∧ nchunks (0 : Half).toNat = 0 ∧
    (320 : Half).toNat ≤ 320 ∧ nchunks (320 : Half).toNat ≠ 0 :=
  ⟨⟨rfl, rfl, tc_ok⟩, by decide, by decide, by decide, by decide⟩

theorem witness_ChunkIsAcknowledgedAndCounted : ∃ s : State, Undisturbed s ∧ s.fsm = .rxChunkAck ∧
    s.chunkIdx = some 0 ∧ s.nChunks = some 1 ∧ (0 : BitVec 4) + 1 = 1 ∧ (8 : BitVec 4) + 1 ≠ 10 :=
  ⟨{ chunking with fsm := .rxChunkAck }, ⟨rfl, rfl, by decide⟩, rfl, rfl, rfl, rfl, by decide⟩

theorem witness_ReceivedMessageIsHandedOver : ∃ s z : State, s.rxCmd = some 0x10 ∧ s.rxSrc = some 1 ∧
    s.rxLen = some 5 ∧ hello.length = (5 : Half).toNat ∧
    (∀ a, a < (5 : Half).toNat → cellAt s.rxBuf a = hello[a]?) ∧ s.origin = some .recv ∧
    z = { s with origin := some .poll, handler := some 7 } :=
  ⟨{ chunking with rxBuf := cellsSet [] 0 hello }, _, rfl, rfl, rfl, by decide, by decide, rfl, rfl⟩

theorem witness_ReceiveFailureIsReported : listening.origin = some .recv ∧ polling.origin = some .poll ∧
    polling.diagEn = true ∧ { polling with diagEn := false }.diagEn = false := by decide

theorem witness_step : ∃ s t : State, Inv s ∧ s.mark = none ∧ noReset s = true ∧ step s = .next t := by
  obtain ⟨t, ht, _⟩ := exists_of_nextIs (r := step sending) (p := fun _ => true) (by decide +kernel)
  exact ⟨sending, t, sending_inv, rfl, rfl, ht⟩

theorem witness_ConfigurationRegisters : ∃ s t : State, noReset s = true ∧ s.idLocked = true ∧ s.fsm ≠ .idle ∧
    step s = .next t := by
  obtain ⟨t, ht, _⟩ := exists_of_nextIs (r := step listening) (p := fun _ => true) (by decide +kernel)
  exact ⟨listening, t, rfl, rfl, by decide, ht⟩

theorem witness_ConfigurationRegisters_exec : ∃ t, exec .receive (ready .idle) = .next t := by
  obtain ⟨t, ht, _⟩ := exists_of_nextIs (r := exec .receive (ready .idle)) (p := fun _ => true) (by decide +kernel)
  exact ⟨t, ht⟩

/-- A receive that fails: the header is for another endpoint. -/
theorem witness_StatusesByRequest : ∃ (s t : State) (r : Resp), Inv s ∧ noReset s = true ∧ step s = .next t ∧
    .resp r ∈ newEvents s t ∧ r.status ≠ .ok := by
  obtain ⟨t, ht, hp⟩ := exists_of_nextIs (r := step { listening with env := { oneEach with reads := [[]] } })
    (p := fun t => decide (.resp { status := .shortRead } ∈
      newEvents { listening with env := { oneEach with reads := [[]] } } t)) (by decide +kernel)
  refine ⟨_, t, _, ?_, rfl, ht, of_decide_eq_true hp, by decide⟩
  exact { listening_inv with ranges := by constructor <;> intro _ h <;> cases h }

/-- A POLL that fails, with the sink attached. -/
theorem witness_StatusesByRequest_diag : ∃ (s t : State), Inv s ∧ noReset s = true ∧ step s = .next t ∧
    .diag 1 ∈ newEvents s t := by
  obtain ⟨t, ht, hp⟩ := exists_of_nextIs (r := step { polling with env := { oneEach with reads := [[]] } })
    (p := fun t => decide (.diag 1 ∈ newEvents { polling with env := { oneEach with reads := [[]] } } t))
    (by decide +kernel)
  refine ⟨_, t, ?_, rfl, ht, of_decide_eq_true hp⟩
  exact { polling_inv with ranges := by constructor <;> intro _ h <;> cases h }

theorem witness_HeaderIsAcknowledgedExactlyWhenGood : Inv listening ∧ Undisturbed listening ∧
    listening.fsm = .rxHdr ∧ listening.env.reads = [helloHeader] ∧ helloHeader.length ≤ 8 ∧
    decodeHeader listening.cfg helloHeader listening.ownId = .ok ⟨0x10, 1, 5⟩ ∧
    decodeHeader listening.cfg (helloHeader.take 7) listening.ownId = .error .shortRead :=
  ⟨listening_inv, listening_undisturbed, rfl, rfl, by decide, by decide +kernel, by decide⟩

/-- A chunk is entered from AW_READ and from RX_CHUNK_ACK, and a unit is written. -/
theorem witness_StopAndWait :
    nextIs (step { acking with txPayload := some hello, nChunks := some 1 }) (fun t => t.fsm == .txChunk) = true ∧
    nextIs (step { chunking with fsm := .rxChunkAck, nChunks := some 2 }) (fun t => t.fsm == .rxChunk) = true ∧
    nextIs (step sending) (fun t => t.fsm == .awPoll) = true := by decide +kernel

theorem witness_BusyStepsMakeProgress : Inv sending ∧ Undisturbed sending ∧ busy sending.fsm = true ∧
    answered sending = true := ⟨sending_inv, sending_undisturbed, rfl, rfl⟩

theorem witness_RequestsTerminate : Inv sending ∧ Undisturbed sending ∧ busy sending.fsm = true ∧
    Supplied sending (stepsLeft sending) := by
  have h : stepsLeft sending = 402 := by decide +kernel
  refine ⟨sending_inv, sending_undisturbed, rfl, ?_⟩
  rw [h]
  exact ⟨List.length_replicate.ge, List.length_replicate.ge, List.length_replicate.ge, by decide⟩

theorem witness_SilentPeerTimesOut : ∃ s : State, Undisturbed s ∧ s.fsm = .awPoll ∧ s.ackAttempts = some 0 ∧
    s.env.avails = List.replicate 100 0 ++ [] ∧ 99 ≤ s.env.ticks :=
  ⟨{ ready .awPoll with
      ackAttempts := some 0, env := { oneEach with avails := List.replicate 100 0, ticks := 99 } },
    ⟨rfl, rfl, by decide⟩, rfl, rfl, by simp, by decide⟩

theorem witness_WholeMessageIsReceived : ∃ s z : State, Undisturbed s ∧ s.fsm = .rxHdr ∧
    hello.length = (5 : Half).toNat ∧ (5 : Half).toNat ≤ s.cfg.rxCap ∧
    s.env.reads = encodeHeader s.cfg 0x10 1 s.ownId 5 :: (List.range (nchunks (5 : Half).toNat)).map (encodeChunk hello) ++ [] ∧
    s.origin = some .recv ∧ z = { s with origin := some .poll, handler := some 7 } :=
  ⟨{ listening with env := { oneEach with reads := [helloHeader, helloChunk] } }, _, ⟨rfl, rfl, by decide⟩, rfl,
    by decide, by decide, by decide +kernel, rfl, rfl⟩

theorem witness_WholeMessageIsSent : ∃ s : State, Undisturbed s ∧ s.fsm = .txHdr ∧ Sending s hello 1 0 ∧
    hello.length ≤ 320 ∧ s.hdrReg = some (encodeHeader tc 0x10 1 2 5) ∧ (1 : BitVec 4).toNat + 1 ≤ s.env.avails.length ∧
    (∀ a ∈ s.env.avails, 0 < a) ∧ s.env.bytes = List.replicate ((1 : BitVec 4).toNat + 1) s.cfg.ack ++ [] :=
  ⟨{ sending with env := { oneEach with avails := [1, 1], bytes := [0x06, 0x06] } }, ⟨rfl, rfl, by decide⟩, rfl,
    ⟨rfl, ⟨_, _, _, rfl, rfl, rfl, rfl⟩, rfl, rfl, rfl, by decide, by decide⟩, by decide, rfl, by decide, by decide,
    by decide⟩

theorem witness_SentMessageIsReceived : ∃ a c : State, Undisturbed a ∧ a.fsm = .idle ∧
    hello.length = (5 : Half).toNat ∧ (5 : Half).toNat ≤ 320 ∧ nchunks (5 : Half).toNat + 1 ≤ a.env.avails.length ∧
    (∀ x ∈ a.env.avails, 0 < x) ∧ a.env.bytes = List.replicate (nchunks (5 : Half).toNat + 1) a.cfg.ack ∧
    exec (.send 1 2 0x10 5 hello) a = .next c := by
  obtain ⟨c, hc, _⟩ := exists_of_nextIs
    (r := exec (.send 1 2 0x10 5 hello)
      { ready .idle with env := { oneEach with avails := [1, 1], bytes := [0x06, 0x06] } })
    (p := fun _ => true) (by decide +kernel)
  exact ⟨_, c, ⟨rfl, rfl, by decide⟩, rfl, by decide, by decide, by decide, by decide, by decide, hc⟩

/-- The receiving endpoint of the same statement, whatever the sender wrote. -/
theorem witness_SentMessageIsReceived_receiver (units : List (List Byte)) : ∃ b : State, Undisturbed b ∧
    b.fsm = .rxHdr ∧ b.origin = some .recv ∧ b.ownId = 2 ∧ b.cfg = tc ∧ (5 : Half).toNat ≤ b.cfg.rxCap ∧
    b.env.reads = units ++ [] :=
  ⟨{ listening with env := { oneEach with reads := units } }, ⟨rfl, rfl, tc_ok⟩, rfl, rfl, rfl, rfl,
    (by decide : 5 ≤ tc.rxCap), (List.append_nil units).symm⟩

theorem witness_StepRunsTheDecodedInstruction : Undisturbed (ready .idle) ∧ Undisturbed (ready .deliver) ∧
    (ready .idle).env.host = [.request 0x2 none] ∧ decode (.request 0x2 none) = .ok .receive ∧
    listening.env.reads = [helloHeader] ∧
    decode (.wire .header helloHeader) = .ok (.header 0xC3 0x3C 0x02 0x10 1 2 5 0xDD) ∧
    chunking.env.reads = [helloChunk] ∧ decode (.wire .chunk helloChunk) = .ok (.chunk (hello ++ zeros 27) 0xA3) ∧
    acking.env.bytes = [0x06] ∧ decode (.wire .ack [0x06]) = .ok (.ack 0x06) :=
  ⟨ready_undisturbed _, ready_undisturbed _, rfl, by decide +kernel, rfl, by decide +kernel, rfl, by decide +kernel,
    rfl, by decide +kernel⟩

theorem witness_ResetSetsEveryRegister : { sending with env := { oneEach with acts := [(0, .reset), (3, .reset)] } }.env.acts =
    [(0, .reset), (3, .reset)] := rfl

theorem witness_StopsAreFinal : ∃ s z : State, s.mark = some .noHandler ∧ noReset s = true ∧ z.mark = none ∧
    z.env.acts = [] ∧ ¬ (z.cfg.rxCap % 32 = 0 ∧ z.cfg.rxCap ≤ 320) :=
  ⟨{ ready .idle with mark := some .noHandler }, { ready .idle with cfg := { tc with rxCap := 352 } }, rfl, rfl, rfl,
    rfl, by decide⟩

/-- Each reason of R127 that a step can refuse with (the fault NoHandler is `test_noHandler`). -/
theorem witness_StopsAreFinal_reasons :
    refusesWith (step { ready .idle with env := { oneEach with host := [.request 0x0 none] } }) .badDescriptor = true ∧
    refusesWith (step { ready .idle with env := { oneEach with host := [.request 0x141102101 (some (zeros 321))] } })
      .payloadTooLong = true ∧
    refusesWith (step { ready .idle with idLocked := true, env := { oneEach with host := [.request 0x305 none] } })
      .idLocked = true ∧
    refusesWith (step { ready .idle with env := { oneEach with host := [.request 0x8 none] } }) .noDelivery = true ∧
    refusesWith (step { ready .deliver with env := { oneEach with host := [.request 0x3 none] } }) .nestedRequest = true ∧
    refusesWith (step { ready .idle with cfg := { tc with rxCap := 33 } }) .badConfig = true ∧
    refusesWith (step { ready .idle with env := { oneEach with acts := [(0, .access 0)] } }) .staleBuffer = true := by
  decide +kernel

theorem witness_StopsAreFinal_unwritten :
    (match step (ready .txHdr) with
      | .fault (.unwrittenRead u) => decide (u.mark = some .unwrittenRead)
      | _ => false) = true := by decide +kernel

/-- Hand-over 0 was a delivery, ended by HANDLER_DONE; hand-over 1 is the response of a RECEIVE. -/
def twice : List Event :=
  [.reset, .deliver 7 0x10 1 hello 5, .req 0x8 [], .resp { status := .ok, payload := some hello }]

theorem witness_StaleBufferIsRefused : ∃ s : State, s.mark = none ∧ cfgOk s.cfg = true ∧ s.fsm = .rxChunk ∧
    s.env.acts = [(0, .access 0)] ∧ goodRef s.hist = some 1 ∧ handOvers s.hist = 2 :=
  ⟨{ chunking with hist := twice, env := { oneEach with acts := [(0, .access 0)] } }, rfl, tc_ok, rfl, rfl,
    by decide, by decide⟩

/-- The reference of hand-over 1 holds and that of hand-over 0 does not, while a SEND is running; once a RECEIVE is
accepted neither holds. -/
theorem test_access :
    nextIs (step { sending with hist := twice, env := { oneEach with acts := [(0, .access 1)] } }) (fun t =>
      t.fsm == .txHdr && t.env.acts == []) = true ∧
    refusesWith (step { sending with hist := twice, env := { oneEach with acts := [(0, .access 0)] } })
      .staleBuffer = true ∧
    refusesWith (step { chunking with hist := twice ++ [.req 0x2 []], env := { oneEach with acts := [(0, .access 1)] } })
      .staleBuffer = true := by decide +kernel

/-- Each instruction of the frame statements answers a next state. -/
theorem witness_frames :
    nextIs (exec (.checksum 0 []) (ready .idle)) (fun _ => true) = true ∧
    nextIs (exec (.setId 15) (ready .idle)) (fun _ => true) = true ∧
    nextIs (exec (.registerHandler 0) (ready .idle)) (fun _ => true) = true ∧
    nextIs (exec (.attachDiag true) (ready .idle)) (fun _ => true) = true ∧
    nextIs (exec .handlerDone (ready .deliver)) (fun _ => true) = true ∧
    nextIs (exec (.send 0 0 0 0 []) (ready .idle)) (fun _ => true) = true ∧
    nextIs (exec .receive (ready .idle)) (fun _ => true) = true ∧
    nextIs (exec .poll (ready .idle)) (fun _ => true) = true ∧
    nextIs (exec (.header 0xC3 0x3C 0x02 0x10 1 2 5 0xDD) listening) (fun _ => true) = true ∧
    nextIs (exec (.ack 0x06) acking) (fun _ => true) = true ∧
    nextIs (exec (.chunk (hello ++ zeros 27) 0xA3) chunking) (fun _ => true) = true := by decide +kernel

end Sys2Proof.Tests
end

section
/-! PROOFS. The invariant of the block's state: it holds after reset and every step keeps it (spec/10_state.md R18,
spec/20_memory.md R32, R33). One rule per update of a register the invariant reads, one lemma per shared ending of a
step, then the cases of `Took`. -/

namespace Sys2Proof.Machine

variable {s t u : State}

/-! ### The clauses that do not speak of `fsm` -/

/-- The part of `Inv` that holds in every state of `fsm` alike. -/
structure ValuesOk (s : State) : Prop where
  config : cfgOk s.cfg = true
  identity : s.idLocked = false → s.ownId = 0
  buffer : BufferOk s
  ranges : RangesOk s

theorem Inv.values (h : Inv s) : ValuesOk s := ⟨h.config, h.identity, h.buffer, h.ranges⟩

theorem ValuesOk.inv (h : ValuesOk s) (hp : PhaseOk s) : Inv s := ⟨h.config, h.identity, h.buffer, h.ranges, hp⟩

/-- The registers that `ValuesOk` does not read. -/
theorem ValuesOk.unread (h : ValuesOk s) (f o hd d c a l u r m hist env) :
    ValuesOk { s with
      fsm := f, origin := o, handler := hd, diagEn := d, rxCmd := c, rxSrc := a, rxLen := l, ackUnit := u
      resp := r, mark := m, hist := hist, env := env } :=
  ⟨h.config, h.identity, h.buffer, { h.ranges with }⟩

theorem ValuesOk.setIdentity (h : ValuesOk s) (a : Nibble) : ValuesOk (setIdentity a s) :=
  { h with identity := nofun, ranges := { h.ranges with } }

theorem ValuesOk.setAckAttempts (h : ValuesOk s) {k : BitVec 7} (hk : k.toNat ≤ ackPollAttempts) :
    ValuesOk (setAckAttempts k s) :=
  { h with ranges := { h.ranges with ackAttempts := by rintro _ ⟨⟩; exact hk } }

theorem ValuesOk.setChkReg (h : ValuesOk s) {c : List Byte} (hc : c.length = chunkLen) : ValuesOk (setChkReg c s) :=
  { h with ranges := { h.ranges with chkReg := by rintro _ ⟨⟩; exact hc } }

theorem ValuesOk.setChunkIdx (h : ValuesOk s) {i : BitVec 4} (hi : i.toNat ≤ 10) : ValuesOk (setChunkIdx i s) :=
  { h with ranges := { h.ranges with chunkIdx := by rintro _ ⟨⟩; exact hi } }

theorem ValuesOk.setChunks (h : ValuesOk s) {n : BitVec 4} (hn : n.toNat ≤ 10) : ValuesOk (setChunks n s) :=
  { h with
    ranges :=
      { h.ranges with
        nChunks := by rintro _ ⟨⟩; exact hn
        chunkIdx := by rintro _ ⟨⟩; exact Nat.zero_le 10 } }

theorem ValuesOk.latchSend (h : ValuesOk s) {cmd : Byte} {src dst : Nibble} {l : Half} {p hdr : List Byte}
    {n : BitVec 4} (hp : p.length = l.toNat) (hl : l.toNat ≤ maxPayload) (hh : hdr.length = hdrLen)
    (hn : n.toNat ≤ 10) : ValuesOk (latchSend cmd src dst l p hdr n s) :=
  { h with
    ranges :=
      { h.ranges with
        txLen := by rintro _ ⟨⟩; exact hl
        txPayload := by rintro _ ⟨⟩; exact ⟨by simp [hp], hp ▸ hl⟩
        hdrReg := by rintro _ ⟨⟩; exact hh
        nChunks := by rintro _ ⟨⟩; exact hn
        chunkIdx := by rintro _ ⟨⟩; exact Nat.zero_le 10 } }

/-- A block write inside the buffer (R32) keeps its form and adds no cell at or beyond `RX_CAP`. -/
theorem ValuesOk.writeBlock (h : ValuesOk s) {off : Nat} {d : List Byte} (hd : off + d.length ≤ s.cfg.rxCap) :
    ValuesOk (setRxBuf (cellsSet s.rxBuf off d) s) := by
  obtain ⟨hform, hcap⟩ := h.buffer
  refine { h with buffer := ⟨cellsSet_wf _ _ _ hform, fun a ha => ?_⟩, ranges := { h.ranges with } }
  by_cases hb : off ≤ a ∧ a < off + d.length
  · exact hb.2.trans_le hd
  · rw [setRxBuf_rxBuf, cellAt_cellsSet, if_neg hb] at ha
    exact hcap a ha

/-- Writing the next chunk's data extends the written cells by 32 (R104). -/
theorem writtenBelow_writeBlock {i : Nat} {d : List Byte} (h : writtenBelow s (chunkData * i))
    (hd : d.length = chunkData) :
    writtenBelow (setRxBuf (cellsSet s.rxBuf (chunkData * i) d) s) (chunkData * (i + 1)) := by
  intro a ha
  by_cases hb : a < chunkData * i
  · rw [setRxBuf_rxBuf, cellAt_cellsSet_outside _ _ _ _ (.inl hb)]
    exact h a hb
  · exact cellsSet_written _ _ _ _ ⟨Nat.le_of_not_lt hb, by rw [hd]; exact ha⟩

/-- R9, as `cfgOk` checks it. -/
theorem cfgOk_iff (c : Cfg) : cfgOk c = true ↔ c.rxCap % 32 = 0 ∧ c.rxCap ≤ maxPayload := by
  simp [cfgOk]

theorem ValuesOk.rxCap_le (h : ValuesOk s) : s.cfg.rxCap ≤ maxPayload := ((cfgOk_iff s.cfg).1 h.config).2

/-! ### Chunk counts in four bits -/

/-- The chunk count of a message that fits the largest buffer is not cut to four bits. -/
theorem toNat_ofNat_nchunks {l : Nat} (h : l ≤ maxPayload) : (BitVec.ofNat 4 (nchunks l)).toNat = nchunks l := by
  have := nchunks_le h
  simp only [BitVec.toNat_ofNat]; omega

/-- An index below a chunk count steps without wrapping. -/
theorem toNat_add_one_of_lt {i n : BitVec 4} (h : i.toNat < n.toNat) : (i + 1).toNat = i.toNat + 1 := by
  have := n.isLt
  bv_omega

/-- An empty poll that is not the last leaves room for another (R91): the count does not wrap. -/
theorem attempts_succ_lt {k : BitVec 7} (hk : k.toNat < ackPollAttempts) (hn : (k + 1).toNat ≠ ackPollAttempts) :
    (k + 1).toNat < ackPollAttempts := by
  unfold ackPollAttempts at *; bv_omega

/-! ### Reset, and what the environment changes -/

/-- The registers right after reset (R136), whatever the history and the environment. -/
theorem inv_reset_with (c : Cfg) (hist : List Event) (env : Env) (hc : cfgOk c = true) :
    Inv { State.reset with cfg := c, hist := hist, env := env } where
  config := hc
  identity _ := rfl
  buffer := ⟨rfl, nofun⟩
  ranges := ⟨nofun, nofun, nofun, nofun, nofun, nofun, nofun⟩
  phase := trivial

theorem Inv.takeReset (h : Inv s) : Inv (takeReset s) := inv_reset_with _ _ _ h.config

/-- No phase relies on what the environment will do. -/
theorem PhaseOk.setActs (h : PhaseOk s) (x : List (Nat × Act)) : PhaseOk (setActs x s) := by
  unfold PhaseOk at h ⊢
  rw [setActs_fsm]
  cases hf : s.fsm <;> simp only [hf] at h ⊢
  case txHdr =>
    obtain ⟨p, n, hs⟩ := h
    exact ⟨p, n, { hs with }⟩
  case txChunk =>
    obtain ⟨p, n, i, hs, hi, hc⟩ := h
    exact ⟨p, n, i, { hs with }, hi, hc⟩
  case awPoll | awSleep | awRead =>
    obtain ⟨p, n, i, u, k, hs, ha⟩ := h
    exact ⟨p, n, i, u, k, { hs with }, { ha with }⟩
  case rxChunk | rxChunkAck =>
    obtain ⟨l, n, i, hc, hw⟩ := h
    exact ⟨l, n, i, { hc with }, hw⟩
  all_goals exact h

theorem Inv.setActs (h : Inv s) (x : List (Nat × Act)) : Inv (setActs x s) :=
  ValuesOk.inv (h.values.unread ..) (h.phase.setActs x)

/-! ### The endings that several steps share -/

/-- IDLE relies on no register: a completed request leaves the invariant (R122). -/
theorem ValuesOk.inv_complete (h : ValuesOk s) (r : Resp) : Inv (complete r s) :=
  ValuesOk.inv (h.unread ..) trivial

theorem Failed.inv {st : Status} (h : Failed st u t) (hv : ValuesOk u) : Inv t := by
  cases h with
  | receive ho => exact hv.inv_complete _
  | drop ho hd => exact hv.inv_complete _
  | dropLogged ho hd => exact ValuesOk.inv_complete (hv.unread ..) _

/-- A delivery is a POLL's, and the cells it read are written. -/
theorem HandedOver.inv (h : HandedOver u t) (hv : ValuesOk u) (hr : Receiving u) : Inv t := by
  cases h with
  | receive cmd src len p ho hc hs hl hp => exact hv.inv_complete _
  | deliver token cmd src len p ho hh hc hs hl hp =>
    have hpoll : u.origin = some .poll := by
      rcases ho with ho | ho
      · simp [Receiving, ho] at hr
      · exact ho
    have hw : ∀ a, a < len.toNat → (cellAt u.rxBuf a).isSome := fun a ha =>
      (cellsAt_isSome u.rxBuf 0 len.toNat).1 (by simp [hp]) a (Nat.zero_le a) (by omega)
    exact ValuesOk.inv (hv.unread ..)
      ⟨hpoll, Option.isSome_iff_exists.2 ⟨token, hh⟩, len, ⟨⟨cmd, hc⟩, ⟨src, hs⟩, hl⟩, hw⟩

/-- After the acknowledgment the SEND is complete, or its next chunk stands in `chk_reg` (R98). -/
theorem Acked.inv {p : List Byte} {n i : BitVec 4} (h : Acked u t) (hv : ValuesOk u) (hs : Sending u p n i) :
    Inv t := by
  cases h with
  | done i' n' hi hn he => exact hv.inv_complete _
  | more i' n' p' hi hn he hp =>
    obtain rfl : i' = i := Option.some.inj (hi.symm.trans hs.index)
    obtain rfl : n' = n := Option.some.inj (hn.symm.trans hs.chunks)
    obtain rfl : p' = p := Option.some.inj (hp.symm.trans hs.payload)
    exact ValuesOk.inv ((hv.setChkReg (encodeChunk_length p' i'.toNat)).unread ..)
      ⟨p', n', i', { hs with }, BitVec.lt_of_le_ne hs.bound he, rfl⟩

/-- An accepted SEND has latched its message and stands at chunk 0 (R96). -/
theorem sending_latchSend {a b : Nibble} {cmd : Byte} {n : Half} {data : List Byte} (hl : data.length = n.toNat)
    (hm : n.toNat ≤ maxPayload) :
    Sending (latchSend cmd a b n data (encodeHeader s.cfg cmd a b n) (BitVec.ofNat 4 (nchunks n.toNat)) s)
      data (BitVec.ofNat 4 (nchunks n.toNat)) 0 where
  origin := rfl
  header := ⟨cmd, a, b, rfl, rfl, rfl, by simp [hl]⟩
  payload := rfl
  chunks := rfl
  index := rfl
  count := by rw [toNat_ofNat_nchunks hm, hl]
  bound := Nat.zero_le _

theorem Accepted.inv {i : Instr} (h : Accepted u i t) (hv : ValuesOk u) : Inv t := by
  cases h with
  | send a b cmd n data hf hl hm =>
    have hn : (BitVec.ofNat 4 (nchunks n.toNat)).toNat ≤ 10 :=
      (toNat_ofNat_nchunks hm).trans_le (nchunks_le hm)
    exact ValuesOk.inv ((hv.latchSend hl hm (encodeHeader_length u.cfg cmd a b n) hn).unread ..)
      ⟨data, _, { sending_latchSend (s := u) hl hm with }⟩
  | receive hf => exact ValuesOk.inv (hv.unread ..) (.inl rfl)
  | poll hf => exact ValuesOk.inv (hv.unread ..) rfl
  | checksum n data hf hl => exact ValuesOk.inv_complete (hv.unread ..) _
  | setId a hf hk => exact ((hv.setIdentity a).unread ..).inv_complete _
  | registerHandler n hf => exact ValuesOk.inv_complete (hv.unread ..) _
  | attachDiag en hf => exact ValuesOk.inv_complete (hv.unread ..) _
  | handlerDone hf => exact ValuesOk.inv_complete (hv.unread ..) _

/-! ### The steps -/

theorem Inv.at_txHdr (h : Inv s) (hf : s.fsm = .txHdr) : ∃ p n, Sending s p n 0 := by
  simpa only [PhaseOk, hf] using h.phase

theorem Inv.at_txChunk (h : Inv s) (hf : s.fsm = .txChunk) :
    ∃ p n i, Sending s p n i ∧ i.toNat < n.toNat ∧ s.chkReg = some (encodeChunk p i.toNat) := by
  simpa only [PhaseOk, hf] using h.phase

/-- What an acknowledgment wait relies on, in any of its three states. -/
theorem Inv.awaiting (h : Inv s) (hf : s.fsm = .awPoll ∨ s.fsm = .awSleep ∨ s.fsm = .awRead) :
    ∃ p n i u k, Sending s p n i ∧ Awaiting s n i u k := by
  have hp := h.phase
  rcases hf with hf | hf | hf <;> simpa only [PhaseOk, hf] using hp

theorem Inv.at_rxAvail (h : Inv s) (hf : s.fsm = .rxAvail) : s.origin = some .poll := by
  simpa only [PhaseOk, hf] using h.phase

theorem Inv.at_rxHdr (h : Inv s) (hf : s.fsm = .rxHdr) : Receiving s := by
  simpa only [PhaseOk, hf] using h.phase

theorem Inv.at_rxHdrAck (h : Inv s) (hf : s.fsm = .rxHdrAck) : Receiving s ∧ ∃ l, HeaderKnown s l := by
  simpa only [PhaseOk, hf] using h.phase

theorem Inv.at_rxChunk (h : Inv s) (hf : s.fsm = .rxChunk) :
    ∃ l n i, Chunking s l n i ∧ writtenBelow s (chunkData * i.toNat) := by
  simpa only [PhaseOk, hf] using h.phase

theorem Inv.at_rxChunkAck (h : Inv s) (hf : s.fsm = .rxChunkAck) :
    ∃ l n i, Chunking s l n i ∧ writtenBelow s (chunkData * (i.toNat + 1)) := by
  simpa only [PhaseOk, hf] using h.phase

/-- A message that fits is one of at most ten chunks. -/
theorem ValuesOk.nchunks_le (h : ValuesOk s) {l : Half} (hl : l.toNat ≤ s.cfg.rxCap) : nchunks l.toNat ≤ 10 :=
  Machine.nchunks_le (hl.trans h.rxCap_le)

theorem Chunking.count_le {l : Half} {n i : BitVec 4} (h : Chunking s l n i) (hv : ValuesOk s) : n.toNat ≤ 10 :=
  h.count ▸ hv.nchunks_le h.fits

/-- A step of the block that is no act from outside keeps the invariant. -/
theorem Took.inv (h : Inv s) (ht : Took s t) : Inv t := by
  have hv := h.values
  cases ht with
  | wait hw => exact h
  | accepted q data rest i hh hd ha => exact ha.inv (hv.unread ..)
  | txHdr hdr hf hr =>
    obtain ⟨p, n, hs⟩ := h.at_txHdr hf
    exact ValuesOk.inv ((hv.setAckAttempts (k := 0) (Nat.zero_le _)).unread ..)
      ⟨p, n, 0, .hdr, 0, { hs with }, ⟨rfl, rfl, by decide, fun _ => rfl, nofun⟩⟩
  | txChunk c hf hr =>
    obtain ⟨p, n, i, hs, hi, -⟩ := h.at_txChunk hf
    exact ValuesOk.inv ((hv.setAckAttempts (k := 0) (Nat.zero_le _)).unread ..)
      ⟨p, n, i, .chunk, 0, { hs with }, ⟨rfl, rfl, by decide, nofun, fun _ => hi⟩⟩
  | polled a rest hf ha hp =>
    obtain ⟨p, n, i, u, k, hs, hw⟩ := h.awaiting (.inl hf)
    exact ValuesOk.inv (hv.unread ..) ⟨p, n, i, u, k, { hs with }, { hw with }⟩
  | empty rest k hf ha hk hn =>
    obtain ⟨p, n, i, u, k', hs, hw⟩ := h.awaiting (.inl hf)
    obtain rfl : k' = k := Option.some.inj (hw.attempts.symm.trans hk)
    have hlt : (k' + 1).toNat < ackPollAttempts := attempts_succ_lt hw.below hn
    exact ValuesOk.inv ((hv.setAckAttempts hlt.le).unread ..)
      ⟨p, n, i, u, k' + 1, { hs with }, { hw with attempts := rfl, below := hlt }⟩
  | timeout rest k hf ha hk hn => exact ValuesOk.inv_complete ((hv.setAckAttempts hn.le).unread ..) _
  | slept k hf hk =>
    obtain ⟨p, n, i, u, k, hs, hw⟩ := h.awaiting (.inr (.inl hf))
    exact ValuesOk.inv (hv.unread ..) ⟨p, n, i, u, k, { hs with }, { hw with }⟩
  | mismatch b rest hf hb hn => exact ValuesOk.inv_complete (hv.unread ..) _
  | ackedHdr rest hf hb hu ha =>
    obtain ⟨p, n, i, u, k, hs, -⟩ := h.awaiting (.inr (.inr hf))
    exact ha.inv (hv.unread ..) { hs with }
  | ackedChunk rest i hf hb hu hi ha =>
    obtain ⟨p, n, i', u, k, hs, hw⟩ := h.awaiting (.inr (.inr hf))
    obtain rfl : i' = i := Option.some.inj (hs.index.symm.trans hi)
    have hlt : i'.toNat < n.toNat := hw.chunk (Option.some.inj (hw.unit.symm.trans hu))
    have hle : (i' + 1).toNat ≤ n.toNat := (toNat_add_one_of_lt hlt).trans_le hlt
    exact ha.inv (p := p) (n := n) (i := i' + 1)
      ((hv.setChunkIdx (hle.trans (hv.ranges.nChunks n hs.chunks))).unread ..)
      { hs with index := rfl, bound := hle }
  | nothing rest hf ha => exact ValuesOk.inv_complete (hv.unread ..) _
  | pending a rest hf ha hp => exact ValuesOk.inv (hv.unread ..) (.inr (h.at_rxAvail hf))
  | badHeader r rest st hf hr hd ht => exact ht.inv (hv.unread ..)
  | goodHeader r rest i hf hr hd =>
    exact ValuesOk.inv (hv.unread ..) ⟨h.at_rxHdr hf, i.len, ⟨i.cmd, rfl⟩, ⟨i.src, rfl⟩, rfl⟩
  | tooLong l hf hl hc ht => exact ht.inv (hv.unread ..)
  | noChunk l hf hl hc hz ht =>
    obtain ⟨ho, -⟩ := h.at_rxHdrAck hf
    exact ht.inv ((hv.setChunks (n := 0) (Nat.zero_le _)).unread ..) ho
  | firstChunk l hf hl hc hz =>
    obtain ⟨ho, l', hcmd, hsrc, hl'⟩ := h.at_rxHdrAck hf
    obtain rfl : l' = l := Option.some.inj (hl'.symm.trans hl)
    have hn : (BitVec.ofNat 4 (nchunks l'.toNat)).toNat = nchunks l'.toNat :=
      toNat_ofNat_nchunks (hc.trans hv.rxCap_le)
    exact ValuesOk.inv ((hv.setChunks (hn.trans_le (hv.nchunks_le hc))).unread ..)
      ⟨l', _, 0, ⟨ho, ⟨hcmd, hsrc, hl'⟩, hc, rfl, hn, rfl, BitVec.lt_of_le_ne (Nat.zero_le _) hz.symm⟩, nofun⟩
  | badChunk r rest st hf hr hd ht => exact ht.inv (hv.unread ..)
  | goodChunk r d rest i hf hr hd hi hc =>
    obtain ⟨l, n, i', hk, hw⟩ := h.at_rxChunk hf
    obtain rfl : i' = i := Option.some.inj (hk.index.symm.trans hi)
    exact ValuesOk.inv ((hv.writeBlock hc).unread ..)
      ⟨l, n, i', { hk with }, writtenBelow_writeBlock hw (decodeChunk_length _ _ hd)⟩
  | lastChunk i n hf hi hn he ht =>
    obtain ⟨l, n', i', hk, -⟩ := h.at_rxChunkAck hf
    obtain rfl : n' = n := Option.some.inj (hk.chunks.symm.trans hn)
    exact ht.inv ((hv.setChunkIdx (he ▸ hk.count_le hv)).unread ..) hk.receiving
  | nextChunk i n hf hi hn he =>
    obtain ⟨l, n', i', hk, hw⟩ := h.at_rxChunkAck hf
    obtain rfl : n' = n := Option.some.inj (hk.chunks.symm.trans hn)
    obtain rfl : i' = i := Option.some.inj (hk.index.symm.trans hi)
    have hstep : (i' + 1).toNat = i'.toNat + 1 := toNat_add_one_of_lt hk.bound
    have hlt : (i' + 1).toNat < n'.toNat := BitVec.lt_of_le_ne (hstep.trans_le hk.bound) he
    exact ValuesOk.inv ((hv.setChunkIdx (hlt.le.trans (hk.count_le hv))).unread ..)
      ⟨l, n', i' + 1, { hk with index := rfl, bound := hlt }, hstep ▸ hw⟩

/-- Every next state: an explicit reset, one of the block's own steps, or an access through the reference that holds. -/
theorem step_cases (h : step s = .next t) :
    (∃ rest, s.env.acts = (0, .reset) :: rest ∧ t = takeReset (setActs rest s)) ∨
    (∃ x, Took (setActs x s) t) ∨ (∃ x, t = setActs x s) := by
  have e : setActs s.env.acts s = s := rfl
  rcases step_next.1 h with ⟨-, h⟩ | ⟨rest, hr, h⟩ | ⟨ref, rest, -, -, -, -, h⟩ | ⟨k, a, rest, -, h⟩
  · exact .inr (.inl ⟨s.env.acts, e ▸ took_of_fetch (whenEnabled_next.1 h).2.2⟩)
  · exact .inl ⟨rest, hr, h.symm⟩
  · exact .inr (.inr ⟨rest, h.symm⟩)
  · exact .inr (.inl ⟨(k, a) :: rest, took_of_fetch (whenEnabled_next.1 h).2.2⟩)

theorem Inv.step (h : Inv s) (hs : step s = .next t) : Inv t := by
  rcases step_cases hs with ⟨rest, -, rfl⟩ | ⟨x, ht⟩ | ⟨x, rfl⟩
  · exact (h.setActs rest).takeReset
  · exact ht.inv (h.setActs x)
  · exact h.setActs x

end Sys2Proof.Machine

namespace Sys2Proof.Proofs

open Sys2Proof.Machine

/-- Settles O36: the built configuration has R8's default capacity (log 2), and IDLE relies on no register. -/
theorem invariantHoldsAtReset : Obligations.InvariantHoldsAtReset :=
  inv_reset_with Cfg.built [.reset] Env.silent rfl

/-- Settles O37: a reset, each of the block's own steps, and an access to the buffer keep the invariant. -/
theorem everyStepKeepsTheInvariant : Obligations.EveryStepKeepsTheInvariant :=
  fun _ _ h hs => h.step hs

end Sys2Proof.Proofs
end
section
/-! PROOFS. The events of a step (spec/00_scope.md R14, R46; spec/10_state.md R27, R45): what each step appends to the
history, and that a unit is sent or read only after the previous one's acknowledgment. -/

namespace Sys2Proof.Machine

variable {s t u : State}

/-! ### The events of the endings that several steps share -/

theorem newEvents_eq {evs : List Event} (h : t.hist = s.hist ++ evs) : newEvents s t = evs := by
  simp [newEvents, h]

theorem Failed.events {st : Status} (h : Failed st u t) :
    ∃ evs, t.hist = u.hist ++ evs ∧ evs.filter isInput = [] := by
  cases h with
  | receive | drop => exact ⟨[_], rfl, rfl⟩
  | dropLogged => exact ⟨[_, _], List.append_assoc .., rfl⟩

theorem HandedOver.events (h : HandedOver u t) : ∃ evs, t.hist = u.hist ++ evs ∧ evs.filter isInput = [] := by
  cases h with
  | receive | deliver => exact ⟨[_], rfl, rfl⟩

/-- An acknowledged unit completes the SEND, with its response, or leads to the next chunk, with no event. -/
theorem Acked.events (h : Acked u t) :
    (t.fsm = .idle ∧ ∃ r, t.hist = u.hist ++ [.resp r]) ∨ (t.fsm = .txChunk ∧ t.hist = u.hist) := by
  cases h with
  | done => exact .inl ⟨rfl, _, rfl⟩
  | more => exact .inr ⟨rfl, rfl⟩

/-- An accepted request is recorded, and its response with it when it completes at once. -/
theorem Accepted.events {i : Instr} (h : Accepted u i t) :
    ∃ q d evs, t.hist = u.hist ++ .req q d :: evs ∧ (evs = [] ∨ ∃ r, evs = [.resp r]) := by
  cases h with
  | send | receive | poll => exact ⟨_, _, [], rfl, .inl rfl⟩
  | checksum | setId | registerHandler | attachDiag | handlerDone =>
    exact ⟨_, _, [_], List.append_assoc .., .inr ⟨_, rfl⟩⟩

/-! ### At most one transport input -/

/-- A step that appends `first` to the history and ends with events that are no inputs. -/
theorem appends_trans (first : List Event) (hu : u.hist = s.hist ++ first) (hf : (first.filter isInput).length ≤ 1)
    (ht : ∃ evs, t.hist = u.hist ++ evs ∧ evs.filter isInput = []) :
    ∃ evs, t.hist = s.hist ++ evs ∧ (evs.filter isInput).length ≤ 1 := by
  obtain ⟨evs, he, hn⟩ := ht
  exact ⟨first ++ evs, by rw [he, hu, List.append_assoc], by rwa [List.filter_append, hn, List.append_nil]⟩

theorem Took.appends (h : Took s t) : ∃ evs, t.hist = s.hist ++ evs ∧ (evs.filter isInput).length ≤ 1 := by
  cases h with
  | wait => exact ⟨[], (List.append_nil _).symm, Nat.zero_le 1⟩
  | accepted q data rest i hh hd ha =>
    obtain ⟨q, d, evs, ht, rfl | ⟨r, rfl⟩⟩ := ha.events
    · exact ⟨_, ht, Nat.zero_le 1⟩
    · exact ⟨_, ht, Nat.zero_le 1⟩
  | txHdr | txChunk | slept => exact ⟨[_], rfl, Nat.zero_le 1⟩
  | polled | empty | pending => exact ⟨[_], rfl, le_rfl⟩
  | timeout | mismatch | nothing => exact ⟨[_, _], List.append_assoc .., le_rfl⟩
  | ackedHdr rest hf hb hu ha =>
    rcases ha.events with ⟨-, r, ht⟩ | ⟨-, ht⟩
    · exact ⟨[_, _], ht.trans (List.append_assoc ..), le_rfl⟩
    · exact ⟨[_], ht, le_rfl⟩
  | ackedChunk rest i hf hb hu hi ha =>
    rcases ha.events with ⟨-, r, ht⟩ | ⟨-, ht⟩
    · exact ⟨[_, _], ht.trans (List.append_assoc ..), le_rfl⟩
    · exact ⟨[_], ht, le_rfl⟩
  | badHeader r rest st hf hr hd ht => exact appends_trans [_] rfl le_rfl ht.events
  | goodHeader | goodChunk => exact ⟨[_], rfl, le_rfl⟩
  | tooLong l hf hl hc ht => exact appends_trans [.write [s.cfg.ack], .flush] rfl (Nat.zero_le 1) ht.events
  | noChunk l hf hl hc hz ht => exact appends_trans [.write [s.cfg.ack], .flush] rfl (Nat.zero_le 1) ht.events
  | firstChunk | nextChunk => exact ⟨[_, _], rfl, Nat.zero_le 1⟩
  | badChunk r rest st hf hr hd ht => exact appends_trans [_] rfl le_rfl ht.events
  | lastChunk i n hf hi hn he ht => exact appends_trans [.write [s.cfg.ack], .flush] rfl (Nat.zero_le 1) ht.events

/-! ### Stop and wait -/

/-- A chunk is about to be written or read. -/
def atChunk (f : Fsm) : Prop := f = .txChunk ∨ f = .rxChunk

theorem Failed.not_atChunk {st : Status} (h : Failed st u t) : ¬ atChunk t.fsm := by
  cases h <;> simp [atChunk]

theorem HandedOver.not_atChunk (h : HandedOver u t) : ¬ atChunk t.fsm := by
  cases h <;> simp [atChunk]

theorem Accepted.not_atChunk {i : Instr} (h : Accepted u i t) : ¬ atChunk t.fsm := by
  cases h <;> simp [atChunk]

/-- The block accepts only while it listens to the host (R60). -/
theorem Accepted.listening {i : Instr} (h : Accepted u i t) : u.fsm = .idle ∨ u.fsm = .deliver := by
  cases h <;> simp [*]

/-- R98: the next chunk is built in the step that reads a matching acknowledgment, and that step has no other event. -/
theorem Took.into_txChunk (h : Took s t) (ht : t.fsm = .txChunk) :
    s.fsm = .awRead ∧ t.hist = s.hist ++ [.readByte s.cfg.ack] := by
  cases h with
  | wait hw => simp [answered, ht] at hw
  | accepted q data rest i hh hd ha => exact absurd (.inl ht) ha.not_atChunk
  | ackedHdr rest hf hb hu ha =>
    rcases ha.events with ⟨hi, -⟩ | ⟨-, hh⟩
    · cases hi.symm.trans ht
    · exact ⟨hf, hh⟩
  | ackedChunk rest i hf hb hu hi ha =>
    rcases ha.events with ⟨hi, -⟩ | ⟨-, hh⟩
    · cases hi.symm.trans ht
    · exact ⟨hf, hh⟩
  | badHeader r rest st hf hr hd he => exact absurd (.inl ht) he.not_atChunk
  | tooLong l hf hl hc he => exact absurd (.inl ht) he.not_atChunk
  | noChunk l hf hl hc hz he => exact absurd (.inl ht) he.not_atChunk
  | badChunk r rest st hf hr hd he => exact absurd (.inl ht) he.not_atChunk
  | lastChunk i n hf hi hn he he' => exact absurd (.inl ht) he'.not_atChunk
  | _ => cases ht

/-- R103, R105: a receive goes on to the next chunk in the step that acknowledges the unit before it. -/
theorem Took.into_rxChunk (h : Took s t) (ht : t.fsm = .rxChunk) (hs : s.fsm ≠ .rxChunk) :
    (s.fsm = .rxHdrAck ∨ s.fsm = .rxChunkAck) ∧ t.hist = s.hist ++ [.write [s.cfg.ack], .flush] := by
  cases h with
  | wait hw => exact absurd ht hs
  | accepted q data rest i hh hd ha => exact absurd (.inr ht) ha.not_atChunk
  | ackedHdr rest hf hb hu ha =>
    rcases ha.events with ⟨hi, -⟩ | ⟨hi, -⟩ <;> cases hi.symm.trans ht
  | ackedChunk rest i hf hb hu hi ha =>
    rcases ha.events with ⟨hi, -⟩ | ⟨hi, -⟩ <;> cases hi.symm.trans ht
  | badHeader r rest st hf hr hd he => exact absurd (.inr ht) he.not_atChunk
  | tooLong l hf hl hc he => exact absurd (.inr ht) he.not_atChunk
  | noChunk l hf hl hc hz he => exact absurd (.inr ht) he.not_atChunk
  | firstChunk l hf => exact ⟨.inl hf, rfl⟩
  | badChunk r rest st hf hr hd he => exact absurd (.inr ht) he.not_atChunk
  | lastChunk i n hf hi hn he he' => exact absurd (.inr ht) he'.not_atChunk
  | nextChunk i n hf => exact ⟨.inr hf, rfl⟩
  | _ => cases ht

/-- R97, R99: a sending step writes one unit and waits for its acknowledgment; no other case starts in these states. -/
theorem Took.from_sending (h : Took s t) (hs : s.fsm = .txHdr ∨ s.fsm = .txChunk) :
    t.fsm = .awPoll ∧ ∃ bs, t.hist = s.hist ++ [.write bs] := by
  cases h with
  | txHdr hdr => exact ⟨rfl, hdr, rfl⟩
  | txChunk c => exact ⟨rfl, c, rfl⟩
  | wait hw => rcases hs with hs | hs <;> simp [answered, hs] at hw
  | accepted q data rest i hh hd ha =>
    rcases ha.listening with hl | hl <;> rw [setHost_fsm] at hl <;> simp [hl] at hs
  | _ => simp_all

/-- R91 to R93: a step of the acknowledgment wait writes nothing; no other case starts in these states. -/
theorem Took.from_wait (h : Took s t) (hs : s.fsm = .awPoll ∨ s.fsm = .awSleep ∨ s.fsm = .awRead) :
    ∃ evs, t.hist = s.hist ++ evs ∧ written evs = [] := by
  cases h with
  | wait => exact ⟨[], (List.append_nil _).symm, rfl⟩
  | polled | empty | slept => exact ⟨[_], rfl, rfl⟩
  | timeout | mismatch => exact ⟨[_, _], List.append_assoc .., rfl⟩
  | ackedHdr rest hf hb hu ha =>
    rcases ha.events with ⟨-, r, ht⟩ | ⟨-, ht⟩
    · exact ⟨[_, _], ht.trans (List.append_assoc ..), rfl⟩
    · exact ⟨[_], ht, rfl⟩
  | ackedChunk rest i hf hb hu hi ha =>
    rcases ha.events with ⟨-, r, ht⟩ | ⟨-, ht⟩
    · exact ⟨[_, _], ht.trans (List.append_assoc ..), rfl⟩
    · exact ⟨[_], ht, rfl⟩
  | accepted q data rest i hh hd ha =>
    rcases ha.listening with hl | hl <;> rw [setHost_fsm] at hl <;> simp [hl] at hs
  | _ => simp_all

end Sys2Proof.Machine

namespace Sys2Proof.Proofs

open Sys2Proof.Machine

/-- Settles O40: a reset adds its one event, an access none, and each of the block's own steps at most one input. -/
theorem stepsOnlyAppendToTheHistory : Obligations.StepsOnlyAppendToTheHistory := by
  intro s t h
  obtain ⟨evs, ht, hn⟩ : ∃ evs, t.hist = s.hist ++ evs ∧ (evs.filter isInput).length ≤ 1 := by
    rcases step_cases h with ⟨rest, -, rfl⟩ | ⟨x, htook⟩ | ⟨x, rfl⟩
    · exact ⟨[.reset], rfl, Nat.zero_le 1⟩
    · exact htook.appends
    · exact ⟨[], (List.append_nil _).symm, Nat.zero_le 1⟩
  rw [newEvents_eq ht]
  exact ⟨ht, hn⟩

/-- Settles O45: what leads into a chunk's state, and what the sending and the waiting states write. -/
theorem stopAndWait : Obligations.StopAndWait := by
  intro s t hn h
  obtain ⟨x, ht⟩ := took_of_noAct hn h
  refine ⟨fun hf => ?_, fun hf hs => ?_, fun hs => ?_, fun hs => ?_⟩
  · obtain ⟨hr, hh⟩ := ht.into_txChunk hf
    exact ⟨hr, newEvents_eq hh⟩
  · obtain ⟨ha, hh⟩ := ht.into_rxChunk hf hs
    exact ⟨ha, newEvents_eq hh⟩
  · obtain ⟨hp, bs, hh⟩ := ht.from_sending hs
    exact ⟨hp, bs, newEvents_eq hh⟩
  · obtain ⟨evs, hh, hw⟩ := ht.from_wait hs
    exact (congrArg written (newEvents_eq hh)).trans hw

end Sys2Proof.Proofs
end
section
/-! PROOFS. Stops (spec/60_exceptions.md R126, R127; spec/00_scope.md R9): a stop leaves a state marked with its reason,
and a marked state takes no step until reset. -/

namespace Sys2Proof.Machine

variable {s t u : State}

/-- The reason of R126 or R127 that an outcome stops for, with the state it leaves. -/
def stopOf : Result → Option (Mark × State)
  | .fault (.noHandler u) => some (.noHandler, u)
  | .fault (.unwrittenRead u) => some (.unwrittenRead, u)
  | .fault (.outsideBuffer u) => some (.outsideBuffer, u)
  | .refused (.badDescriptor u) => some (.badDescriptor, u)
  | .refused (.payloadTooLong u) => some (.payloadTooLong, u)
  | .refused (.idLocked u) => some (.idLocked, u)
  | .refused (.noDelivery u) => some (.noDelivery, u)
  | .refused (.nestedRequest u) => some (.nestedRequest, u)
  | .refused (.badConfig u) => some (.badConfig, u)
  | .refused (.staleBuffer u) => some (.staleBuffer, u)
  | .refused (.notModelled _) => none
  | .next _ => none

@[simp] theorem stopOf_stop (m : Mark) (s : State) : stopOf (stop m s) = some (m, marked m s) := by
  cases m <;> rfl

theorem MarkedStop.mark_eq {r : Result} {m : Mark} (h : MarkedStop r) (hr : stopOf r = some (m, u)) :
    u.mark = some m := by
  cases h with
  | next x => cases hr
  | stop m' x =>
    rw [stopOf_stop] at hr
    cases hr
    rfl

/-- The state that a stop of a step leaves is marked with the reason of the stop. -/
theorem mark_of_step_stops {r : Result} {m : Mark} (h : step s = r) (hr : stopOf r = some (m, u)) :
    u.mark = some m :=
  (step_marked s).mark_eq (h ▸ hr)

/-- A step that answers a next state starts in an unmarked one, unless it is a reset. -/
theorem mark_eq_none_of_step (hn : noReset s = true) (h : step s = .next t) : s.mark = none := by
  rcases step_next.1 h with ⟨-, h⟩ | ⟨rest, hr, -⟩ | ⟨ref, rest, -, hm, -⟩ | ⟨k, a, rest, -, h⟩
  · exact (whenEnabled_next.1 h).1
  · simp [noReset, hr] at hn
  · exact hm
  · exact (whenEnabled_next.1 h).1

/-- An unmarked state with no act to come and a configuration that R9 does not admit refuses. -/
theorem step_of_bad_config (hm : s.mark = none) (ha : s.env.acts = []) (hc : ¬ cfgOk s.cfg = true) :
    step s = stop .badConfig s := by
  simp [step_eq, fetch, whenEnabled, ha, hm, hc]

end Sys2Proof.Machine

namespace Sys2Proof.Proofs

open Sys2Proof.Machine

/-- Settles O54: an enabled step starts unmarked, and every stop is made by `stop`, which marks the state it leaves. -/
theorem stopsAreFinal : Obligations.StopsAreFinal := by
  refine ⟨fun s m hm hn t h => ?_, fun s hm ha hc => ?_, ?_⟩
  · cases hm.symm.trans (mark_eq_none_of_step hn h)
  · exact step_of_bad_config hm ha (mt (cfgOk_iff s.cfg).1 hc)
  · and_intros <;> exact fun _ _ h => mark_of_step_stops h rfl

end Sys2Proof.Proofs
end
section
/-! PROOFS. What the block's own steps keep (spec/10_state.md R20 to R25; spec/30_encoding.md R60; spec/60_exceptions.md
R122): the configuration, the inputs the host presents, and the response until the request completes. -/

namespace Sys2Proof.Machine

variable {s t u : State}

/-! ### Steps that take no request -/

/-- The events of the host port: a request accepted (R29), a response given (R122). -/
def isPortEvent : Event → Bool
  | .req _ _ => true
  | .resp _ => true
  | .write _ | .flush | .avail _ | .read _ _ | .readByte _ | .tick | .deliver _ _ _ _ _ | .diag _ | .reset => false

theorem not_mem_of_no_port {evs : List Event} {e : Event} (h : evs.any isPortEvent = false)
    (he : isPortEvent e = true) : e ∉ evs := fun hm => by
  have := List.any_eq_false.1 h e hm
  contradiction

/-- From `s` to `u` the block did nothing at the host port: its events `evs` are others, and the configuration, the
inputs presented and the response are as before. -/
structure OffPort (s u : State) (evs : List Event) : Prop where
  cfg : u.cfg = s.cfg := by rfl
  config : SameConfig s u := by exact ⟨rfl, rfl, rfl, rfl⟩
  host : u.env.host = s.env.host := by rfl
  resp : u.resp = s.resp := by rfl
  hist : u.hist = s.hist ++ evs := by rfl
  events : evs.any isPortEvent = false := by rfl

theorem SameConfig.trans (h : SameConfig s u) (h' : SameConfig u t) : SameConfig s t :=
  ⟨h'.ownId.trans h.ownId, h'.idLocked.trans h.idLocked, h'.handler.trans h.handler, h'.diagEn.trans h.diagEn⟩

theorem OffPort.trans {evs evs' : List Event} (h : OffPort s u evs) (h' : OffPort u t evs') :
    OffPort s t (evs ++ evs') where
  cfg := h'.cfg.trans h.cfg
  config := h.config.trans h'.config
  host := h'.host.trans h.host
  resp := h'.resp.trans h.resp
  hist := by rw [h'.hist, h.hist, List.append_assoc]
  events := by rw [List.any_append, h.events, h'.events]; rfl

theorem OffPort.refl (s : State) : OffPort s s [] where
  hist := (List.append_nil _).symm

/-- The block goes on with its request, or completes it. -/
inductive OwnStep (s : State) : State → Prop where
  | goesOn {t : State} (evs : List Event) (h : OffPort s t evs) : OwnStep s t
  | completes {u : State} (evs : List Event) (r : Resp) (h : OffPort s u evs) : OwnStep s (complete r u)

theorem OffPort.ownStep {evs : List Event} (h : OffPort s u evs) (h' : OwnStep u t) : OwnStep s t := by
  cases h' with
  | goesOn evs' h' => exact .goesOn _ (h.trans h')
  | completes evs' r h' => exact .completes _ r (h.trans h')

theorem OwnStep.config (h : OwnStep s t) : SameConfig s t := by
  cases h with
  | goesOn evs h => exact h.config
  | completes evs r h => exact { h.config with }

theorem OwnStep.cfg (h : OwnStep s t) : t.cfg = s.cfg := by
  cases h with
  | goesOn evs h => exact h.cfg
  | completes evs r h => exact h.cfg

theorem Failed.ownStep {st : Status} (h : Failed st u t) : OwnStep u t := by
  cases h with
  | receive | drop => exact .completes [] _ (.refl u)
  | dropLogged => exact .completes [.diag (statusCode st)] _ {}

theorem HandedOver.ownStep (h : HandedOver u t) : OwnStep u t := by
  cases h with
  | receive => exact .completes [] _ (.refl u)
  | deliver token cmd src len p => exact .goesOn [.deliver token cmd src p len] {}

theorem Acked.ownStep (h : Acked u t) : OwnStep u t := by
  cases h with
  | done => exact .completes [] _ (.refl u)
  | more => exact .goesOn [] { hist := (List.append_nil _).symm }

/-- A step that is no act from outside accepts a request, or does nothing at the host port but complete one. -/
theorem Took.accepted_or_ownStep (h : Took s t) :
    (∃ rest i, Accepted (setHost rest s) i t) ∨ OwnStep s t := by
  cases h with
  | accepted q data rest i hh hd ha => exact .inl ⟨rest, i, ha⟩
  | wait => exact .inr (.goesOn [] (.refl s))
  | txHdr hdr => exact .inr (.goesOn [.write hdr] {})
  | txChunk c => exact .inr (.goesOn [.write c] {})
  | polled a | pending a => exact .inr (.goesOn [.avail a] {})
  | empty => exact .inr (.goesOn [.avail 0] {})
  | timeout | nothing => exact .inr (.completes [.avail 0] _ {})
  | slept => exact .inr (.goesOn [.tick] {})
  | mismatch b => exact .inr (.completes [.readByte b] _ {})
  | ackedHdr rest hf hb hu ha => exact .inr (OffPort.ownStep (evs := [.readByte s.cfg.ack]) {} ha.ownStep)
  | ackedChunk rest i hf hb hu hi ha => exact .inr (OffPort.ownStep (evs := [.readByte s.cfg.ack]) {} ha.ownStep)
  | badHeader r rest st hf hr hd ht =>
    exact .inr (OffPort.ownStep (evs := [.read hdrLen (r.take hdrLen)]) {} ht.ownStep)
  | goodHeader r => exact .inr (.goesOn [.read hdrLen (r.take hdrLen)] {})
  | tooLong l hf hl hc ht => exact .inr (OffPort.ownStep (evs := [.write [s.cfg.ack], .flush]) {} ht.ownStep)
  | noChunk l hf hl hc hz ht => exact .inr (OffPort.ownStep (evs := [.write [s.cfg.ack], .flush]) {} ht.ownStep)
  | firstChunk | nextChunk => exact .inr (.goesOn [.write [s.cfg.ack], .flush] {})
  | badChunk r rest st hf hr hd ht =>
    exact .inr (OffPort.ownStep (evs := [.read chunkLen (r.take chunkLen)]) {} ht.ownStep)
  | goodChunk r => exact .inr (.goesOn [.read chunkLen (r.take chunkLen)] {})
  | lastChunk i n hf hi hn he ht => exact .inr (OffPort.ownStep (evs := [.write [s.cfg.ack], .flush]) {} ht.ownStep)

/-! ### Wire units -/

theorem ownStep_of_rxHdr {r : List Byte} (h : rxHdr r s = .next t) : OwnStep s t := by
  rcases rxHdr_next.1 h with ⟨st, -, h⟩ | ⟨i, -, rfl⟩
  · exact OffPort.ownStep (evs := [.read hdrLen r]) {} (failed_of_next h).ownStep
  · exact .goesOn [.read hdrLen r] {}

theorem ownStep_of_rxChunk {r : List Byte} (h : rxChunk r s = .next t) : OwnStep s t := by
  rcases rxChunk_next.1 h with ⟨st, -, h⟩ | ⟨d, i, -, -, -, rfl⟩
  · exact OffPort.ownStep (evs := [.read chunkLen r]) {} (failed_of_next h).ownStep
  · exact .goesOn [.read chunkLen r] {}

theorem ownStep_of_awRead {b : Byte} (h : awRead b s = .next t) : OwnStep s t := by
  rcases awRead_next.1 h with ⟨-, h⟩ | ⟨-, rfl⟩
  · rcases ackOk_next.1 h with ⟨-, h⟩ | ⟨-, i, -, h⟩
    · exact OffPort.ownStep (evs := [.readByte b]) {} (acked_of_next h).ownStep
    · exact OffPort.ownStep (evs := [.readByte b]) {} (acked_of_next h).ownStep
  · exact .completes [.readByte b] _ {}

/-- A wire unit is no request: it does nothing at the host port but complete one. -/
theorem ownStep_of_exec_unit {i : Instr} (hi : isRequest i = false) (h : exec i s = .next t) : OwnStep s t := by
  cases i
  case header =>
    rcases execHeader_next.1 h with ⟨-, h⟩ | ⟨-, rfl⟩
    · exact ownStep_of_rxHdr h
    · exact .goesOn [] (.refl s)
  case chunk =>
    rcases execChunk_next.1 h with ⟨-, h⟩ | ⟨-, rfl⟩
    · exact ownStep_of_rxChunk h
    · exact .goesOn [] (.refl s)
  case ack =>
    rcases execAck_next.1 h with ⟨-, h⟩ | ⟨-, rfl⟩
    · exact ownStep_of_awRead h
    · exact .goesOn [] (.refl s)
  all_goals cases hi

/-! ### Configuration registers -/

/-- From `s` to `t` a configuration register changed only if `i` is the request that writes it (R115 to R117). -/
structure WrittenByItsRequest (i : Instr) (s t : State) : Prop where
  identity : (∀ a, i ≠ .setId a) → t.ownId = s.ownId ∧ t.idLocked = s.idLocked
  handler : (∀ n, i ≠ .registerHandler n) → t.handler = s.handler
  diagEn : (∀ en, i ≠ .attachDiag en) → t.diagEn = s.diagEn

theorem SameConfig.writtenByItsRequest (h : SameConfig s t) (i : Instr) : WrittenByItsRequest i s t :=
  ⟨fun _ => ⟨h.ownId, h.idLocked⟩, fun _ => h.handler, fun _ => h.diagEn⟩

theorem SameConfig.refl (s : State) : SameConfig s s := ⟨rfl, rfl, rfl, rfl⟩

theorem Accepted.cfg {i : Instr} (h : Accepted u i t) : t.cfg = u.cfg := by
  cases h <;> rfl

theorem Accepted.writtenByItsRequest {i : Instr} (h : Accepted u i t) : WrittenByItsRequest i u t := by
  cases h with
  | send | receive | poll | checksum | handlerDone => exact ⟨fun _ => ⟨rfl, rfl⟩, fun _ => rfl, fun _ => rfl⟩
  | setId a => exact ⟨fun hi => absurd rfl (hi a), fun _ => rfl, fun _ => rfl⟩
  | registerHandler n => exact ⟨fun _ => ⟨rfl, rfl⟩, fun hi => absurd rfl (hi n), fun _ => rfl⟩
  | attachDiag en => exact ⟨fun _ => ⟨rfl, rfl⟩, fun _ => rfl, fun hi => absurd rfl (hi en)⟩

/-- SET_ID is not accepted while the identity is locked (R115). -/
theorem Accepted.identity_of_locked {i : Instr} (h : Accepted u i t) (hk : u.idLocked = true) :
    t.ownId = u.ownId ∧ t.idLocked = true := by
  have hi : ∀ a, i ≠ .setId a := by
    rintro a rfl
    cases h with
    | setId _ _ hk' => cases hk.symm.trans hk'
  obtain ⟨ho, hl⟩ := h.writtenByItsRequest.identity hi
  exact ⟨ho, hl.trans hk⟩

/-- Outside IDLE only HANDLER_DONE is accepted (R60), which configures nothing. -/
theorem Accepted.config_of_ne_idle {i : Instr} (h : Accepted u i t) (hf : u.fsm ≠ .idle) : SameConfig u t := by
  cases h with
  | handlerDone => exact ⟨rfl, rfl, rfl, rfl⟩
  | _ => contradiction

theorem writtenByItsRequest_of_exec {i : Instr} (h : exec i s = .next t) : WrittenByItsRequest i s t := by
  cases hi : isRequest i with
  | true =>
    rcases accepted_of_next hi h with ha | ⟨-, -, rfl⟩
    · exact ha.writtenByItsRequest
    · exact (SameConfig.refl s).writtenByItsRequest i
  | false => exact (ownStep_of_exec_unit hi h).config.writtenByItsRequest i

theorem Took.cfg (h : Took s t) : t.cfg = s.cfg := by
  rcases h.accepted_or_ownStep with ⟨rest, i, ha⟩ | ho
  · exact ha.cfg
  · exact ho.cfg

theorem Took.identity_of_locked (h : Took s t) (hk : s.idLocked = true) : t.ownId = s.ownId ∧ t.idLocked = true := by
  rcases h.accepted_or_ownStep with ⟨rest, i, ha⟩ | ho
  · exact ha.identity_of_locked hk
  · exact ⟨ho.config.ownId, ho.config.idLocked.trans hk⟩

theorem Took.config_of_ne_idle (h : Took s t) (hf : s.fsm ≠ .idle) : SameConfig s t := by
  rcases h.accepted_or_ownStep with ⟨rest, i, ha⟩ | ho
  · exact { ha.config_of_ne_idle hf with }
  · exact ho.config

/-! ### The response -/

/-- From `s` to `t` the response stayed, or one was written and recorded once, last, with the block in IDLE (R122). -/
def RespondsAtMostOnce (s t : State) : Prop :=
  (t.resp = s.resp ∧ ∀ r, Event.resp r ∉ newEvents s t) ∨
  (∃ r evs, t.resp = some r ∧ t.fsm = .idle ∧ newEvents s t = evs ++ [.resp r] ∧ ∀ r', Event.resp r' ∉ evs)

theorem respondsAtMostOnce_of_no_response {evs : List Event} (hr : t.resp = s.resp) (hh : t.hist = s.hist ++ evs)
    (he : ∀ r, Event.resp r ∉ evs) : RespondsAtMostOnce s t :=
  .inl ⟨hr, by rwa [newEvents_eq hh]⟩

theorem respondsAtMostOnce_complete {evs : List Event} (r : Resp) (hh : u.hist = s.hist ++ evs)
    (he : ∀ r, Event.resp r ∉ evs) : RespondsAtMostOnce s (complete r u) :=
  .inr ⟨r, evs, rfl, rfl, newEvents_eq (by rw [complete_hist, hh, List.append_assoc]), he⟩

theorem Accepted.respondsAtMostOnce {i : Instr} (h : Accepted u i t) : RespondsAtMostOnce u t := by
  cases h with
  | send | receive | poll => exact respondsAtMostOnce_of_no_response (evs := [.req _ _]) rfl rfl (by simp)
  | checksum | setId | registerHandler | attachDiag | handlerDone =>
    exact respondsAtMostOnce_complete (evs := [.req _ _]) _ rfl (by simp)

theorem OwnStep.respondsAtMostOnce (h : OwnStep s t) : RespondsAtMostOnce s t := by
  cases h with
  | goesOn evs h =>
    exact respondsAtMostOnce_of_no_response h.resp h.hist fun _ => not_mem_of_no_port h.events rfl
  | completes evs r h => exact respondsAtMostOnce_complete r h.hist fun _ => not_mem_of_no_port h.events rfl

theorem Took.respondsAtMostOnce (h : Took s t) : RespondsAtMostOnce s t := by
  rcases h.accepted_or_ownStep with ⟨rest, i, ha⟩ | ho
  · exact ha.respondsAtMostOnce
  · exact ho.respondsAtMostOnce

/-! ### Held requests -/

/-- The block goes on or completes a request without a look at the host port (R29, R60). -/
theorem OwnStep.holds_requests (h : OwnStep s t) :
    t.env.host = s.env.host ∧ ∀ q d, Event.req q d ∉ newEvents s t := by
  cases h with
  | goesOn evs h =>
    rw [newEvents_eq h.hist]
    exact ⟨h.host, fun _ _ => not_mem_of_no_port h.events rfl⟩
  | completes evs r h =>
    rw [newEvents_eq (evs := evs ++ [.resp r]) (by rw [complete_hist, h.hist, List.append_assoc])]
    refine ⟨h.host, fun q d hm => ?_⟩
    rcases List.mem_append.1 hm with hm | hm
    · exact not_mem_of_no_port h.events rfl hm
    · simp at hm

/-- A busy block accepts nothing. -/
theorem Took.ownStep_of_busy (h : Took s t) (hb : busy s.fsm = true) : OwnStep s t := by
  rcases h.accepted_or_ownStep with ⟨rest, i, ha⟩ | ho
  · rcases ha.listening with hf | hf <;> rw [setHost_fsm] at hf <;> simp [busy, hf] at hb
  · exact ho

end Sys2Proof.Machine

namespace Sys2Proof.Proofs

open Sys2Proof.Machine

/-- Settles O39: an accepted request writes its own register alone, every other step none of them, and SET_ID is not
accepted once the identity is locked. -/
theorem configurationRegistersAreWrittenByTheirRequests :
    Obligations.ConfigurationRegistersAreWrittenByTheirRequests := by
  refine ⟨fun s t h => ?_, fun s t hn h => ?_, fun i s t h => ?_⟩
  · rcases step_cases h with ⟨rest, -, rfl⟩ | ⟨x, ht⟩ | ⟨x, rfl⟩
    · rfl
    · exact ht.cfg
    · rfl
  · rcases took_of_step hn h with ⟨x, ht⟩ | ⟨ref, rest, -, -, rfl⟩
    · exact ⟨ht.identity_of_locked, fun hf => { ht.config_of_ne_idle hf with }⟩
    · exact ⟨fun hk => ⟨rfl, hk⟩, fun _ => ⟨rfl, rfl, rfl, rfl⟩⟩
  · obtain ⟨hid, hh, hd⟩ := writtenByItsRequest_of_exec h
    exact ⟨hid, hh, hd⟩

/-- Settles O42: only `complete` writes the response, and it ends the step that calls it. -/
theorem responseIsWrittenOnlyAtCompletion : Obligations.ResponseIsWrittenOnlyAtCompletion := by
  intro s t hn h
  rcases took_of_step hn h with ⟨x, ht⟩ | ⟨ref, rest, -, -, rfl⟩
  · exact ht.respondsAtMostOnce
  · exact respondsAtMostOnce_of_no_response (evs := []) rfl (List.append_nil _).symm nofun

end Sys2Proof.Proofs
end
section
/-! PROOFS. The step of an undisturbed block at its ports: a presented request (spec/30_encoding.md R60), a tick
(spec/10_state.md R28, spec/43_ack_channel.md R92), and a read (spec/44_transceiver.md R102, R104). -/

namespace Sys2Proof.Machine

variable {s t : State}

/-! ### Presented requests -/

theorem step_listening (h : Undisturbed s) (hf : s.fsm = .idle ∨ s.fsm = .deliver) :
    step s = answerOf (fetchHost s) := by
  rw [step_undisturbed h]
  rcases hf with hf | hf <;> simp [fetchByState, hf]

/-- A listening block runs the request it is presented, once that is off the port (log 24). -/
theorem step_of_request {q : Descriptor} {data : Option (List Byte)} {rest : List HostInput} {i : Instr}
    (h : Undisturbed s) (hf : s.fsm = .idle ∨ s.fsm = .deliver) (hh : s.env.host = .request q data :: rest)
    (hd : decode (.request q data) = .ok i) : step s = exec i (setHost rest s) := by
  simp [step_listening h hf, fetchHost, hh, hd]

theorem step_of_bad_request {q : Descriptor} {data : Option (List Byte)} {rest : List HostInput} {e : DecodeError}
    (h : Undisturbed s) (hf : s.fsm = .idle ∨ s.fsm = .deliver) (hh : s.env.host = .request q data :: rest)
    (hd : decode (.request q data) = .error e) : step s = refuseDescriptor (setHost rest s) := by
  simp [step_listening h hf, fetchHost, hh, hd]

theorem refuseDescriptor_idle (hf : s.fsm = .idle) : refuseDescriptor s = stop .badDescriptor s := by
  simp [refuseDescriptor, hf]

theorem refuseDescriptor_deliver (hf : s.fsm = .deliver) : refuseDescriptor s = stop .nestedRequest s := by
  simp [refuseDescriptor, hf]

theorem exec_handlerDone_idle (hf : s.fsm = .idle) : exec .handlerDone s = stop .noDelivery s := by
  simp [exec, execHandlerDone, acceptDone, hf]

/-- DELIVER refuses every request but HANDLER_DONE (R60). -/
theorem exec_request_deliver {i : Instr} (hf : s.fsm = .deliver) (hr : isRequest i = true) (hi : i ≠ .handlerDone) :
    exec i s = stop .nestedRequest s := by
  cases i with
  | handlerDone => exact absurd rfl hi
  | header | chunk | ack => cases hr
  | _ => exact acceptRequest_deliver s _ hf

/-! ### Ticks -/

theorem step_awSleep (h : Undisturbed s) (hf : s.fsm = .awSleep) : step s = awSleep s := by
  simp [step_undisturbed h, fetchByState, hf]

/-! ### Reads -/

/-- A header read of at most eight bytes goes to the step of R102. -/
theorem step_rxHdr {r : List Byte} {rest : List (List Byte)} (h : Undisturbed s) (hf : s.fsm = .rxHdr)
    (hr : s.env.reads = r :: rest) (hl : r.length ≤ hdrLen) : step s = rxHdr r (setReads rest s) := by
  have hstep : step s = answerOf (fetchHeader s) := by simp [step_undisturbed h, fetchByState, hf]
  rw [hstep, fetchHeader_cons hf hr, List.take_of_length_le hl]

/-- A chunk read of at most 33 bytes goes to the step of R104. -/
theorem step_rxChunk {r : List Byte} {rest : List (List Byte)} (h : Undisturbed s) (hf : s.fsm = .rxChunk)
    (hr : s.env.reads = r :: rest) (hl : r.length ≤ chunkLen) : step s = rxChunk r (setReads rest s) := by
  have hstep : step s = answerOf (fetchChunk s) := by simp [step_undisturbed h, fetchByState, hf]
  rw [hstep, fetchChunk_cons hf hr, List.take_of_length_le hl]

theorem rxHdr_error {r : List Byte} {st : Status} (hd : decodeHeader s.cfg r s.ownId = .error st) :
    rxHdr r s = rxFail st (log [.read hdrLen r] s) := by
  simp [rxHdr, hd]

theorem rxHdr_ok {r : List Byte} {i : HeaderInfo} (hd : decodeHeader s.cfg r s.ownId = .ok i) :
    rxHdr r s = .next (goTo .rxHdrAck (setRxHeader i.cmd i.src i.len (log [.read hdrLen r] s))) :=
  rxHdr_next.2 (.inr ⟨i, hd, rfl⟩)

theorem rxChunk_error {r : List Byte} {st : Status} (hd : decodeChunk r = .error st) :
    rxChunk r s = rxFail st (log [.read chunkLen r] s) := by
  simp [rxChunk, hd]

theorem rxChunk_ok {r d : List Byte} {i : BitVec 4} (hd : decodeChunk r = .ok d) (hi : s.chunkIdx = some i)
    (hc : chunkData * i.toNat + chunkData ≤ s.cfg.rxCap) :
    rxChunk r s = .next (goTo .rxChunkAck
      (setRxBuf (cellsSet s.rxBuf (chunkData * i.toNat) d) (log [.read chunkLen r] s))) :=
  rxChunk_next.2 (.inr ⟨d, i, hd, hi, (decodeChunk_length r d hd).symm ▸ hc, rfl⟩)

end Sys2Proof.Machine

namespace Sys2Proof.Proofs

open Sys2Proof.Machine

/-- Settles O24: a listening block runs or refuses what it decodes, by its state; a busy one does not look at the
port. -/
theorem requestsAreAcceptedByTheState : Obligations.RequestsAreAcceptedByTheState := by
  intro q data rest s h hh u
  refine ⟨fun hf => ⟨fun e hd => ?_, fun hd => ?_, fun i hd _ => ?_⟩, fun hf => ⟨fun hd => ?_, fun hne => ?_⟩,
    fun hb t ht => ?_⟩
  · exact (step_of_bad_request h (.inl hf) hh hd).trans (refuseDescriptor_idle hf)
  · exact (step_of_request h (.inl hf) hh hd).trans (exec_handlerDone_idle hf)
  · exact step_of_request h (.inl hf) hh hd
  · exact step_of_request h (.inr hf) hh hd
  · cases hd : decode (.request q data) with
    | error e => exact (step_of_bad_request h (.inr hf) hh hd).trans (refuseDescriptor_deliver hf)
    | ok i =>
      have hi : i ≠ .handlerDone := fun e => hne (hd.trans (congrArg _ e))
      exact (step_of_request h (.inr hf) hh hd).trans (exec_request_deliver hf (isRequest_of_decode hd) hi)
  · rw [step_undisturbed h] at ht
    exact ((took_of_fetch ht).ownStep_of_busy hb).holds_requests

/-- Settles O27: the number of ticks pending decides. -/
theorem ackSleepWaitsForATick : Obligations.AckSleepWaitsForATick := by
  intro s h hf
  rw [step_awSleep h hf]
  exact ⟨fun hk => awSleep_next.2 (.inl ⟨hk, rfl⟩), fun k hk => awSleep_next.2 (.inr ⟨k, hk, rfl⟩)⟩

/-- Settles O31: a full read goes to the decoder as a wire unit, a short one by the same step. -/
theorem readsGoToTheirDecoder : Obligations.ReadsGoToTheirDecoder := by
  intro s r rest h hr
  refine ⟨fun hf hl => ?_, fun hf hl => ?_⟩
  · rw [step_rxHdr h hf hr hl]
    exact ⟨fun st hd => rxHdr_error hd, fun i hd => rxHdr_ok hd⟩
  · rw [step_rxChunk h hf hr hl]
    exact ⟨fun st hd => rxChunk_error hd, fun d i hd hi hc => rxChunk_ok hd hi hc⟩

end Sys2Proof.Proofs
end
section
/-! PROOFS. No step of a state with the invariant reads an unwritten register or cell, or writes outside the buffer
(spec/10_state.md R18, spec/20_memory.md R32, R33): a busy block goes on or meets NoHandler, and what a listening one
decodes never faults. -/

namespace Sys2Proof.Machine

variable {s t : State}

/-! ### Outcomes -/

/-- A next state, or the one fault of R126 that a busy block can meet. -/
inductive GoesOn : Result → Prop where
  | next (t : State) : GoesOn (.next t)
  | noHandler (u : State) : GoesOn (.fault (.noHandler u))

theorem GoesOn.of_next {r : Result} (h : r = .next t) : GoesOn r := h ▸ .next t

theorem GoesOn.of_noHandler {r : Result} (h : r = stop .noHandler s) : GoesOn r := h ▸ .noHandler _

/-- Neither the fault UnwrittenRead nor the model's own fault for a write beyond `RX_CAP` (log 14). -/
def InBounds (r : Result) : Prop := ∀ u, r ≠ .fault (.unwrittenRead u) ∧ r ≠ .fault (.outsideBuffer u)

theorem GoesOn.inBounds {r : Result} (h : GoesOn r) : InBounds r := by
  cases h <;> exact fun _ => ⟨nofun, nofun⟩

theorem inBounds_of_no_fault {r : Result} (h : ∀ f, r ≠ .fault f) : InBounds r := fun _ => ⟨h _, h _⟩

/-! ### A listening block -/

theorem acceptRequest_no_fault {body : Result} (h : ∀ f, body ≠ .fault f) (f : Fault) :
    acceptRequest s body ≠ .fault f := by
  cases hf : s.fsm <;> simp [acceptRequest, hf, stop, h]

theorem acceptDone_no_fault {body : Result} (h : ∀ f, body ≠ .fault f) (f : Fault) :
    acceptDone s body ≠ .fault f := by
  cases hf : s.fsm <;> simp [acceptDone, hf, stop, h]

theorem refuseDescriptor_no_fault (f : Fault) : refuseDescriptor s ≠ .fault f := by
  cases hf : s.fsm <;> simp [refuseDescriptor, hf, stop]

/-- A request is run, held or refused. -/
theorem exec_request_no_fault {i : Instr} (hi : isRequest i = true) (f : Fault) : exec i s ≠ .fault f := by
  cases i with
  | header | chunk | ack => cases hi
  | send | checksum | setId =>
    refine acceptRequest_no_fault (fun f => ?_) f
    split_ifs <;> simp [stop, respond]
  | receive | poll | registerHandler | attachDiag => exact acceptRequest_no_fault (fun _ => by simp [respond]) f
  | handlerDone => exact acceptDone_no_fault (fun _ => by simp [respond]) f

theorem fetchHost_no_fault (f : Fault) : answerOf (fetchHost s) ≠ .fault f := by
  rcases hh : s.env.host with _ | ⟨⟨q, data⟩, rest⟩
  · simp [fetchHost, hh]
  · cases hd : decode (.request q data) with
    | error e => simpa [fetchHost, hh, hd] using refuseDescriptor_no_fault f
    | ok i => simpa [fetchHost, hh, hd] using exec_request_no_fault (isRequest_of_decode hd) f

/-! ### The endings of a receive -/

theorem rxFail_goesOn {st : Status} (ho : Receiving s) : GoesOn (rxFail st s) := by
  rcases ho with ho | ho
  · exact .of_next (rxFail_next.2 (.inl ⟨ho, rfl⟩))
  · exact .of_next (rxFail_next.2 (.inr ⟨.inr ho, dispatchDrop_next.2 rfl⟩))

/-- The message's cells are written, so its payload can be read (R33). -/
theorem rxOk_goesOn {l : Half} (ho : Receiving s) (hk : HeaderKnown s l) (hw : writtenBelow s l.toNat) :
    GoesOn (rxOk s) := by
  obtain ⟨⟨cmd, hc⟩, ⟨src, hs⟩, hl⟩ := hk
  obtain ⟨p, hp⟩ : ∃ p, cellsAt s.rxBuf 0 l.toNat = some p :=
    Option.isSome_iff_exists.1 ((cellsAt_isSome _ _ _).2 fun a _ ha => hw a (by omega))
  rcases ho with ho | ho
  · exact .of_next (rxOk_next.2 (.inl ⟨ho, cmd, src, l, p, hc, hs, hl, hp, rfl⟩))
  · cases hh : s.handler with
    | none => exact .of_noHandler (s := s) (by simp [rxOk, ho, dispatchDeliver, hh])
    | some token =>
      exact .of_next (rxOk_next.2
        (.inr ⟨.inr ho, dispatchDeliver_next.2 ⟨token, cmd, src, l, p, hh, hc, hs, hl, hp, rfl⟩⟩))

/-- A message that fits into `i` chunks is written when their cells are. -/
theorem writtenBelow_of_nchunks {l : Nat} (hw : writtenBelow s (chunkData * nchunks l)) : writtenBelow s l :=
  fun a ha => hw a (ha.trans_le (le_nchunks l))

/-! ### A busy block -/

theorem askAvail_goesOn {k : Nat → State → Result}
    (h : ∀ a rest, GoesOn (k a (log [.avail a] (setAvails rest s)))) : GoesOn (askAvail s k) := by
  unfold askAvail
  split
  · exact .next s
  · exact h _ _

theorem awPoll_goesOn {k : BitVec 7} (hk : s.ackAttempts = some k) : GoesOn (awPoll s) := by
  refine askAvail_goesOn fun a rest => ?_
  simp only [log_ackAttempts, setAvails_ackAttempts, hk, readReg_some]
  split_ifs <;> exact .next _

theorem awSleep_goesOn : GoesOn (awSleep s) := by
  unfold awSleep
  split <;> exact .next _

theorem rxAvail_goesOn : GoesOn (rxAvail s) := by
  refine askAvail_goesOn fun a rest => ?_
  split_ifs <;> exact .next _

theorem nextUnit_goesOn {p : List Byte} {n i : BitVec 4} (hi : s.chunkIdx = some i) (hn : s.nChunks = some n)
    (hp : s.txPayload = some p) : GoesOn (nextUnit s) := by
  by_cases he : i = n
  · exact .of_next (nextUnit_next.2 ⟨i, n, hi, hn, .inl ⟨he, rfl⟩⟩)
  · exact .of_next (nextUnit_next.2 ⟨i, n, hi, hn, .inr ⟨he, p, hp, rfl⟩⟩)

theorem ackOk_goesOn {p : List Byte} {n i : BitVec 4} {u : AckUnit} (hs : Sending s p n i)
    (hu : s.ackUnit = some u) : GoesOn (ackOk s) := by
  cases u with
  | hdr =>
    have e : ackOk s = nextUnit s := by simp [ackOk, hu]
    exact e ▸ nextUnit_goesOn hs.index hs.chunks hs.payload
  | chunk =>
    have e : ackOk s = nextUnit (setChunkIdx (i + 1) s) := by simp [ackOk, hu, hs.index]
    exact e ▸ nextUnit_goesOn rfl hs.chunks hs.payload

theorem awRead_goesOn {b : Byte} {p : List Byte} {n i : BitVec 4} {u : AckUnit} (hs : Sending s p n i)
    (hu : s.ackUnit = some u) : GoesOn (awRead b s) := by
  unfold awRead
  dsimp only
  split_ifs
  · exact ackOk_goesOn { hs with } hu
  · exact .next _

theorem rxHdr_goesOn {r : List Byte} (ho : Receiving s) : GoesOn (rxHdr r s) := by
  unfold rxHdr
  dsimp only
  split
  · exact rxFail_goesOn ho
  · exact .next _

/-- A chunk's block lies inside the buffer: the message fits, and the capacity is a multiple of 32 (R32). -/
theorem Chunking.block_fits {l : Half} {n i : BitVec 4} (h : Chunking s l n i) (hc : cfgOk s.cfg = true) :
    chunkData * i.toNat + chunkData ≤ s.cfg.rxCap :=
  calc chunkData * i.toNat + chunkData = chunkData * (i.toNat + 1) := (Nat.mul_succ ..).symm
    _ ≤ chunkData * nchunks l.toNat := Nat.mul_le_mul_left _ (h.bound.trans_eq h.count)
    _ ≤ s.cfg.rxCap := nchunks_fits h.fits ((cfgOk_iff s.cfg).1 hc).1

theorem rxChunk_goesOn {r : List Byte} {l : Half} {n i : BitVec 4} (h : Chunking s l n i)
    (hc : cfgOk s.cfg = true) : GoesOn (rxChunk r s) := by
  cases hd : decodeChunk r with
  | error st => exact rxChunk_error hd ▸ rxFail_goesOn h.receiving
  | ok d => exact .of_next (rxChunk_ok hd h.index (h.block_fits hc))

theorem rxHdrAck_goesOn {l : Half} (hv : ValuesOk s) (ho : Receiving s) (hk : HeaderKnown s l) :
    GoesOn (rxHdrAck s) := by
  have hl : s.rxLen = some l := hk.2.2
  simp only [rxHdrAck, sendAck_rxLen, hl, readReg_some]
  split_ifs with hc hz
  · exact rxFail_goesOn ho
  · have hn : nchunks l.toNat = 0 := by
      rw [← toNat_ofNat_nchunks ((Nat.le_of_not_lt hc).trans hv.rxCap_le), hz]; rfl
    exact rxOk_goesOn ho hk (writtenBelow_of_nchunks (by rw [hn]; exact nofun))
  · exact .next _

theorem rxChunkAck_goesOn {l : Half} {n i : BitVec 4} (h : Chunking s l n i)
    (hw : writtenBelow s (chunkData * (i.toNat + 1))) : GoesOn (rxChunkAck s) := by
  simp only [rxChunkAck, sendAck_chunkIdx, h.index, readReg_some, setChunkIdx_nChunks, sendAck_nChunks, h.chunks]
  split_ifs with he
  · have hn : nchunks l.toNat = i.toNat + 1 := by rw [← h.count, ← he, toNat_add_one_of_lt h.bound]
    exact rxOk_goesOn h.receiving h.header (writtenBelow_of_nchunks (by rw [hn]; exact hw))
  · exact .next _

/-- A busy block with the invariant goes on, or meets NoHandler. -/
theorem Inv.goesOn (h : Inv s) (hb : busy s.fsm = true) : GoesOn (answerOf (fetchByState s)) := by
  unfold fetchByState
  cases hf : s.fsm <;> dsimp only [answerOf_answer]
  case idle | deliver => rw [hf] at hb; cases hb
  case txHdr =>
    obtain ⟨p, n, hs⟩ := h.at_txHdr hf
    obtain ⟨cmd, src, dst, -, -, -, hr⟩ := hs.header
    exact .of_next (txHdr_next.2 ⟨_, hr, rfl⟩)
  case txChunk =>
    obtain ⟨p, n, i, -, -, hr⟩ := h.at_txChunk hf
    exact .of_next (txChunk_next.2 ⟨_, hr, rfl⟩)
  case awPoll =>
    obtain ⟨p, n, i, u, k, -, ha⟩ := h.awaiting (.inl hf)
    exact awPoll_goesOn ha.attempts
  case awSleep => exact awSleep_goesOn
  case awRead =>
    obtain ⟨p, n, i, u, k, hs, ha⟩ := h.awaiting (.inr (.inr hf))
    rcases hb : s.env.bytes with _ | ⟨b, rest⟩
    · simp only [fetchAck, hb, answerOf_answer]; exact .next s
    · exact fetchAck_cons hf hb ▸ awRead_goesOn { hs with } ha.unit
  case rxAvail => exact rxAvail_goesOn
  case rxHdr =>
    rcases hr : s.env.reads with _ | ⟨r, rest⟩
    · simp only [fetchHeader, hr, answerOf_answer]; exact .next s
    · exact fetchHeader_cons hf hr ▸ rxHdr_goesOn (h.at_rxHdr hf)
  case rxHdrAck =>
    obtain ⟨ho, l, hk⟩ := h.at_rxHdrAck hf
    exact rxHdrAck_goesOn h.values ho hk
  case rxChunk =>
    obtain ⟨l, n, i, hk, -⟩ := h.at_rxChunk hf
    rcases hr : s.env.reads with _ | ⟨r, rest⟩
    · simp only [fetchChunk, hr, answerOf_answer]; exact .next s
    · exact fetchChunk_cons hf hr ▸ rxChunk_goesOn (s := setReads rest s) { hk with } h.config
  case rxChunkAck =>
    obtain ⟨l, n, i, hk, hw⟩ := h.at_rxChunkAck hf
    exact rxChunkAck_goesOn hk hw

/-! ### Any step -/

theorem Inv.fetchByState_inBounds (h : Inv s) : InBounds (answerOf (fetchByState s)) := by
  cases hb : busy s.fsm with
  | true => exact (h.goesOn hb).inBounds
  | false =>
    have hf : s.fsm = .idle ∨ s.fsm = .deliver := by simpa [busy, or_iff_not_imp_left] using hb
    have e : fetchByState s = fetchHost s := by rcases hf with hf | hf <;> simp [fetchByState, hf]
    exact e ▸ inBounds_of_no_fault fetchHost_no_fault

theorem whenEnabled_inBounds {f : Fetched} (hm : s.mark = none) (h : InBounds (answerOf f)) :
    InBounds (answerOf (whenEnabled s f)) := by
  simp only [whenEnabled, hm]
  split_ifs
  · exact h
  · exact inBounds_of_no_fault fun _ => by simp [stop]

theorem accessBuffer_no_fault (ref : Nat) (f : Fault) : accessBuffer ref s ≠ .fault f := by
  unfold accessBuffer
  split_ifs <;> simp [stop]

theorem Inv.step_inBounds (h : Inv s) (hm : s.mark = none) : InBounds (Machine.step s) := by
  rw [step_eq, fetch]
  split
  · exact whenEnabled_inBounds hm h.fetchByState_inBounds
  · exact (GoesOn.next _).inBounds
  · exact whenEnabled_inBounds hm (inBounds_of_no_fault (accessBuffer_no_fault _))
  · exact whenEnabled_inBounds hm (h.setActs _).fetchByState_inBounds

end Sys2Proof.Machine

namespace Sys2Proof.Proofs

open Sys2Proof.Machine

/-- Settles O38: the invariant has every register and cell written that the step of its state reads, and the chunk's
block inside the buffer. -/
theorem noUnwrittenReadAndNoOutsideWrite : Obligations.NoUnwrittenReadAndNoOutsideWrite :=
  fun _ u h hm => h.step_inBounds hm u

end Sys2Proof.Proofs
end
section
/-! PROOFS. The receive buffer (spec/20_memory.md R32 to R36, R48; spec/44_transceiver.md R104): what the chunks of a
message carry, where a chunk is stored, what no other step writes, and which retained references into it hold. -/

namespace Sys2Proof.Machine

variable {s t u : State}

/-! ### The chunks of a message -/

@[simp] theorem encodeChunk_take (p : List Byte) (k : Nat) : (encodeChunk p k).take 32 = chunkField p k :=
  List.take_left' (chunkField_length p k)

/-- The first `n` data fields are the payload's first `32 * n` bytes, then zeros where it has fewer (R84). -/
theorem flatten_chunkFields (p : List Byte) (n : Nat) :
    ((List.range n).map (chunkField p)).flatten =
      p.take (chunkData * n) ++ zeros (chunkData * n - p.length) := by
  induction n with
  | zero => simp
  | succ n ih =>
    rw [List.range_succ, List.map_append, List.flatten_append, ih, List.map_singleton, List.flatten_singleton,
      chunkField, Nat.mul_succ]
    rcases Nat.le_total (chunkData * n) p.length with hle | hle
    · have hpad : chunkData - ((p.drop (chunkData * n)).take chunkData).length =
          chunkData * n + chunkData - p.length := by simp; omega
      rw [List.take_add, hpad, Nat.sub_eq_zero_of_le hle]
      simp
    · have hpad : chunkData * n + chunkData - p.length = chunkData * n - p.length + chunkData := Nat.sub_add_comm hle
      rw [List.drop_of_length_le hle, List.take_of_length_le hle, List.take_of_length_le (Nat.le_add_right_of_le hle),
        hpad]
      simp

/-! ### The unit CHUNK -/

/-- R85 on the 33 bytes of a chunk: the checksum decides. -/
theorem decodeChunk_append {d : List Byte} (hd : d.length = chunkData) (k : Byte) :
    decodeChunk (d ++ [k]) = if crc8 d = k then .ok d else .error .badChecksum := by
  have hlen : (d ++ [k]).length = chunkLen := by simp [hd, chunkData, chunkLen]
  have htake : (d ++ [k]).take chunkData = d := List.take_left' hd
  have hbyte : byteAt (d ++ [k]) chunkData = k := by simp [byteAt, ← hd]
  simp [decodeChunk, hlen, htake, hbyte]

/-- A receive that fails writes the response, `fsm` and the history, and nothing else (R107, R113). -/
theorem Failed.frame {st : Status} (h : Failed st u t) :
    ∃ r f evs, t = { u with resp := r, fsm := f, hist := u.hist ++ evs } := by
  cases h with
  | receive | drop => exact ⟨_, _, [_], rfl⟩
  | dropLogged => exact ⟨_, _, [_, _], by simp only [complete, log, List.append_assoc]; rfl⟩

/-- CHUNK writes the buffer, the response, `fsm` and the history, and nothing else; the buffer only where the unit is
read and passes its check, and then at the chunk's place (R104). -/
theorem exec_chunk_frame {d : List Byte} {k : Byte} (hd : d.length = chunkData) (h : exec (.chunk d k) s = .next t) :
    ∃ m r f evs, t = { s with rxBuf := m, resp := r, fsm := f, hist := s.hist ++ evs } ∧
      (m = s.rxBuf ∨ s.fsm = .rxChunk ∧ crc8 d = k ∧
        ∃ i, s.chunkIdx = some i ∧ m = cellsSet s.rxBuf (chunkData * i.toNat) d) := by
  rcases execChunk_next.1 h with ⟨hf, h⟩ | ⟨-, rfl⟩
  · rw [rxChunk_next, decodeChunk_append hd] at h
    rcases h with ⟨st, -, h⟩ | ⟨d', i, hok, hi, -, rfl⟩
    · obtain ⟨r, f, evs, rfl⟩ := (failed_of_next h).frame
      exact ⟨s.rxBuf, r, f, [.read chunkLen (d ++ [k])] ++ evs, by simp [log], .inl rfl⟩
    · split at hok
      · next hc =>
        cases hok
        exact ⟨_, s.resp, .rxChunkAck, [.read chunkLen (d ++ [k])], rfl, .inr ⟨hf, hc, i, hi, rfl⟩⟩
      · cases hok
  · exact ⟨s.rxBuf, s.resp, s.fsm, [], by simp, .inl rfl⟩

/-! ### Every other step -/

theorem Failed.rxBuf {st : Status} (h : Failed st u t) : t.rxBuf = u.rxBuf := by
  obtain ⟨r, f, evs, rfl⟩ := h.frame
  rfl

theorem HandedOver.rxBuf (h : HandedOver u t) : t.rxBuf = u.rxBuf := by
  cases h <;> rfl

theorem Acked.rxBuf (h : Acked u t) : t.rxBuf = u.rxBuf := by
  cases h <;> rfl

theorem Accepted.rxBuf {i : Instr} (h : Accepted u i t) : t.rxBuf = u.rxBuf := by
  cases h <;> rfl

/-- R35: a step of the block leaves the buffer alone, or stores the 32 bytes of a chunk at the chunk's place. -/
theorem Took.rxBuf (h : Took s t) :
    t.rxBuf = s.rxBuf ∨
    (s.fsm = .rxChunk ∧ t.fsm = .rxChunkAck ∧ ∃ i d, s.chunkIdx = some i ∧ d.length = chunkData ∧
      t.rxBuf = cellsSet s.rxBuf (chunkData * i.toNat) d) := by
  cases h with
  | goodChunk r d rest i hf hr hd hi hc => exact .inr ⟨hf, rfl, i, d, hi, decodeChunk_length _ _ hd, rfl⟩
  | accepted q data rest i hh hd ha => exact .inl ha.rxBuf
  | ackedHdr rest hf hb hu ha => exact .inl ha.rxBuf
  | ackedChunk rest i hf hb hu hi ha => exact .inl ha.rxBuf
  | badHeader r rest st hf hr hd ht => exact .inl ht.rxBuf
  | tooLong l hf hl hc ht => exact .inl ht.rxBuf
  | badChunk r rest st hf hr hd ht => exact .inl ht.rxBuf
  | noChunk l hf hl hc hz ht => exact .inl ht.rxBuf
  | lastChunk i n hf hi hn he ht => exact .inl ht.rxBuf
  | _ => exact .inl rfl

/-! ### Retained references -/

/-- The host's access that is due comes before the block's own step. -/
theorem step_access {ref : Nat} {rest : List (Nat × Act)} (hm : s.mark = none) (hc : cfgOk s.cfg = true)
    (ha : s.env.acts = (0, .access ref) :: rest) : step s = accessBuffer ref (setActs rest s) := by
  simp [step_eq, fetch, ha, whenEnabled, hm, hc]

theorem bufferRefs_concat (h : List Event) (e : Event) : bufferRefs (h ++ [e]) = refsAfter (bufferRefs h) e :=
  bufferRefs_append h [e]

/-- An event leaves the references as they are, ends the one that holds, or hands over the next (R48). -/
theorem refsAfter_cases (c : Nat × Option Nat) (e : Event) :
    refsAfter c e = c ∨ refsAfter c e = (c.1, none) ∨ refsAfter c e = (c.1 + 1, some c.1) := by
  cases e with
  | req q d => simp only [refsAfter]; split <;> simp
  | resp r => simp only [refsAfter]; split <;> simp
  | deliver => exact .inr (.inr rfl)
  | reset => exact .inr (.inl rfl)
  | write | flush | avail | read | readByte | tick | diag => exact .inl rfl

/-- Hand-over number `ref` has happened, and its reference does not hold. -/
def Ended (ref : Nat) (c : Nat × Option Nat) : Prop := ref < c.1 ∧ c.2 ≠ some ref

/-- A later hand-over has a larger number, so no event makes a reference that has ended hold again. -/
theorem Ended.refsAfter {ref : Nat} {c : Nat × Option Nat} (h : Ended ref c) (e : Event) :
    Ended ref (refsAfter c e) := by
  obtain ⟨hlt, hne⟩ := h
  rcases refsAfter_cases c e with he | he | he <;> rw [he]
  · exact ⟨hlt, hne⟩
  · exact ⟨hlt, nofun⟩
  · exact ⟨Nat.lt_succ_of_lt hlt, fun hc => hlt.ne' (Option.some.inj hc)⟩

theorem Ended.foldl {ref : Nat} {c : Nat × Option Nat} (h : Ended ref c) (evs : List Event) :
    Ended ref (evs.foldl Machine.refsAfter c) := by
  induction evs generalizing c with
  | nil => exact h
  | cons e evs ih => exact ih (h.refsAfter e)

end Sys2Proof.Machine

namespace Sys2Proof.Proofs

open Sys2Proof.Machine

/-- Settles O15: the chunks cover the payload, so its first `32 * nchunks` bytes are all of it. -/
theorem chunksCarryThePayload : Obligations.ChunksCarryThePayload := by
  intro p
  simp only [encodeChunk_take]
  rw [flatten_chunkFields, List.take_of_length_le (le_nchunks p.length)]
  rfl

/-- Settles O30: the checksum decides between the two ends of R104. -/
theorem chunkUnitIsStored : Obligations.ChunkUnitIsStored := by
  intro d k s hf hd u
  have hexec : exec (.chunk d k) s = rxChunk (d ++ [k]) s := if_pos hf
  have hdec := decodeChunk_append hd k
  refine ⟨fun hk => ?_, fun i hk hi hc => ⟨cellsSet s.rxBuf (32 * i.toNat) d, ?_, fun a => ?_⟩⟩
  · rw [if_neg hk] at hdec
    exact hexec.trans (rxChunk_error hdec)
  · rw [if_pos hk] at hdec
    exact hexec.trans (rxChunk_ok hdec hi hc)
  · rw [cellAt_cellsSet, hd]

/-- Settles O41: of the block's own steps only a chunk that is stored writes the buffer. -/
theorem bufferIsWrittenOnlyByChunks : Obligations.BufferIsWrittenOnlyByChunks := by
  intro s t hn h
  rcases took_of_step hn h with ⟨x, ht⟩ | ⟨ref, rest, -, -, rfl⟩
  · rcases ht.rxBuf with hb | ⟨hs, ht, i, d, hi, hd, hb⟩
    · exact .inl fun a => by rw [hb, setActs_rxBuf]
    · exact .inr ⟨hs, ht, i, d, hi, hd, fun a => by rw [hb, cellAt_cellsSet, hd]; rfl⟩
  · exact .inl fun a => rfl

/-- Settles O55: an access is decided by the history alone, each hand-over takes the next number, and a number that was
given away does not come back. -/
theorem staleBufferIsRefused : Obligations.StaleBufferIsRefused := by
  refine ⟨?_, ?_, ?_, ?_, ?_, ?_⟩
  · intro s ref rest hm hc ha u
    rw [step_access hm hc ha]
    exact ⟨fun hg => if_pos hg, fun hg => if_neg hg⟩
  · intro h token cmd src p l
    simp [goodRef, handOvers, bufferRefs_concat, refsAfter]
  · intro h r hr
    simp [goodRef, handOvers, bufferRefs_concat, refsAfter, Option.isSome_iff_ne_none, hr]
  · intro h q d
    rw [goodRef, bufferRefs_concat, refsAfter, apply_ite Prod.snd]
    rfl
  · intro h
    rw [goodRef, bufferRefs_concat, refsAfter]
  · intro h later ref hlt hne
    rw [goodRef, bufferRefs_append]
    exact (Ended.foldl ⟨hlt, hne⟩ later).2

/-- Settles O59: only a chunk that is read and passes its check is stored, in its own 32 cells. -/
theorem chunkFrame : Obligations.ChunkFrame := by
  intro d k s t hd h
  obtain ⟨m, r, f, evs, rfl, hm⟩ := exec_chunk_frame hd h
  refine ⟨⟨rfl, rfl, rfl, rfl⟩, ⟨rfl, rfl, rfl, rfl, rfl, rfl⟩, ⟨rfl, rfl, rfl⟩, ⟨rfl, rfl⟩, ⟨rfl, rfl, rfl, evs, rfl⟩,
    rfl, rfl, rfl, rfl, fun j hj a ha => ?_, fun hbad => ?_⟩
  · rcases hm with rfl | ⟨-, -, i, hi, rfl⟩
    · rfl
    · cases hi.symm.trans hj
      exact cellAt_cellsSet_outside _ _ _ _ (hd ▸ ha)
  · rcases hm with rfl | ⟨hf, hk, -⟩
    · exact fun a => rfl
    · simp [hf, hk] at hbad

end Sys2Proof.Proofs
end
section
/-! PROOFS. The encodings (spec/30_encoding.md R53 to R63): R59's mask of a row read bit by bit, what a request that
decodes says of its descriptor, a wire unit read back, and that the step of a listening or reading block runs what it
decoded (spec/43_ack_channel.md R93, spec/44_transceiver.md R102, R104). -/

namespace Sys2Proof.Machine

variable {o : Op} {q : Descriptor} {s : State}

/-! ### Operation codes -/

theorem opOfCode_eq_some {c : BitVec 4} : opOfCode c = some o ↔ c = opCode o := by
  constructor
  · intro h
    have hc := List.find?_some h
    exact (eq_of_beq hc).symm
  · rintro rfl
    exact opOfCode_opCode o

theorem toNat_fieldOp (q : Descriptor) : (fieldOp q).toNat = q.toNat % 16 := by
  simp [fieldOp]

theorem toNat_mod_of_fieldOp (h : fieldOp q = opCode o) : q.toNat % 16 = (opCode o).toNat := by
  rw [← toNat_fieldOp, h]

/-- Every code but 0 and 9 to 15 names an operation (R57). -/
theorem exists_op_of_code (c : BitVec 4) (h0 : c.toNat ≠ 0) (h9 : c.toNat < 9) : ∃ o, c = opCode o := by
  have hsome : ∀ c : BitVec 4, c.toNat ≠ 0 → c.toNat < 9 → (opOfCode c).isSome := by decide
  obtain ⟨o, ho⟩ := Option.isSome_iff_exists.1 (hsome c h0 h9)
  exact ⟨o, opOfCode_eq_some.1 ho⟩

/-- SEND and CHECKSUM are the operations with a side-band list (R29). -/
theorem takesData_iff (o : Op) : takesData o = true ↔ opCode o = 1 ∨ opCode o = 4 := by
  cases o <;> decide

/-! ### The mask of a row -/

/-- R59 read bit by bit: the op is the row's, and a 1 above it stands in an operand bit of the operation. -/
structure Admits (o : Op) (q : Descriptor) : Prop where
  op : fieldOp q = opCode o
  operand : ∀ i, 4 ≤ i → i < 64 → q.getLsbD i = true → operandBit (opCode o).toNat i = true

/-- The table's mask leaves free exactly the operand bits of the operation. -/
theorem getLsbD_opMask (o : Op) {i : Nat} (hi : i < 64) :
    (opMask o).getLsbD i = !operandBit (opCode o).toNat i := by
  have hall : ∀ i, i < 64 → (opMask o).getLsbD i = !operandBit (opCode o).toNat i := by
    cases o <;> decide
  exact hall i hi

theorem operandBit_of_lt_four (op : Nat) {i : Nat} (hi : i < 4) : operandBit op i = false := by
  simp [operandBit]; omega

theorem getLsbD_fieldOp (q : Descriptor) {i : Nat} (hi : i < 4) : (fieldOp q).getLsbD i = q.getLsbD i := by
  simp [fieldOp, hi]

theorem getLsbD_opCode_of_ge (o : Op) {i : Nat} (h4 : 4 ≤ i) : (opCode o).getLsbD i = false :=
  BitVec.getLsbD_of_ge _ i h4

theorem mask_iff_admits : q &&& opMask o = (opCode o).setWidth 64 ↔ Admits o q := by
  have hbits : q &&& opMask o = (opCode o).setWidth 64 ↔
      ∀ i, i < 64 → (q.getLsbD i && !operandBit (opCode o).toNat i) = (opCode o).getLsbD i := by
    rw [BitVec.eq_of_getLsbD_eq_iff]
    refine forall₂_congr fun i hi => ?_
    rw [BitVec.getLsbD_and, getLsbD_opMask o hi, BitVec.getLsbD_setWidth, decide_eq_true hi, Bool.true_and]
  rw [hbits]
  constructor
  · intro h
    refine ⟨BitVec.eq_of_getLsbD_eq fun i hi => ?_, fun i h4 h64 hq => ?_⟩
    · rw [getLsbD_fieldOp q hi, ← h i (by omega), operandBit_of_lt_four _ hi, Bool.not_false, Bool.and_true]
    · simpa [hq, getLsbD_opCode_of_ge o h4] using h i h64
  · intro h i hi
    rcases Nat.lt_or_ge i 4 with h4 | h4
    · rw [← h.op, getLsbD_fieldOp q h4, operandBit_of_lt_four _ h4, Bool.not_false, Bool.and_true]
    · rw [getLsbD_opCode_of_ge o h4]
      cases hq : q.getLsbD i with
      | false => rfl
      | true => simp [h.operand i h4 hi hq]

/-- A bit above the op that is no operand bit is 0. -/
theorem Admits.bit_zero (h : Admits o q) {i : Nat} (h4 : 4 ≤ i) (ho : operandBit (opCode o).toNat i = false) :
    q.getLsbD i = false :=
  eq_false_of_ne_true fun hq =>
    Bool.false_ne_true (ho.symm.trans (h.operand i h4 (BitVec.lt_of_getLsbD hq) hq))

/-- A field without operand bits is 0. -/
theorem Admits.field_zero (h : Admits o q) {start len : Nat} (h4 : 4 ≤ start)
    (ho : ∀ i, i < len → operandBit (opCode o).toNat (start + i) = false) : q.extractLsb' start len = 0 :=
  BitVec.eq_of_getLsbD_eq fun i hi => by
    simp [h.bit_zero (Nat.le_add_right_of_le h4) (ho i hi)]

/-- An admitted descriptor is the one its fields assemble to (R56, R58). -/
theorem Admits.descriptor_fields (h : Admits o q) :
    descriptor o (fieldA q) (fieldB q) (fieldCmd q) (fieldN q) = q := by
  have hlow : q.extractLsb' 4 4 = 0 := h.field_zero (by omega) (by cases o <;> decide)
  have hhigh : q.extractLsb' 40 24 = 0 := h.field_zero (by omega) (by cases o <;> decide)
  calc descriptor o (fieldA q) (fieldB q) (fieldCmd q) (fieldN q)
      = q.extractLsb' 40 24 ++ fieldN q ++ fieldCmd q ++ fieldB q ++ fieldA q ++ q.extractLsb' 4 4 ++ fieldOp q := by
        rw [hlow, hhigh, h.op]; rfl
    _ = q := by
        apply BitVec.eq_of_getLsbD_eq
        intro i hi
        simp only [fieldOp, fieldA, fieldB, fieldCmd, fieldN, BitVec.getLsbD_append, BitVec.getLsbD_extractLsb']
        interval_cases i <;> simp

/-- ATTACH_DIAG's field `a` holds its enable bit alone (R56). -/
theorem Admits.enField_fieldEn (h : Admits .attachDiag q) : enField (fieldEn q) = fieldA q := by
  have hzero : q.extractLsb' 9 3 = 0 := h.field_zero (by omega) (by decide)
  have hsplit : fieldA q = q.extractLsb' 9 3 ++ BitVec.ofBool (fieldEn q) := by
    apply BitVec.eq_of_getLsbD_eq
    intro i hi
    simp only [fieldA, fieldEn, BitVec.getLsbD_append, BitVec.getLsbD_extractLsb', BitVec.getLsbD_ofBool]
    interval_cases i <;> simp
  rw [hsplit, hzero]
  cases fieldEn q <;> rfl

/-- The encoder gives back an admitted descriptor, with the side-band list where the operation has one. -/
theorem Admits.encode_requestOf (h : Admits o q) (data : List Byte) :
    encode (requestOf o q data) = .request q (if takesData o then some data else none) := by
  have ha : (∀ i < 4, operandBit (opCode o).toNat (8 + i) = false) → fieldA q = 0 := h.field_zero (by omega)
  have hb : (∀ i < 4, operandBit (opCode o).toNat (12 + i) = false) → fieldB q = 0 := h.field_zero (by omega)
  have hcmd : (∀ i < 8, operandBit (opCode o).toNat (16 + i) = false) → fieldCmd q = 0 := h.field_zero (by omega)
  have hn : (∀ i < 16, operandBit (opCode o).toNat (24 + i) = false) → fieldN q = 0 := h.field_zero (by omega)
  have hq := h.descriptor_fields
  cases o with
  | send => exact congrArg (Code.request · _) hq
  | receive | poll | handlerDone =>
    rw [ha (by decide), hb (by decide), hcmd (by decide), hn (by decide)] at hq
    exact congrArg (Code.request · _) hq
  | checksum | registerHandler =>
    rw [ha (by decide), hb (by decide), hcmd (by decide)] at hq
    exact congrArg (Code.request · _) hq
  | setId =>
    rw [hb (by decide), hcmd (by decide), hn (by decide)] at hq
    exact congrArg (Code.request · _) hq
  | attachDiag =>
    rw [hb (by decide), hcmd (by decide), hn (by decide), ← h.enField_fieldEn] at hq
    exact congrArg (Code.request · _) hq

/-! ### Which requests decode -/

/-- A bit that R59 asks to be 0, or a reserved op, is what keeps a descriptor from every row of the table. -/
theorem not_illegalDescriptor_iff : ¬ IllegalDescriptor q ↔ ∃ o, Admits o q := by
  constructor
  · intro h
    simp only [IllegalDescriptor, not_or, not_exists, not_and, Bool.not_eq_false] at h
    obtain ⟨h0, h9, hbit⟩ := h
    obtain ⟨o, ho⟩ := exists_op_of_code (fieldOp q) (by rwa [toNat_fieldOp]) (by rw [toNat_fieldOp]; omega)
    exact ⟨o, ho, fun i h4 h64 hq => toNat_mod_of_fieldOp ho ▸ hbit i h4 h64 hq⟩
  · rintro ⟨o, h⟩ (h0 | h9 | ⟨i, h4, h64, hq, ho⟩)
    · rw [toNat_mod_of_fieldOp h.op] at h0
      cases o <;> cases h0
    · rw [toNat_mod_of_fieldOp h.op] at h9
      revert h9; cases o <;> decide
    · rw [toNat_mod_of_fieldOp h.op, h.operand i h4 h64 hq] at ho
      cases ho

/-- D13 on the list of an admitted descriptor (log 7). -/
theorem listError_eq_none_iff (h : fieldOp q = opCode o) (data : Option (List Byte)) :
    listError o data = none ↔ ¬ IllegalList q data := by
  have ht : q.toNat % 16 = 1 ∨ q.toNat % 16 = 4 ↔ takesData o = true := by
    rw [toNat_mod_of_fieldOp h]; cases o <;> decide
  rw [IllegalList, ht]
  cases htd : takesData o <;> rcases data with _ | (_ | ⟨b, bs⟩) <;> simp [listError, htd]

/-- A list that D13 admits is there where the operation takes one, and has no bytes where it takes none. -/
theorem getD_of_listError {data : Option (List Byte)} (h : listError o data = none) :
    (takesData o = true → some (data.getD []) = data) ∧ (takesData o = false → data.getD [] = []) := by
  rcases data with _ | (_ | ⟨b, bs⟩) <;> cases ht : takesData o <;> simp [listError, ht] at h ⊢

theorem decodeRequest_eq_ok {data : Option (List Byte)} {i : Instr} :
    decodeRequest q data = .ok i ↔
      ∃ o, Admits o q ∧ listError o data = none ∧ requestOf o q (data.getD []) = i := by
  constructor
  · intro h
    unfold decodeRequest at h
    split at h
    · cases h
    · next o ho =>
      split at h
      · next hm =>
        split at h
        · cases h
        · next hl => exact ⟨o, mask_iff_admits.1 hm, hl, Except.ok.inj h⟩
      · cases h
  · rintro ⟨o, h, hl, rfl⟩
    exact decodeRequest_of_mask o q data (opOfCode_eq_some.2 h.op) (mask_iff_admits.2 h) hl

/-- R59 and D13 decide which requests decode. -/
theorem exists_decode_iff {data : Option (List Byte)} :
    (∃ i, decode (.request q data) = .ok i) ↔ ¬ IllegalDescriptor q ∧ ¬ IllegalList q data := by
  simp only [decode, decodeRequest_eq_ok]
  constructor
  · rintro ⟨i, o, h, hl, -⟩
    exact ⟨not_illegalDescriptor_iff.2 ⟨o, h⟩, (listError_eq_none_iff h.op data).1 hl⟩
  · rintro ⟨hq, hl⟩
    obtain ⟨o, h⟩ := not_illegalDescriptor_iff.1 hq
    exact ⟨_, o, h, (listError_eq_none_iff h.op data).2 hl, rfl⟩

/-! ### Wire units -/

/-- A wire unit that decodes is the code of its instruction (R54, R61, R62). -/
theorem encode_of_decode_wire {u : UnitKind} {bs : List Byte} {i : Instr} (h : decode (.wire u bs) = .ok i) :
    encode i = .wire u bs := by
  cases u with
  | header => obtain ⟨m, n, v, c, sn, tg, l, k, rfl, rfl⟩ := decodeHeaderUnit_ok h; rfl
  | chunk => obtain ⟨d, k, rfl, rfl, -⟩ := decodeChunkUnit_ok h; rfl
  | ack =>
    match bs, h with
    | [a], h => cases h; rfl

/-- R80 on the eight bytes of a header. -/
theorem decodeHeader_headerBytes (cfg : Cfg) (m n v c : Byte) (sn tg : Nibble) (l : Half) (k : Byte) (own : Nibble) :
    decodeHeader cfg (headerBytes m n v c sn tg l k) own =
      if ¬ (m = cfg.magic1 ∧ n = cfg.magic2) then .error .badMagic
      else if v ≠ cfg.version then .error .badVersion
      else if crc8 (headerBytes m n v c sn tg l 0) ≠ k then .error .badChecksum
      else if tg ≠ own then .error .notAddressedToUs
      else .ok ⟨c, sn, l⟩ := by
  have hcrc : hdrCrc (headerBytes m n v c sn tg l k) = crc8 (headerBytes m n v c sn tg l 0) := rfl
  simp only [decodeHeader, hcrc, not_and_or]
  simp [headerBytes, hdrLen, byteAt, accepts]

theorem step_awRead {b : Byte} {rest : List Byte} (h : Undisturbed s) (hf : s.fsm = .awRead)
    (hr : s.env.bytes = b :: rest) : step s = awRead b (setBytes rest s) := by
  have hstep : step s = answerOf (fetchAck s) := by simp [step_undisturbed h, fetchByState, hf]
  rw [hstep, fetchAck_cons hf hr]

end Sys2Proof.Machine

namespace Sys2Proof.Proofs

open Sys2Proof.Machine

/-- Settles O1: the rows of the table, one by one. -/
theorem decodeEncodeRoundTrip : Obligations.DecodeEncodeRoundTrip := by
  intro i
  cases i with
  | send a b cmd n data => exact Laws.RoundTrip.send a b cmd n data
  | receive => exact Laws.RoundTrip.receive
  | poll => exact Laws.RoundTrip.poll
  | checksum n data => exact Laws.RoundTrip.checksum n data
  | setId a => exact Laws.RoundTrip.setId a
  | registerHandler n => exact Laws.RoundTrip.registerHandler n
  | attachDiag en => exact Laws.RoundTrip.attachDiag en
  | handlerDone => exact Laws.RoundTrip.handlerDone
  | header m n v c s t l k => exact Laws.RoundTrip.header m n v c s t l k
  | chunk d k => exact Laws.RoundTrip.chunk d k
  | ack a => exact Laws.RoundTrip.ack a

/-- Settles O2: a row's mask leaves only its operands free, so the descriptor is the one they assemble to. -/
theorem decodedCodeIsItsEncoding : Obligations.DecodedCodeIsItsEncoding := by
  refine ⟨fun u bs i h => encode_of_decode_wire h, fun q data i h => ?_⟩
  obtain ⟨o, hq, hl, rfl⟩ := decodeRequest_eq_ok.1 h
  obtain ⟨hsome, hnone⟩ := getD_of_listError hl
  rw [hq.encode_requestOf, hq.op]
  refine ⟨congrArg _ ?_, fun h1 h4 => hnone (eq_false_of_ne_true fun ht => ((takesData_iff o).1 ht).elim h1 h4)⟩
  by_cases ht : takesData o = true
  · rw [if_pos ht, if_pos ((takesData_iff o).1 ht), hsome ht]
  · rw [if_neg ht, if_neg (mt (takesData_iff o).2 ht)]

/-- Settles O3: exactly these requests do not decode, and IDLE refuses what does not decode. -/
theorem illegalDescriptorsAreRefused : Obligations.IllegalDescriptorsAreRefused := by
  intro q data
  refine ⟨fun hbad => ?_, fun hq hl => exists_decode_iff.2 ⟨hq, hl⟩⟩
  cases hd : decode (.request q data) with
  | ok i =>
    obtain ⟨hq, hl⟩ := exists_decode_iff.1 ⟨i, hd⟩
    exact absurd hbad (not_or.2 ⟨hq, hl⟩)
  | error e =>
    refine ⟨⟨e, rfl⟩, fun s rest h hf hh => ?_⟩
    exact (step_of_bad_request h (.inl hf) hh hd).trans (refuseDescriptor_idle hf)

/-- Settles O4: each word is closed and its decoding is evaluated. -/
theorem writtenOutWordsDecode : Obligations.WrittenOutWordsDecode := by
  unfold Obligations.WrittenOutWordsDecode
  decide +kernel

/-- Settles O29: the checks of R80 in their order. -/
theorem headerUnitIsDecoded : Obligations.HeaderUnitIsDecoded := by
  intro m n v c sn tg l k s hf r u magic check
  have hexec : exec (.header m n v c sn tg l k) s = rxHdr r s := if_pos hf
  have hdec := decodeHeader_headerBytes s.cfg m n v c sn tg l k s.ownId
  rw [hexec]
  refine ⟨fun hm => rxHdr_error ?_, fun hm hv => rxHdr_error ?_, fun hm hv hk => rxHdr_error ?_,
    fun hm hv hk ht => rxHdr_error ?_, fun hm hv hk ht => rxHdr_ok (i := ⟨c, sn, l⟩) ?_⟩
  · rw [hdec, if_pos hm]
  · rw [hdec, if_neg (not_not.2 hm), if_pos hv]
  · rw [hdec, if_neg (not_not.2 hm), if_neg (not_not.2 hv), if_pos hk]
  · rw [hdec, if_neg (not_not.2 hm), if_neg (not_not.2 hv), if_neg (not_not.2 hk), if_pos ht]
  · rw [hdec, if_neg (not_not.2 hm), if_neg (not_not.2 hv), if_neg (not_not.2 hk), if_neg (not_not.2 ht)]

/-- Settles O52: a unit that decodes is as long as the read asks for, and its meaning is the step that reads it. -/
theorem stepRunsTheDecodedInstruction : Obligations.StepRunsTheDecodedInstruction := by
  intro s i h
  refine ⟨fun q data rest hf hh hd => step_of_request h hf hh hd, fun r rest hf hr hd => ?_,
    fun r rest hf hr hd => ?_, fun b rest hf hr hd => ?_⟩
  · obtain ⟨m, n, v, c, sn, tg, l, k, rfl, rfl⟩ := decodeHeaderUnit_ok hd
    exact (step_rxHdr h hf hr (Nat.le_refl 8)).trans (if_pos hf).symm
  · obtain ⟨d, k, rfl, rfl, hlen⟩ := decodeChunkUnit_ok hd
    have hle : (d ++ [k]).length ≤ chunkLen := by simp [hlen, chunkData, chunkLen]
    exact (step_rxChunk h hf hr hle).trans (if_pos hf).symm
  · cases hd
    exact (step_awRead h hf hr).trans (if_pos hf).symm

end Sys2Proof.Proofs
end
section
/-! PROOFS. The Checksum-8 unit and the requests of one step (spec/40_checksum.md R72 to R75; spec/45_dispatch.md R112,
R115 to R117): the loop in its equivalent form, the checksum of lists combined element by element, and what a request of
one step leaves alone. -/

namespace Sys2Proof.Machine

variable {s t u : State}

/-! ### One byte into the accumulator -/

/-- One shift of R72's equivalent form: the polynomial comes in when the bit shifted out is 1. -/
def crcShiftOut (a : Byte) : Byte := (a >>> 1) ^^^ (if a.getLsbD 0 = true then 0x8C else 0)

/-- A turn of the loop, with what is left of the byte, is one shift of the accumulator that has taken the byte. -/
theorem crcShift_xor_rest (a b : Byte) : crcShift a b ^^^ (b >>> 1) = crcShiftOut (a ^^^ b) := by
  rw [crcShift_eq, crcShiftOut, BitVec.ushiftRight_xor_distrib, BitVec.getLsbD_xor]
  ac_rfl

theorem crcTurns_xor_rest (k : Nat) (a b : Byte) : crcTurns k a b ^^^ (b >>> k) = crcShiftOut^[k] (a ^^^ b) := by
  induction k generalizing a b with
  | zero => simp [crcTurns]
  | succ k ih =>
    rw [crcTurns, Function.iterate_succ_apply, ← crcShift_xor_rest, ← ih, ← BitVec.shiftRight_add, Nat.add_comm 1 k]

/-- After eight turns nothing is left of the byte. -/
theorem crc8Step_eq_iterate (a b : Byte) : crc8Step a b = crcShiftOut^[8] (a ^^^ b) := by
  have hrest : b >>> 8 = 0#8 := BitVec.ushiftRight_eq_zero (Nat.le_refl 8)
  rw [← crcTurns_xor_rest, hrest, BitVec.xor_zero, crc8Step]

/-! ### The checksum of a list -/

theorem crc8_zeros (n : Nat) : crc8 (zeros n) = 0 := by
  induction n with
  | zero => exact crc8_nil
  | succ n ih => rw [zeros, List.replicate_succ', crc8_append, ih, crc8Step_zero]

/-- Linearity from any two accumulators. -/
theorem foldl_crc8Step_zipWith_xor {x y : List Byte} (h : x.length = y.length) (a c : Byte) :
    (List.zipWith (· ^^^ ·) x y).foldl crc8Step (a ^^^ c) = x.foldl crc8Step a ^^^ y.foldl crc8Step c := by
  induction x generalizing y a c with
  | nil =>
    obtain rfl := List.length_eq_zero_iff.1 h.symm
    rfl
  | cons b x ih =>
    cases y with
    | nil => cases h
    | cons d y =>
      simp only [List.zipWith_cons_cons, List.foldl_cons, crc8Step_xor]
      exact ih (Nat.succ.inj h) _ _

theorem crc8_zipWith_xor {x y : List Byte} (h : x.length = y.length) :
    crc8 (List.zipWith (· ^^^ ·) x y) = crc8 x ^^^ crc8 y :=
  foldl_crc8Step_zipWith_xor h crcInit crcInit

theorem crc8_append_crc8 (x : List Byte) : crc8 (x ++ [crc8 x]) = 0 := by
  rw [crc8_append, crc8Step_self]

/-! ### The requests of one step -/

theorem exec_checksum_idle {n : Half} {data : List Byte} (hf : s.fsm = .idle) (hl : data.length = n.toNat) :
    exec (.checksum n data) s =
      respond { status := .ok, crc := some (crc8 data) } (logReq .checksum 0 0 0 n data s) :=
  execChecksum_next.2 (.inl ⟨hf, hl, rfl⟩)

theorem exec_checksum_bad_length {n : Half} {data : List Byte} (hf : s.fsm = .idle) (hl : data.length ≠ n.toNat) :
    exec (.checksum n data) s = stop .badDescriptor s :=
  (acceptRequest_idle s _ hf).trans (if_pos hl)

/-- The requests that a single step answers: CHECKSUM, the configuration requests and HANDLER_DONE. -/
def OneStepRequest (i : Instr) : Prop :=
  (∃ n data, i = .checksum n data) ∨ (∃ a, i = .setId a) ∨ (∃ n, i = .registerHandler n) ∨
    (∃ en, i = .attachDiag en) ∨ i = .handlerDone

theorem OneStepRequest.isRequest {i : Instr} (h : OneStepRequest i) : isRequest i = true := by
  rcases h with ⟨n, data, rfl⟩ | ⟨a, rfl⟩ | ⟨n, rfl⟩ | ⟨en, rfl⟩ | rfl <;> rfl

/-- Accepted, such a request writes configuration registers, the response, `fsm` and the history, and nothing else. -/
theorem OneStepRequest.accepted_frame {i : Instr} (hi : OneStepRequest i) (ha : Accepted u i t) :
    t = { u with
      ownId := t.ownId, idLocked := t.idLocked, handler := t.handler, diagEn := t.diagEn
      resp := t.resp, fsm := t.fsm, hist := t.hist } := by
  cases ha with
  | send | receive | poll => simp [OneStepRequest] at hi
  | checksum | setId | registerHandler | attachDiag | handlerDone => rfl

theorem OneStepRequest.exec_frame {i : Instr} (hi : OneStepRequest i) (h : exec i s = .next t) :
    ∃ own locked hd diag r f evs, t = { s with
      ownId := own, idLocked := locked, handler := hd, diagEn := diag, resp := r, fsm := f, hist := s.hist ++ evs } := by
  rcases accepted_of_next hi.isRequest h with ha | ⟨-, -, rfl⟩
  · obtain ⟨q, d, evs, hhist, -⟩ := ha.events
    exact ⟨_, _, _, _, _, _, _, hhist ▸ hi.accepted_frame ha⟩
  · exact ⟨_, _, _, _, _, _, [], by rw [List.append_nil]⟩

end Sys2Proof.Machine

namespace Sys2Proof.Proofs

open Sys2Proof.Machine

/-- Settles O5: each turn is one shift of the accumulator that has taken the byte. -/
theorem crcStepHasTheEquivalentForm : Obligations.CrcStepHasTheEquivalentForm :=
  crc8Step_eq_iterate

/-- Settles O6: the step is linear in the pair of accumulator and byte, and a byte equal to the accumulator clears it. -/
theorem checksumLaws : Obligations.ChecksumLaws :=
  ⟨crc8_zeros, fun _ _ h => crc8_zipWith_xor h, fun s => crc8_append s 0, crc8_append_crc8⟩

/-- Refutes O7: a zero byte fixes the nonzero accumulator 0xF7, which is the checksum of the one byte 0xF7. -/
theorem not_appendingZeroChangesTheChecksum : ¬ Obligations.AppendingZeroChangesTheChecksum := by
  intro h
  have hcrc : crc8 [0xF7] = 0xF7 := by decide +kernel
  have hfixed : crc8Step 0xF7 0 = 0xF7 := by decide +kernel
  refine h [0xF7] (by rw [hcrc]; decide) ?_
  rw [crc8_append, hcrc, hfixed]

/-- Settles O8: in IDLE the request completes at once, or its length refuses it. -/
theorem checksumAnswersTheCrc : Obligations.ChecksumAnswersTheCrc := by
  intro n data s hf
  refine ⟨fun hl => ?_, fun hl => exec_checksum_bad_length hf hl⟩
  rw [exec_checksum_idle hf hl, respond, complete, logReq, log, List.append_assoc]
  rfl

/-- Settles O56: none of the five writes a register of a message, of a wait or of the buffer. -/
theorem oneStepRequestsFrame : Obligations.OneStepRequestsFrame := by
  intro i s t hi h
  obtain ⟨hid, hhandler, hdiag⟩ := writtenByItsRequest_of_exec h
  obtain ⟨own, locked, hd, diag, r, f, evs, rfl⟩ := OneStepRequest.exec_frame hi h
  exact ⟨⟨rfl, rfl, rfl, rfl, rfl, rfl⟩, ⟨rfl, rfl, rfl⟩, ⟨rfl, rfl⟩, fun a => rfl, ⟨rfl, rfl, rfl, evs, rfl⟩,
    rfl, rfl, rfl, rfl, hid, hhandler, hdiag⟩

end Sys2Proof.Proofs
end
section
/-! PROOFS. The frame codec (spec/41_frame_codec.md R77 to R83): the eight bytes of a header, the checks of R80 in their
order, and that a header with one byte changed fails the check that byte belongs to. -/

namespace Sys2Proof.Machine

/-! ### The fields of a header as numbers -/

theorem toNat_addrByte (s t : Nibble) : (addrByte s t).toNat = 16 * s.toNat + t.toNat := by
  rw [addrByte, BitVec.toNat_append, ← Nat.shiftLeft_add_eq_or_of_lt t.isLt, Nat.shiftLeft_eq, Nat.mul_comm]

theorem toNat_lenHi (l : Half) : (lenHi l).toNat = l.toNat / 256 := by
  rw [lenHi, BitVec.extractLsb'_toNat, Nat.shiftRight_eq_div_pow]
  have := l.isLt
  omega

theorem toNat_lenLo (l : Half) : (lenLo l).toNat = l.toNat % 256 := by
  simp [lenLo]

theorem toNat_hiNibble (b : Byte) : (hiNibble b).toNat = b.toNat / 16 := by
  rw [hiNibble, BitVec.extractLsb'_toNat, Nat.shiftRight_eq_div_pow]
  have := b.isLt
  omega

theorem toNat_loNibble (b : Byte) : (loNibble b).toNat = b.toNat % 16 := by
  simp [loNibble]

theorem toNat_lenOf (hi lo : Byte) : (lenOf hi lo).toNat = 256 * hi.toNat + lo.toNat := by
  rw [lenOf, BitVec.toNat_append, ← Nat.shiftLeft_add_eq_or_of_lt lo.isLt, Nat.shiftLeft_eq, Nat.mul_comm]

/-! ### The checksum tells lists apart that differ in one byte (G4) -/

theorem crc8Step_left_inj {a b c : Byte} : crc8Step a b = crc8Step c b ↔ a = c := by
  rw [← BitVec.xor_eq_zero_iff, ← crc8Step_xor, BitVec.xor_self]
  exact (crc8Step_eq_zero _).trans BitVec.xor_eq_zero_iff

theorem crc8Step_comm (a b : Byte) : crc8Step a b = crc8Step b a := by
  rw [crc8Step_eq_iterate, crc8Step_eq_iterate, BitVec.xor_comm]

theorem crc8Step_right_inj {a b c : Byte} : crc8Step a b = crc8Step a c ↔ b = c := by
  rw [crc8Step_comm a b, crc8Step_comm a c, crc8Step_left_inj]

theorem foldl_crc8Step_inj (bs : List Byte) {a c : Byte} : bs.foldl crc8Step a = bs.foldl crc8Step c ↔ a = c := by
  induction bs generalizing a c with
  | nil => rfl
  | cons b bs ih => rw [List.foldl_cons, List.foldl_cons, ih, crc8Step_left_inj]

theorem foldl_crc8Step_set_ne {bs : List Byte} {k : Nat} {x : Byte} (hk : k < bs.length) (hx : bs[k]? ≠ some x)
    (a : Byte) : (bs.set k x).foldl crc8Step a ≠ bs.foldl crc8Step a := by
  induction bs generalizing k a with
  | nil => cases hk
  | cons b bs ih =>
    cases k with
    | zero =>
      rw [List.set_cons_zero, List.foldl_cons, List.foldl_cons, Ne, foldl_crc8Step_inj, crc8Step_right_inj]
      exact fun e => hx (congrArg some e.symm)
    | succ k => exact ih (Nat.lt_of_succ_lt_succ hk) hx (crc8Step a b)

/-- Every substitution of one byte changes the checksum. -/
theorem crc8_set_ne {bs : List Byte} {k : Nat} {x : Byte} (hk : k < bs.length) (hx : bs[k]? ≠ some x) :
    crc8 (bs.set k x) ≠ crc8 bs :=
  foldl_crc8Step_set_ne hk hx crcInit

/-- The header's checksum covers bytes 0 to 6 (R77). -/
theorem hdrCrc_set_ne {h : List Byte} {k : Nat} {x : Byte} (hk : k < 7) (hl : k < h.length) (hx : h[k]? ≠ some x) :
    hdrCrc (h.set k x) ≠ hdrCrc h := by
  rw [hdrCrc, hdrCrc, List.take_set, crc8_append, crc8_append, Ne, crc8Step_left_inj]
  exact crc8_set_ne (by simp [hk, hl]) (by rwa [List.getElem?_take_of_lt hk])

theorem byteAt_seven_headerBytes (m n v c : Byte) (s t : Nibble) (l : Half) (k : Byte) :
    byteAt (headerBytes m n v c s t l k) 7 = k := rfl

theorem hdrCrc_headerBytes (m n v c : Byte) (s t : Nibble) (l : Half) (k : Byte) :
    hdrCrc (headerBytes m n v c s t l k) = crc8 (headerBytes m n v c s t l 0) := rfl

/-- The checksum byte counts as zero (R77). -/
theorem hdrCrc_set_seven (h : List Byte) (x : Byte) : hdrCrc (h.set 7 x) = hdrCrc h := by
  rw [hdrCrc, hdrCrc, List.take_set, List.set_eq_of_length_le (by simp)]

/-! ### The checks of R80 -/

theorem byteAt_set_self {r : List Byte} {k : Nat} (hk : k < r.length) (x : Byte) : byteAt (r.set k x) k = x := by
  simp [byteAt, hk]

theorem byteAt_set_ne {r : List Byte} {k i : Nat} (h : k ≠ i) (x : Byte) : byteAt (r.set k x) i = byteAt r i := by
  simp [byteAt, h]

section

variable {c : Cfg} {r : List Byte} {own : Nibble}

theorem decodeHeader_badMagic (hl : r.length = hdrLen) (hm : ¬ (byteAt r 0 = c.magic1 ∧ byteAt r 1 = c.magic2)) :
    decodeHeader c r own = .error .badMagic := by
  rw [decodeHeader, if_neg hl.not_lt, if_pos (not_and_or.1 hm)]

variable (hl : r.length = hdrLen) (hm : byteAt r 0 = c.magic1 ∧ byteAt r 1 = c.magic2)

include hl hm

theorem decodeHeader_badVersion (hv : byteAt r 2 ≠ c.version) : decodeHeader c r own = .error .badVersion := by
  rw [decodeHeader, if_neg hl.not_lt, if_neg (not_or.2 ⟨not_not.2 hm.1, not_not.2 hm.2⟩), if_pos hv]

variable (hv : byteAt r 2 = c.version)

include hv

theorem decodeHeader_badChecksum (hk : hdrCrc r ≠ byteAt r 7) : decodeHeader c r own = .error .badChecksum := by
  rw [decodeHeader, if_neg hl.not_lt, if_neg (not_or.2 ⟨not_not.2 hm.1, not_not.2 hm.2⟩), if_neg (not_not.2 hv),
    if_pos hk]

/-- A header that passes these checks is taken when its target is the own identity (R79). -/
theorem decodeHeader_of_check (hk : hdrCrc r = byteAt r 7) :
    decodeHeader c r own =
      if loNibble (byteAt r 4) = own then .ok ⟨byteAt r 3, hiNibble (byteAt r 4), lenOf (byteAt r 5) (byteAt r 6)⟩
      else .error .notAddressedToUs := by
  rw [decodeHeader, if_neg hl.not_lt, if_neg (not_or.2 ⟨not_not.2 hm.1, not_not.2 hm.2⟩), if_neg (not_not.2 hv),
    if_neg (not_not.2 hk)]
  by_cases ht : loNibble (byteAt r 4) = own <;> simp [accepts, ht]

end

section

variable {c : Cfg} {r : List Byte} {own : Nibble}

/-- A header built for an endpoint passes every check but the target's, which compares the identities (R79, R83). -/
theorem decodeHeader_encodeHeader (c : Cfg) (cmd : Byte) (src dst own : Nibble) (l : Half) :
    decodeHeader c (encodeHeader c cmd src dst l) own =
      if dst ≠ own then .error .notAddressedToUs else .ok ⟨cmd, src, l⟩ := by
  rw [encodeHeader, decodeHeader_headerBytes, hdrCrc_headerBytes, if_neg (not_not.2 ⟨rfl, rfl⟩),
    if_neg (not_not.2 rfl), if_neg (not_not.2 rfl)]

/-- The bytes of a full read pass every check of R80 that does not look at the target. -/
structure ChecksPass (c : Cfg) (r : List Byte) : Prop where
  length : r.length = hdrLen
  magic : byteAt r 0 = c.magic1 ∧ byteAt r 1 = c.magic2
  version : byteAt r 2 = c.version
  check : hdrCrc r = byteAt r 7

theorem encodeHeader_checksPass (c : Cfg) (cmd : Byte) (src dst : Nibble) (l : Half) :
    ChecksPass c (encodeHeader c cmd src dst l) where
  length := encodeHeader_length ..
  magic := ⟨rfl, rfl⟩
  version := rfl
  check := by rw [encodeHeader, byteAt_seven_headerBytes, hdrCrc_headerBytes, hdrCrc_headerBytes]

/-- The status of a good header with byte `k` changed (R83 (c)). -/
theorem ChecksPass.decodeHeader_set (h : ChecksPass c r) {k : Nat} {x : Byte} (hk : k < hdrLen)
    (hx : r[k]? ≠ some x) :
    decodeHeader c (r.set k x) own =
      .error (if k < 2 then .badMagic else if k = 2 then .badVersion else .badChecksum) := by
  obtain ⟨hl, hm, hv, hcrc⟩ := h
  have hkl : k < r.length := hl ▸ hk
  have hself : byteAt (r.set k x) k = x := byteAt_set_self hkl x
  have hne : x ≠ byteAt r k := fun e => hx (by rw [e, byteAt, List.getElem?_eq_getElem hkl, List.getD_eq_getElem])
  have hl' : (r.set k x).length = hdrLen := List.length_set.trans hl
  rcases Nat.lt_trichotomy k 2 with hlt | rfl | hgt
  · rw [if_pos hlt]
    refine decodeHeader_badMagic hl' fun ⟨h0, h1⟩ => ?_
    obtain rfl | rfl : k = 0 ∨ k = 1 := by omega
    · exact hne (hself.symm.trans (h0.trans hm.1.symm))
    · exact hne (hself.symm.trans (h1.trans hm.2.symm))
  · have hm' : byteAt (r.set 2 x) 0 = c.magic1 ∧ byteAt (r.set 2 x) 1 = c.magic2 := by
      rwa [byteAt_set_ne (by decide), byteAt_set_ne (by decide)]
    exact decodeHeader_badVersion hl' hm' (by rwa [hself, ← hv])
  · have hm' : byteAt (r.set k x) 0 = c.magic1 ∧ byteAt (r.set k x) 1 = c.magic2 := by
      rwa [byteAt_set_ne (by omega), byteAt_set_ne (by omega)]
    have hv' : byteAt (r.set k x) 2 = c.version := by rwa [byteAt_set_ne hgt.ne']
    rw [if_neg (by omega), if_neg hgt.ne']
    refine decodeHeader_badChecksum hl' hm' hv' ?_
    by_cases h7 : k = 7
    · subst h7
      rw [hself, hdrCrc_set_seven, hcrc]
      exact hne.symm
    · rw [byteAt_set_ne h7, ← hcrc]
      exact hdrCrc_set_ne (Nat.lt_of_le_of_ne (Nat.le_of_lt_succ hk) h7) hkl hx

end

end Sys2Proof.Machine

namespace Sys2Proof.Proofs

open Sys2Proof.Machine

/-- Settles O9: the three assembled bytes, and the checksum with its own byte zero. -/
theorem encodedHeaderBytes : Obligations.EncodedHeaderBytes :=
  fun _ _ src dst l =>
    ⟨addrByte src dst, lenHi l, lenLo l, toNat_addrByte src dst, toNat_lenHi l, toNat_lenLo l, rfl⟩

/-- Settles O10: the checks of a full read, one after another. -/
theorem headerChecksInOrder : Obligations.HeaderChecksInOrder := by
  intro c own
  refine ⟨fun r hl => if_pos hl, fun b0 b1 b2 b3 b4 b5 b6 b7 => ?_⟩
  intro r magic version check mine
  have hmine : loNibble (byteAt r 4) = own ↔ mine := by
    rw [← BitVec.toNat_inj, toNat_loNibble]
    rfl
  refine ⟨fun hm => decodeHeader_badMagic rfl hm, fun hm hv => decodeHeader_badVersion rfl hm hv,
    fun hm hv hk => decodeHeader_badChecksum rfl hm hv hk, fun hm hv hk ht => ?_, fun hm hv hk ht => ?_⟩
  · exact (decodeHeader_of_check (r := r) rfl hm hv hk).trans (if_neg (mt hmine.1 ht))
  · exact ⟨hiNibble b4, lenOf b5 b6, toNat_hiNibble b4, toNat_lenOf b5 b6,
      (decodeHeader_of_check (r := r) rfl hm hv hk).trans (if_pos (hmine.2 ht))⟩

/-- Settles O11: a header that is not changed passes every check but the target's; a changed byte fails its check. -/
theorem frameCodecLaws : Obligations.FrameCodecLaws := by
  intro c cmd src dst l
  have hpass : ChecksPass c (encodeHeader c cmd src dst l) := encodeHeader_checksPass c cmd src dst l
  refine ⟨?_, fun own h => ?_, fun own k x hk hx => hpass.decodeHeader_set hk hx⟩
  · rw [decodeHeader_encodeHeader, if_neg (not_not.2 rfl)]
  · rw [decodeHeader_encodeHeader, if_pos h.symm]

end Sys2Proof.Proofs
end
section
/-! PROOFS. The acknowledgment of a header (spec/41_frame_codec.md R82, spec/44_transceiver.md R102, R103): what the two
steps of a header read write to the transport. -/

namespace Sys2Proof.Machine

variable {s t u : State}

/-! ### What is written from one state to a later one -/

theorem written_append (evs evs' : List Event) : written (evs ++ evs') = written evs ++ written evs' := by
  induction evs with
  | nil => rfl
  | cons e evs ih => cases e <;> simp [written, ih]

/-- The history of `t` goes on from that of `s`, and `ws` is what was written in between. -/
def Writes (ws : List (List Byte)) (s t : State) : Prop :=
  ∃ evs, t.hist = s.hist ++ evs ∧ written evs = ws

theorem Writes.newEvents {ws : List (List Byte)} (h : Writes ws s t) : written (newEvents s t) = ws := by
  obtain ⟨evs, hh, hw⟩ := h
  rw [newEvents_eq hh, hw]

theorem Writes.trans {ws ws' : List (List Byte)} (h : Writes ws s u) (h' : Writes ws' u t) :
    Writes (ws ++ ws') s t := by
  obtain ⟨evs, hh, rfl⟩ := h
  obtain ⟨evs', hh', rfl⟩ := h'
  exact ⟨evs ++ evs', by rw [hh', hh, List.append_assoc], written_append evs evs'⟩

theorem writes_sendAck (s : State) : Writes [[s.cfg.ack]] s (sendAck s) := ⟨[_, _], rfl, rfl⟩

theorem Failed.writes {st : Status} (h : Failed st u t) : Writes [] u t := by
  cases h with
  | receive | drop => exact ⟨[_], rfl, rfl⟩
  | dropLogged => exact ⟨[_, _], List.append_assoc .., rfl⟩

theorem HandedOver.writes (h : HandedOver u t) : Writes [] u t := by
  cases h with
  | receive | deliver => exact ⟨[_], rfl, rfl⟩

/-! ### The endings of a receive -/

theorem Failed.fsm {st : Status} (h : Failed st u t) : t.fsm = .idle := by
  cases h <;> rfl

theorem Failed.env {st : Status} (h : Failed st u t) : t.env = u.env := by
  obtain ⟨r, f, evs, rfl⟩ := h.frame
  rfl

theorem exists_failed {st : Status} (ho : Receiving s) : ∃ t, rxFail st s = .next t ∧ Failed st s t := by
  obtain ⟨t, ht⟩ : ∃ t, rxFail st s = .next t := by
    rcases ho with ho | ho
    · exact ⟨_, rxFail_next.2 (.inl ⟨ho, rfl⟩)⟩
    · exact ⟨_, rxFail_next.2 (.inr ⟨.inr ho, dispatchDrop_next.2 rfl⟩)⟩
  exact ⟨t, ht, failed_of_next ht⟩

/-- A whole message is handed over, unless a POLL finds no handler (R106, R111). -/
theorem rxOk_handsOver {l : Half} {p : List Byte} (ho : Receiving s) (hk : HeaderKnown s l)
    (hp : cellsAt s.rxBuf 0 l.toNat = some p) : (∃ t, rxOk s = .next t) ∨ rxOk s = stop .noHandler s := by
  obtain ⟨⟨cmd, hc⟩, ⟨src, hs⟩, hl⟩ := hk
  rcases ho with ho | ho
  · exact .inl ⟨_, rxOk_next.2 (.inl ⟨ho, cmd, src, l, p, hc, hs, hl, hp, rfl⟩)⟩
  · cases hh : s.handler with
    | none => exact .inr (by simp [rxOk, ho, dispatchDeliver, hh])
    | some token =>
      have hdeliver := dispatchDeliver_next.2 ⟨token, cmd, src, l, p, hh, hc, hs, hl, hp, rfl⟩
      exact .inl ⟨_, rxOk_next.2 (.inr ⟨.inr ho, hdeliver⟩)⟩

/-! ### The step in RX_HDR_ACK -/

theorem step_rxHdrAck (h : Undisturbed s) (hf : s.fsm = .rxHdrAck) : step s = rxHdrAck s := by
  simp [step_undisturbed h, fetchByState, hf]

/-- A decoded header is acknowledged once, whatever the capacity check then says (R103). -/
theorem rxHdrAck_writes_ack {l : Half} (hv : ValuesOk s) (ho : Receiving s) (hk : HeaderKnown s l) :
    ∃ v, (rxHdrAck s = .next v ∨ rxHdrAck s = .fault (.noHandler v)) ∧ Writes [[s.cfg.ack]] s v := by
  have hl : s.rxLen = some l := hk.2.2
  have hack : Writes [[s.cfg.ack]] s (sendAck s) := writes_sendAck s
  simp only [rxHdrAck, sendAck_rxLen, hl, readReg_some]
  split_ifs with hc hz
  · obtain ⟨v, hr, hfail⟩ := exists_failed (st := .bufferTooSmall) (s := sendAck s) ho
    exact ⟨v, .inl hr, hack.trans hfail.writes⟩
  · have hn : nchunks l.toNat = 0 := by
      rw [← toNat_ofNat_nchunks ((Nat.le_of_not_lt hc).trans hv.rxCap_le), hz]; rfl
    have hp : ∀ m : Memory, cellsAt m 0 l.toNat = some [] := fun m => by
      rw [(nchunks_eq_zero l.toNat).1 hn]; rfl
    rcases rxOk_handsOver (s := setChunks (BitVec.ofNat 4 (nchunks l.toNat)) (sendAck s)) ho hk (hp _) with
      ⟨v, hr⟩ | hr
    · exact ⟨v, .inl hr, hack.trans (handedOver_of_next hr).writes⟩
    · exact ⟨_, .inr hr, hack⟩
  · exact ⟨_, .inl rfl, hack⟩

end Sys2Proof.Machine

namespace Sys2Proof.Proofs

open Sys2Proof.Machine

/-- Settles O44: a read that fails ends the request in its own step; one that decodes leads to RX_HDR_ACK, and that step
acknowledges before it checks the capacity. -/
theorem headerIsAcknowledgedExactlyWhenGood : Obligations.HeaderIsAcknowledgedExactlyWhenGood := by
  intro s r rest hinv h hf hr hl
  have hstep : step s = rxHdr r (setReads rest s) := step_rxHdr h hf hr hl
  refine ⟨fun st hd => ?_, fun i hd => ?_⟩
  · obtain ⟨t, ht, hfail⟩ :=
      exists_failed (st := st) (s := log [.read hdrLen r] (setReads rest s)) (hinv.at_rxHdr hf)
    have hw : Writes [] s t := Writes.trans (ws := []) ⟨[_], rfl, rfl⟩ hfail.writes
    exact ⟨t, (hstep.trans (rxHdr_error hd)).trans ht, hfail.fsm, hw.newEvents, hfail.env⟩
  · obtain ⟨t, ht, hu, hft, hcfg, hw⟩ :
        ∃ t, step s = .next t ∧ Undisturbed t ∧ t.fsm = .rxHdrAck ∧ t.cfg = s.cfg ∧ Writes [] s t :=
      ⟨_, hstep.trans (rxHdr_ok hd), { h with }, rfl, rfl, [_], rfl, rfl⟩
    have hinv' : Inv t := hinv.step ht
    obtain ⟨ho, l, hk⟩ := hinv'.at_rxHdrAck hft
    obtain ⟨v, hv, hw'⟩ := rxHdrAck_writes_ack hinv'.values ho hk
    rw [← step_rxHdrAck hu hft] at hv
    exact ⟨t, ht, hft, hw.newEvents, v, hv, hcfg ▸ hw'.newEvents⟩

end Sys2Proof.Proofs
end
section
/-! PROOFS. A SEND whose units are all acknowledged (spec/44_transceiver.md R96 to R100, spec/43_ack_channel.md R90 to
R93), from its acceptance to its response: runs of the machine, the steps of a sending block, then unit by unit. -/

namespace Sys2Proof.Machine

variable {s t u v : State}

/-! ### Runs -/

section

variable {M : Host.Core} {x y z : M.State}

theorem run_succ_of_step (h : M.step x = .next y) (k : Nat) : M.run (k + 1) x = M.run k y := by
  rw [Host.Core.run, h]

theorem run_succ_next {k : Nat} : M.run (k + 1) x = .next z ↔ ∃ y, M.step x = .next y ∧ M.run k y = .next z := by
  rw [Host.Core.run]
  cases M.step x <;> simp

theorem run_one (x : M.State) : M.run 1 x = M.step x := by
  rw [Host.Core.run]
  cases M.step x <;> rfl

/-- A run goes on from the state it has come to. -/
theorem run_add {j : Nat} (h : M.run j x = .next y) (k : Nat) : M.run (j + k) x = M.run k y := by
  induction j generalizing x with
  | zero =>
    cases h
    rw [Nat.zero_add]
  | succ j ih =>
    obtain ⟨u, hs, hu⟩ := run_succ_next.1 h
    rw [Nat.succ_add, run_succ_of_step hs, ih hu]

end

theorem run_first_step (s : State) : Host.Core.run core 1 s = step s := run_one (M := core) s

theorem run_step {j : Nat} (h : Host.Core.run core j s = .next t) : Host.Core.run core (j + 1) s = step t :=
  (run_add h 1).trans (run_one (M := core) t)

/-! ### The steps of a sending block -/

theorem step_txHdr {h : List Byte} (hd : Undisturbed s) (hf : s.fsm = .txHdr) (hr : s.hdrReg = some h) :
    step s = .next (awaitAck .hdr (log [.write h] s)) := by
  simp [step_undisturbed hd, fetchByState, hf, txHdr, hr]

theorem step_txChunk {c : List Byte} (hd : Undisturbed s) (hf : s.fsm = .txChunk) (hr : s.chkReg = some c) :
    step s = .next (awaitAck .chunk (log [.write c] s)) := by
  simp [step_undisturbed hd, fetchByState, hf, txChunk, hr]

theorem step_awPoll_pending {a : Nat} {rest : List Nat} (hd : Undisturbed s) (hf : s.fsm = .awPoll)
    (ha : s.env.avails = a :: rest) (hp : 0 < a) :
    step s = .next (goTo .awRead (log [.avail a] (setAvails rest s))) := by
  have hstep : step s = awPoll s := by simp [step_undisturbed hd, fetchByState, hf]
  exact hstep.trans (awPoll_next.2 (.inr ⟨a, rest, ha, .inl ⟨hp, rfl⟩⟩))

theorem awRead_ack {b : Byte} (hb : b = s.cfg.ack) : awRead b s = ackOk (log [.readByte b] s) := by
  simp [awRead, hb]

theorem ackOk_hdr (hu : s.ackUnit = some .hdr) : ackOk s = nextUnit s := by
  simp [ackOk, hu]

theorem ackOk_chunk {i : BitVec 4} (hu : s.ackUnit = some .chunk) (hi : s.chunkIdx = some i) :
    ackOk s = nextUnit (setChunkIdx (i + 1) s) := by
  simp [ackOk, hu, hi]

/-! ### A SEND whose units are all acknowledged -/

/-- A SEND of payload `p` in `n` chunks stands at chunk `i`; its peer answers the next `m` units with an acknowledgment
at the first poll, and `bytes` follow. -/
structure PeerAcks (s : State) (p : List Byte) (n i : BitVec 4) (m : Nat) (bytes : List Byte) : Prop where
  undisturbed : Undisturbed s
  sending : Sending s p n i
  avails : m ≤ s.env.avails.length
  pending : ∀ a ∈ s.env.avails, 0 < a
  acks : s.env.bytes = List.replicate m s.cfg.ack ++ bytes

/-- A SEND came to its end: OK, and `units` were written since `s` (R98). -/
structure Sent (units : List (List Byte)) (bytes : List Byte) (s t : State) : Prop where
  idle : t.fsm = .idle
  resp : t.resp = some { status := .ok }
  bytes : t.env.bytes = bytes
  writes : Writes units s t

/-- A unit was written and the first poll found `a` bytes waiting (R90, R91). -/
def unitPolled (unit : AckUnit) (bs : List Byte) (a : Nat) (rest : List Nat) (s : State) : State :=
  goTo .awRead (log [.avail a] (setAvails rest (awaitAck unit (log [.write bs] s))))

/-- A unit takes three steps: it is written, the poll finds an answer, and the answer is the acknowledgment (R90 to
R93). -/
theorem PeerAcks.run_unit {p bs bytes : List Byte} {n i : BitVec 4} {m : Nat} {unit : AckUnit}
    (h : PeerAcks s p n i (m + 1) bytes) (hs : step s = .next (awaitAck unit (log [.write bs] s))) :
    ∃ v, Host.Core.run core 3 s = ackOk v ∧ v.ackUnit = some unit ∧ PeerAcks v p n i m bytes ∧
      Writes [bs] s v := by
  obtain ⟨hd, hsend, hlen, hpos, hacks⟩ := h
  obtain ⟨a, rest, ha⟩ := List.exists_cons_of_length_pos (Nat.zero_lt_of_lt hlen)
  rw [ha] at hlen hpos
  have h1 := (run_first_step s).trans hs
  have h2 := (run_step h1).trans (step_awPoll_pending { hd with } rfl ha (hpos a List.mem_cons_self))
  have hread := step_awRead (s := unitPolled unit bs a rest s) { hd with } rfl hacks
  have h3 := (run_step h2).trans (hread.trans (awRead_ack rfl))
  exact ⟨_, h3, rfl,
    { undisturbed := { hd with }, sending := { hsend with }, avails := Nat.le_of_succ_le_succ hlen
      pending := fun b hb => hpos b (List.mem_cons_of_mem a hb), acks := rfl },
    [.write bs, .avail a, .readByte s.cfg.ack], by simp [unitPolled, awaitAck], rfl⟩

/-- From chunk `i` on, every chunk is written in order, and the SEND completes (R98 to R100). -/
theorem PeerAcks.run_chunks {p bytes : List Byte} {n i : BitVec 4} {m : Nat} (h : PeerAcks s p n i m bytes)
    (hm : i.toNat + m = n.toNat) :
    ∃ u t, nextUnit s = .next u ∧ Host.Core.run core (3 * m) u = .next t ∧
      Sent ((List.range' i.toNat m).map (encodeChunk p)) bytes s t := by
  have hsend := h.sending
  induction m generalizing s i with
  | zero =>
    have hi : i = n := BitVec.eq_of_toNat_eq hm
    exact ⟨_, _, nextUnit_next.2 ⟨i, n, hsend.index, hsend.chunks, .inl ⟨hi, rfl⟩⟩, rfl,
      { idle := rfl, resp := rfl, bytes := h.acks, writes := ⟨[_], rfl, rfl⟩ }⟩
  | succ m ih =>
    have hlt : i.toNat < n.toNat := by omega
    have hne : i ≠ n := fun e => hlt.ne (congrArg BitVec.toNat e)
    have hstep : (i + 1).toNat = i.toNat + 1 := toNat_add_one_of_lt hlt
    have hu : PeerAcks (goTo .txChunk (setChkReg (encodeChunk p i.toNat) s)) p n i (m + 1) bytes :=
      { h with undisturbed := { h.undisturbed with }, sending := { hsend with } }
    obtain ⟨v, hrun, hunit, hv, hw⟩ := hu.run_unit (step_txChunk hu.undisturbed rfl rfl)
    have hv' : PeerAcks (setChunkIdx (i + 1) v) p n (i + 1) m bytes :=
      { hv with
        undisturbed := { hv.undisturbed with }
        sending := { hv.sending with index := rfl, bound := hstep.trans_le hlt } }
    obtain ⟨u', t, hnext, hrest, hsent⟩ := ih hv' (by omega) hv'.sending
    rw [ackOk_chunk hunit hv.sending.index, hnext] at hrun
    refine ⟨_, t, nextUnit_next.2 ⟨i, n, hsend.index, hsend.chunks, .inr ⟨hne, p, hsend.payload, rfl⟩⟩, ?_,
      { hsent with writes := ?_ }⟩
    · rw [Nat.mul_succ, Nat.add_comm, run_add hrun, hrest]
    · rw [List.range'_succ, List.map_cons, ← hstep]
      exact hw.trans hsent.writes

/-- The header, and then every chunk (R97 to R100). -/
theorem PeerAcks.run_message {p h bytes : List Byte} {n : BitVec 4} (hp : PeerAcks s p n 0 (n.toNat + 1) bytes)
    (hf : s.fsm = .txHdr) (hr : s.hdrReg = some h) :
    ∃ t, Host.Core.run core (3 * (n.toNat + 1)) s = .next t ∧
      Sent (h :: (List.range n.toNat).map (encodeChunk p)) bytes s t := by
  obtain ⟨v, hrun, hunit, hv, hw⟩ := hp.run_unit (step_txHdr hp.undisturbed hf hr)
  obtain ⟨u, t, hnext, hrest, hsent⟩ := hv.run_chunks (Nat.zero_add _)
  rw [ackOk_hdr hunit, hnext] at hrun
  refine ⟨t, ?_, { hsent with writes := ?_ }⟩
  · rw [Nat.mul_succ, Nat.add_comm, run_add hrun, hrest]
  · rw [List.range_eq_range']
    exact hw.trans hsent.writes

/-- An accepted SEND stands before its header with its peer's acknowledgments to come (R96). -/
theorem send_accepted {cmd : Byte} {src dst : Nibble} {n : Half} {data bytes : List Byte} (hd : Undisturbed s)
    (hf : s.fsm = .idle) (hlen : data.length = n.toNat) (hmax : n.toNat ≤ maxPayload)
    (hav : nchunks n.toNat + 1 ≤ s.env.avails.length) (hpos : ∀ a ∈ s.env.avails, 0 < a)
    (hacks : s.env.bytes = List.replicate (nchunks n.toNat + 1) s.cfg.ack ++ bytes)
    (h : exec (.send src dst cmd n data) s = .next t) :
    PeerAcks t data (BitVec.ofNat 4 (nchunks n.toNat)) 0 ((BitVec.ofNat 4 (nchunks n.toNat)).toNat + 1) bytes ∧
      t.fsm = .txHdr ∧ t.hdrReg = some (encodeHeader s.cfg cmd src dst n) := by
  rcases execSend_next.1 h with ⟨-, -, -, rfl⟩ | ⟨hne, -⟩
  · rw [toNat_ofNat_nchunks hmax]
    have hsend := sending_latchSend (s := logReq .send src dst cmd n data s) (a := src) (b := dst) (cmd := cmd) hlen
      hmax
    exact ⟨⟨{ hd with }, { hsend with }, hav, hpos, hacks⟩, rfl, rfl⟩
  · exact absurd hf hne

end Sys2Proof.Machine
end
section
/-! PROOFS. A receive of the units of one message (spec/44_transceiver.md R101 to R106): the header's two steps, two for
every chunk, and what then stands in the block; and that what a SEND writes is such a message for its target. -/

namespace Sys2Proof.Machine

variable {s t u v : State} {cmd : Byte} {src : Nibble} {l : Half} {p r : List Byte} {n i : BitVec 4}
  {rest more : List (List Byte)}

/-! ### The payload in chunks and in cells -/

/-- A block read gives the bytes its cells hold. -/
theorem cellsAt_of_cells {m : Memory} {off : Nat}
    (h : ∀ a, a < p.length → cellAt m (off + a) = p[a]?) : cellsAt m off p.length = some p := by
  induction p generalizing off with
  | nil => rfl
  | cons b p ih =>
    have hb : cellAt m off = some b := h 0 (Nat.zero_lt_succ _)
    have hp : cellsAt m (off + 1) p.length = some p :=
      ih fun a ha => by rw [Nat.add_assoc, Nat.add_comm 1]; exact h (a + 1) (Nat.succ_lt_succ ha)
    simp [cellsAt, hb, hp]

/-- A chunk decodes to its data field (R88). -/
theorem decodeChunk_encodeChunk (p : List Byte) (k : Nat) : decodeChunk (encodeChunk p k) = .ok (chunkField p k) := by
  rw [encodeChunk, decodeChunk_append (chunkField_length p k), if_pos rfl]

/-- The data field of chunk `k` holds the payload's bytes from `32 * k` on (R84). -/
theorem chunkField_getElem? {k a : Nat} (hk : chunkData * k ≤ a) (hk' : a < chunkData * (k + 1))
    (ha : a < p.length) : (chunkField p k)[a - chunkData * k]? = p[a]? := by
  have hlt : a - chunkData * k < chunkData := by rw [Nat.mul_succ] at hk'; omega
  have hlen : a - chunkData * k < ((p.drop (chunkData * k)).take chunkData).length := by
    rw [List.length_take, List.length_drop]; omega
  rw [chunkField, List.getElem?_append_left hlen, List.getElem?_take_of_lt hlt, List.getElem?_drop,
    Nat.add_sub_of_le hk]

/-! ### The chunks of a message -/

/-- A receive of payload `p` in `n` chunks has stored the first `i` of them; the others come, and then `rest`. -/
structure Arriving (s : State) (p : List Byte) (n i : BitVec 4) (rest : List (List Byte)) : Prop where
  undisturbed : Undisturbed s
  fits : p.length ≤ s.cfg.rxCap
  chunks : s.nChunks = some n
  count : n.toNat = nchunks p.length
  index : s.chunkIdx = some i
  stored : ∀ a, a < chunkData * i.toNat → a < p.length → cellAt s.rxBuf a = p[a]?
  reads : s.env.reads = (List.range' i.toNat (n.toNat - i.toNat)).map (encodeChunk p) ++ rest

/-- After the last chunk the whole payload is in the buffer. -/
theorem Arriving.payload (h : Arriving s p n n rest) :
    cellsAt s.rxBuf 0 p.length = some p :=
  cellsAt_of_cells fun a ha => by
    rw [Nat.zero_add]
    exact h.stored a (ha.trans_le (h.count ▸ le_nchunks p.length)) ha

theorem Arriving.reads_end (h : Arriving s p n n rest) : s.env.reads = rest := by
  rw [h.reads, Nat.sub_self]
  rfl

/-- What the steps of a receive leave as the header found it. -/
structure SameReceive (s t : State) : Prop extends SameHeader s t where
  cfg : t.cfg = s.cfg
  origin : t.origin = s.origin
  handler : t.handler = s.handler

theorem SameReceive.refl (s : State) : SameReceive s s := ⟨⟨rfl, rfl, rfl⟩, rfl, rfl, rfl⟩

theorem SameReceive.trans (h : SameReceive s u) (h' : SameReceive u t) : SameReceive s t where
  rxCmd := h'.rxCmd.trans h.rxCmd
  rxSrc := h'.rxSrc.trans h.rxSrc
  rxLen := h'.rxLen.trans h.rxLen
  cfg := h'.cfg.trans h.cfg
  origin := h'.origin.trans h.origin
  handler := h'.handler.trans h.handler

/-- What an acknowledged unit leads to: the hand-over after the last one, the next chunk's read before (R103, R105). -/
def afterAck (i n : BitVec 4) (s : State) : Result :=
  if i = n then rxOk s else .next (goTo .rxChunk s)

theorem step_rxChunkAck (hd : Undisturbed s) (hf : s.fsm = .rxChunkAck) (hi : s.chunkIdx = some i)
    (hn : s.nChunks = some n) : step s = afterAck (i + 1) n (setChunkIdx (i + 1) (sendAck s)) := by
  simp [step_undisturbed hd, fetchByState, hf, rxChunkAck, hi, hn, afterAck]

/-- Chunk `k` of payload `p` was read and stored, and `more` stays in the transport (R104). -/
def chunkStored (p : List Byte) (k : Nat) (more : List (List Byte)) (s : State) : State :=
  goTo .rxChunkAck (setRxBuf (cellsSet s.rxBuf (chunkData * k) (chunkField p k))
    (log [.read chunkLen (encodeChunk p k)] (setReads more s)))

/-- The stored chunk was acknowledged and counted (R105). -/
def chunkAcked (p : List Byte) (i : BitVec 4) (more : List (List Byte)) (s : State) : State :=
  setChunkIdx (i + 1) (sendAck (chunkStored p i.toNat more s))

/-- All that the two steps of a chunk change. -/
theorem chunkAcked_eq (p : List Byte) (i : BitVec 4) (more : List (List Byte)) (s : State) :
    chunkAcked p i more s = { s with
      fsm := .rxChunkAck
      chunkIdx := some (i + 1)
      rxBuf := cellsSet s.rxBuf (chunkData * i.toNat) (chunkField p i.toNat)
      hist := s.hist ++ [.read chunkLen (encodeChunk p i.toNat)] ++ [.write [s.cfg.ack], .flush]
      env := { s.env with reads := more } } := by
  simp only [chunkAcked, chunkStored, setChunkIdx, sendAck, log, goTo, setRxBuf, setReads]

theorem writes_chunkAcked (p : List Byte) (i : BitVec 4) (more : List (List Byte)) (s : State) :
    Writes [[s.cfg.ack]] s (chunkAcked p i more s) :=
  Writes.trans (ws := []) ⟨[_], rfl, rfl⟩ (writes_sendAck (chunkStored p i.toNat more s))

/-- A chunk takes two steps: it is read and stored, then acknowledged (R104, R105). -/
theorem run_chunk (hd : Undisturbed s) (hf : s.fsm = .rxChunk) (hi : s.chunkIdx = some i) (hn : s.nChunks = some n)
    (hr : s.env.reads = encodeChunk p i.toNat :: more) (hroom : chunkData * i.toNat + chunkData ≤ s.cfg.rxCap) :
    Host.Core.run core 2 s = afterAck (i + 1) n (chunkAcked p i more s) := by
  have h1 : step s = .next (chunkStored p i.toNat more s) :=
    (step_rxChunk hd hf hr (encodeChunk_length _ _).le).trans (rxChunk_ok (decodeChunk_encodeChunk p i.toNat) hi hroom)
  exact (run_step ((run_first_step s).trans h1)).trans (step_rxChunkAck { hd with } rfl hi hn)

/-- The chunks up to the one just stored are in the buffer. -/
theorem chunkAcked_stored {a : Nat} (h : ∀ a, a < chunkData * i.toNat → a < p.length → cellAt s.rxBuf a = p[a]?)
    (ha : a < chunkData * (i.toNat + 1)) (hp : a < p.length) : cellAt (chunkAcked p i more s).rxBuf a = p[a]? := by
  rw [chunkAcked_eq, cellAt_cellsSet, chunkField_length, ← Nat.mul_succ]
  split_ifs with hin
  · exact chunkField_getElem? hin.1 hin.2 hp
  · exact h a (Nat.lt_of_not_le fun hle => hin ⟨hle, ha⟩) hp

theorem Arriving.next (h : Arriving s p n i rest) (hi : (i + 1).toNat = i.toNat + 1)
    (hm : more = (List.range' (i + 1).toNat (n.toNat - (i + 1).toNat)).map (encodeChunk p) ++ rest) :
    Arriving (chunkAcked p i more s) p n (i + 1) rest := by
  have hstored (a : Nat) (ha : a < chunkData * (i + 1).toNat) (hp : a < p.length) :
      cellAt (chunkAcked p i more s).rxBuf a = p[a]? := chunkAcked_stored h.stored (hi ▸ ha) hp
  rw [chunkAcked_eq] at hstored ⊢
  exact { h with undisturbed := { h.undisturbed with }, index := rfl, stored := hstored, reads := hm }

theorem sameReceive_chunkAcked (p : List Byte) (i : BitVec 4) (more : List (List Byte)) (s : State) :
    SameReceive s (chunkAcked p i more s) := by
  rw [chunkAcked_eq]
  exact ⟨⟨rfl, rfl, rfl⟩, rfl, rfl, rfl⟩

/-- The next chunk of a message that fits is stored and acknowledged. -/
theorem Arriving.run_next (h : Arriving s p n i rest) (hf : s.fsm = .rxChunk) (hlt : i.toNat < n.toNat) :
    ∃ v, Host.Core.run core 2 s = afterAck (i + 1) n v ∧ Arriving v p n (i + 1) rest ∧ SameReceive s v ∧
      Writes [[s.cfg.ack]] s v := by
  have hstep : (i + 1).toNat = i.toNat + 1 := toNat_add_one_of_lt hlt
  have hmore : n.toNat - i.toNat = (n.toNat - (i + 1).toNat) + 1 := by omega
  obtain ⟨more, hm⟩ :
      ∃ more, more = (List.range' (i + 1).toNat (n.toNat - (i + 1).toNat)).map (encodeChunk p) ++ rest := ⟨_, rfl⟩
  have hreads : s.env.reads = encodeChunk p i.toNat :: more := by
    rw [h.reads, hmore, List.range'_succ, ← hstep, List.map_cons, List.cons_append, hm]
  have hroom : chunkData * i.toNat + chunkData ≤ s.cfg.rxCap :=
    calc chunkData * i.toNat + chunkData = chunkData * (i.toNat + 1) := (Nat.mul_succ ..).symm
      _ ≤ chunkData * nchunks p.length := Nat.mul_le_mul_left _ (hlt.trans_eq h.count)
      _ ≤ s.cfg.rxCap := nchunks_fits h.fits ((cfgOk_iff s.cfg).1 h.undisturbed.config).1
  exact ⟨chunkAcked p i more s, run_chunk h.undisturbed hf h.index h.chunks hreads hroom,
    h.next hstep hm, sameReceive_chunkAcked p i more s, writes_chunkAcked p i more s⟩

/-- From chunk `i` on, every chunk is stored and acknowledged, and then the message is handed over. -/
theorem Arriving.run_chunks {m j : Nat} (h : Arriving v p n i rest) (hm : i.toNat + m = n.toNat)
    (hrun : Host.Core.run core j s = afterAck i n v) :
    ∃ w, Host.Core.run core (j + 2 * m) s = rxOk w ∧ Arriving w p n n rest ∧ SameReceive v w ∧
      Writes (List.replicate m [v.cfg.ack]) v w := by
  induction m generalizing v i j with
  | zero =>
    obtain rfl : i = n := BitVec.eq_of_toNat_eq hm
    exact ⟨v, hrun.trans (if_pos rfl), h, .refl v, [], (List.append_nil _).symm, rfl⟩
  | succ m ih =>
    have hlt : i.toNat < n.toNat := by omega
    have hne : i ≠ n := fun e => hlt.ne (congrArg BitVec.toNat e)
    have hread : Arriving (goTo .rxChunk v) p n i rest := { h with undisturbed := { h.undisturbed with } }
    obtain ⟨v', hrun', hv', hsame, hw⟩ := hread.run_next rfl hlt
    rw [afterAck, if_neg hne] at hrun
    obtain ⟨w, hw_run, hw_arr, hw_same, hw_writes⟩ :=
      ih hv' (by rw [toNat_add_one_of_lt hlt]; omega) ((run_add hrun 2).trans hrun')
    refine ⟨w, ?_, hw_arr, SameReceive.trans { hsame with } hw_same, ?_⟩
    · rw [← hw_run]; congr 1; omega
    · rw [hsame.cfg] at hw_writes
      exact Writes.trans (ws := [[v.cfg.ack]]) hw hw_writes

/-! ### The whole message -/

/-- The whole message stands in the block, and `rest` in the transport; the request that `s` runs is still running. -/
structure Arrived (s t : State) (cmd : Byte) (src : Nibble) (l : Half) (p : List Byte) (rest : List (List Byte)) :
    Prop where
  cmd : t.rxCmd = some cmd
  src : t.rxSrc = some src
  len : t.rxLen = some l
  payload : cellsAt t.rxBuf 0 l.toNat = some p
  reads : t.env.reads = rest
  origin : t.origin = s.origin
  handler : t.handler = s.handler

theorem rxHdrAck_fits (hl : s.rxLen = some l) (hc : l.toNat ≤ s.cfg.rxCap) :
    rxHdrAck s =
      afterAck 0 (BitVec.ofNat 4 (nchunks l.toNat)) (setChunks (BitVec.ofNat 4 (nchunks l.toNat)) (sendAck s)) := by
  simp only [rxHdrAck, sendAck_rxLen, sendAck_cfg, hl, readReg_some, if_neg (Nat.not_lt.2 hc), afterAck, eq_comm]

/-- A header was decoded, and `more` stays in the transport (R102). -/
def headerDecoded (cmd : Byte) (src : Nibble) (l : Half) (r : List Byte) (more : List (List Byte))
    (s : State) : State :=
  goTo .rxHdrAck (setRxHeader cmd src l (log [.read hdrLen r] (setReads more s)))

/-- The decoded header was acknowledged, and its message fits (R103). -/
def headerAcked (cmd : Byte) (src : Nibble) (l : Half) (r : List Byte) (more : List (List Byte)) (s : State) : State :=
  setChunks (BitVec.ofNat 4 (nchunks l.toNat)) (sendAck (headerDecoded cmd src l r more s))

/-- All that the two steps of a header for this endpoint change. -/
theorem headerAcked_eq (cmd : Byte) (src : Nibble) (l : Half) (r : List Byte) (more : List (List Byte)) (s : State) :
    headerAcked cmd src l r more s = { s with
      fsm := .rxHdrAck
      rxCmd := some cmd
      rxSrc := some src
      rxLen := some l
      nChunks := some (BitVec.ofNat 4 (nchunks l.toNat))
      chunkIdx := some 0
      hist := s.hist ++ [.read hdrLen r] ++ [.write [s.cfg.ack], .flush]
      env := { s.env with reads := more } } := by
  simp only [headerAcked, headerDecoded, setChunks, sendAck, log, goTo, setRxHeader, setReads]

theorem writes_headerAcked (cmd : Byte) (src : Nibble) (l : Half) (r : List Byte) (more : List (List Byte))
    (s : State) :
    Writes [[s.cfg.ack]] s (headerAcked cmd src l r more s) :=
  Writes.trans (ws := []) ⟨[_], rfl, rfl⟩ (writes_sendAck (headerDecoded cmd src l r more s))

/-- A header for this endpoint takes two steps: it is read, then acknowledged (R102, R103). -/
theorem run_header (hd : Undisturbed s) (hf : s.fsm = .rxHdr) (hr : s.env.reads = r :: more)
    (hlen : r.length ≤ hdrLen) (hok : decodeHeader s.cfg r s.ownId = .ok ⟨cmd, src, l⟩)
    (hl : l.toNat ≤ s.cfg.rxCap) :
    Host.Core.run core 2 s =
      afterAck 0 (BitVec.ofNat 4 (nchunks l.toNat)) (headerAcked cmd src l r more s) := by
  have h1 : step s = .next (headerDecoded cmd src l r more s) :=
    (step_rxHdr hd hf hr hlen).trans (rxHdr_ok (s := setReads more s) (i := ⟨cmd, src, l⟩) hok)
  have h2 := step_rxHdrAck (s := headerDecoded cmd src l r more s) { hd with } rfl
  exact (run_step ((run_first_step s).trans h1)).trans (h2.trans (rxHdrAck_fits rfl hl))

/-- Once its header is acknowledged, no chunk of the message is stored and all of them come. -/
theorem arriving_headerAcked (hd : Undisturbed s) (hp : p.length = l.toNat) (hl : l.toNat ≤ s.cfg.rxCap)
    (hn : (BitVec.ofNat 4 (nchunks l.toNat)).toNat = nchunks l.toNat) :
    Arriving (headerAcked cmd src l r ((List.range (nchunks l.toNat)).map (encodeChunk p) ++ rest) s) p
      (BitVec.ofNat 4 (nchunks l.toNat)) 0 rest := by
  rw [headerAcked_eq]
  exact
    { undisturbed := { hd with }, fits := hp.trans_le hl, chunks := rfl, count := by rw [hn, hp], index := rfl
      stored := nofun, reads := by rw [hn, List.range_eq_range']; rfl }

/-- A message that was received from its acknowledged header on is the one that header announced. -/
theorem SameReceive.arrived (h : SameReceive (headerAcked cmd src l r more s) v) (hv : Arriving v p n n rest)
    (hp : p.length = l.toNat) : Arrived s v cmd src l p rest := by
  rw [headerAcked_eq] at h
  exact
    { cmd := h.rxCmd, src := h.rxSrc, len := h.rxLen, payload := hp ▸ hv.payload, reads := hv.reads_end
      origin := h.origin, handler := h.handler }

/-- The header's two steps, and two for every chunk (R102 to R105). -/
theorem run_receive (hd : Undisturbed s) (hf : s.fsm = .rxHdr) (hp : p.length = l.toNat) (hl : l.toNat ≤ s.cfg.rxCap)
    (hr : s.env.reads =
      encodeHeader s.cfg cmd src s.ownId l :: (List.range (nchunks l.toNat)).map (encodeChunk p) ++ rest) :
    ∃ v, Host.Core.run core (2 + 2 * nchunks l.toNat) s = rxOk v ∧ Arrived s v cmd src l p rest ∧
      Writes (List.replicate (1 + nchunks l.toNat) [s.cfg.ack]) s v := by
  have hcap : s.cfg.rxCap ≤ maxPayload := ((cfgOk_iff s.cfg).1 hd.config).2
  have hn : (BitVec.ofNat 4 (nchunks l.toNat)).toNat = nchunks l.toNat := toNat_ofNat_nchunks (hl.trans hcap)
  have hok : decodeHeader s.cfg (encodeHeader s.cfg cmd src s.ownId l) s.ownId = .ok ⟨cmd, src, l⟩ := by
    rw [decodeHeader_encodeHeader, if_neg (not_not.2 rfl)]
  have hrun := run_header hd hf hr (encodeHeader_length ..).le hok hl
  obtain ⟨w, hw_run, hw, hsame, hwrites⟩ :=
    (arriving_headerAcked hd hp hl hn).run_chunks ((Nat.zero_add _).trans hn.symm) hrun
  refine ⟨w, hw_run, hsame.arrived hw hp, ?_⟩
  rw [List.replicate_add]
  exact (writes_headerAcked ..).trans hwrites

theorem encodeHeader_congr {c c' : Cfg} {dst : Nibble} (h1 : c.magic1 = c'.magic1) (h2 : c.magic2 = c'.magic2)
    (hv : c.version = c'.version) : encodeHeader c cmd src dst l = encodeHeader c' cmd src dst l := by
  rw [encodeHeader, encodeHeader, h1, h2, hv]

end Sys2Proof.Machine

namespace Sys2Proof.Proofs

open Sys2Proof.Machine

/-- Settles O51: the sender's units are those of a message for the target, and the receiver hands that message over. -/
theorem sentMessageIsReceived : Obligations.SentMessageIsReceived := by
  intro a b c cmd src dst n data rest hd hf hlen hmax hav hpos hbytes hexec
  have hn : (BitVec.ofNat 4 (nchunks n.toNat)).toNat = nchunks n.toNat := toNat_ofNat_nchunks hmax
  obtain ⟨hacks, hfc, hhdr⟩ := send_accepted hd hf hlen hmax hav hpos (hbytes.trans (List.append_nil _).symm) hexec
  obtain ⟨t, hrun, hsent⟩ := hacks.run_message hfc hhdr
  rw [hn] at hrun
  refine ⟨t, hrun, hsent.resp, fun hdb hfb hob hid hm1 hm2 hv hfit hreads => ?_⟩
  rw [hsent.writes.newEvents, hn, ← encodeHeader_congr hm1 hm2 hv, ← hid] at hreads
  obtain ⟨v, hrunb, hv, -⟩ := run_receive hdb hfb hlen hfit hreads
  have horigin : v.origin = some .recv := hv.origin.trans hob
  have hok := rxOk_next.2 (.inl ⟨horigin, cmd, src, n, data, hv.cmd, hv.src, hv.len, hv.payload, rfl⟩)
  exact ⟨_, hrunb.trans hok, rfl⟩

end Sys2Proof.Proofs
end
section
/-! PROOFS. A whole message (spec/42_chunk_codec.md R87, spec/44_transceiver.md R96 to R106, spec/45_dispatch.md R111):
the runs over all its units, from the first state of a send or a receive to the last. -/

namespace Sys2Proof.Machine

variable {s t u : State} {ws : List (List Byte)}

/-! ### The last event of a run -/

theorem Writes.trans_nil (h : Writes ws s u) (h' : Writes [] u t) : Writes ws s t :=
  List.append_nil ws ▸ h.trans h'

theorem newEvents_getLast? {e : Event} (h : Writes ws s u) (ht : t.hist = u.hist ++ [e]) :
    (newEvents s t).getLast? = some e := by
  obtain ⟨evs, hu, -⟩ := h
  rw [hu, List.append_assoc] at ht
  rw [newEvents_eq ht, List.getLast?_concat]

end Sys2Proof.Machine

namespace Sys2Proof.Proofs

open Sys2Proof.Machine

/-- Settles O49: the run over the units ends in the hand-over, and the request's origin says to whom. -/
theorem wholeMessageIsReceived : Obligations.WholeMessageIsReceived := by
  intro s cmd src l p rest hd hf hlen hfit hreads
  obtain ⟨v, hrun, hv, hw⟩ := run_receive hd hf hlen hfit hreads
  refine ⟨fun ho => ?_, fun token ho hh => ?_⟩
  · have hok := rxOk_next.2 (.inl ⟨hv.origin.trans ho, cmd, src, l, p, hv.cmd, hv.src, hv.len, hv.payload, rfl⟩)
    exact ⟨_, hrun.trans hok, rfl, hv.reads, rfl, (hw.trans_nil (handedOver_of_next hok).writes).newEvents⟩
  · have hdeliver := dispatchDeliver_next.2
      ⟨token, cmd, src, l, p, hv.handler.trans hh, hv.cmd, hv.src, hv.len, hv.payload, rfl⟩
    have hok := rxOk_next.2 (.inr ⟨.inr (hv.origin.trans ho), hdeliver⟩)
    exact ⟨_, hrun.trans hok, rfl, hv.reads, newEvents_getLast? hw rfl,
      (hw.trans_nil (handedOver_of_next hok).writes).newEvents⟩

/-- Settles O50: the run over the header and the chunks, each of the `n + 1` units acknowledged. -/
theorem wholeMessageIsSent : Obligations.WholeMessageIsSent := by
  intro s p n h bytes hd hf hsend _ hh hlen hpos hacks
  have hpeer : PeerAcks s p n 0 (n.toNat + 1) bytes := ⟨hd, hsend, hlen, hpos, hacks⟩
  obtain ⟨t, hrun, hsent⟩ := hpeer.run_message hf hh
  exact ⟨t, hrun, hsent.idle, hsent.resp, hsent.bytes, hsent.writes.newEvents⟩

end Sys2Proof.Proofs
end
section
/-! PROOFS. The chunk codec (spec/42_chunk_codec.md R84 to R88): the bytes of a chunk, and that the checksum over all 33
bytes decides whether a chunk decodes. -/

namespace Sys2Proof.Machine

variable {p r : List Byte}

/-! ### The bytes of a chunk -/

/-- Past the payload's end the data field is zero (R84). -/
theorem chunkField_getElem?_padding {k i : Nat} (hi : i < chunkData) (hp : p.length ≤ chunkData * k + i) :
    (chunkField p k)[i]? = some 0 := by
  have hlen : ((p.drop (chunkData * k)).take chunkData).length ≤ i := by
    rw [List.length_take, List.length_drop]; omega
  rw [chunkField, List.getElem?_append_right hlen, List.getElem?_replicate_of_lt (Nat.sub_lt_sub_right hlen hi)]

theorem encodeChunk_getElem?_data {k i : Nat} (hi : i < chunkData) : (encodeChunk p k)[i]? = (chunkField p k)[i]? :=
  List.getElem?_append_left (hi.trans_eq (chunkField_length p k).symm)

theorem encodeChunk_getElem?_checksum (p : List Byte) (k : Nat) :
    (encodeChunk p k)[chunkData]? = some (crc8 (chunkField p k)) := by
  rw [encodeChunk, ← chunkField_length p k, List.getElem?_concat_length]

/-- A payload of one chunk is padded at its end. -/
theorem chunkField_zero (hp : p.length ≤ chunkData) : chunkField p 0 = p ++ zeros (chunkData - p.length) := by
  rw [chunkField, Nat.mul_zero, List.drop_zero, List.take_of_length_le hp]

/-! ### The checks of R85 -/

theorem crc8_append_eq_zero_iff (d : List Byte) (b : Byte) : crc8 (d ++ [b]) = 0 ↔ crc8 d = b := by
  rw [crc8_append, ← crc8Step_self b, crc8Step_left_inj]

/-- A full read decodes exactly when the checksum over all its bytes is zero (R75 (d), R85). -/
theorem decodeChunk_of_length (hr : r.length = chunkLen) :
    decodeChunk r = if crc8 r = 0 then .ok (r.take chunkData) else .error .badChecksum := by
  have hne : r ≠ [] := List.ne_nil_of_length_eq_add_one hr
  obtain ⟨d, b, rfl⟩ : ∃ d b, r = d ++ [b] := ⟨_, _, (List.dropLast_concat_getLast hne).symm⟩
  have hd : d.length = chunkData := by simpa [chunkLen, chunkData] using hr
  rw [decodeChunk_append hd, List.take_left' hd]
  simp only [crc8_append_eq_zero_iff]

theorem crc8_of_decodeChunk_ok {d : List Byte} (hr : r.length = chunkLen) (h : decodeChunk r = .ok d) :
    crc8 r = 0 := by
  rw [decodeChunk_of_length hr] at h
  by_contra hne
  rw [if_neg hne] at h
  cases h

/-- One byte changed in a good chunk changes the checksum from zero (R88 (b)). -/
theorem decodeChunk_set {d : List Byte} {k : Nat} {x : Byte} (hr : r.length = chunkLen) (h : decodeChunk r = .ok d)
    (hk : k < chunkLen) (hx : r[k]? ≠ some x) : decodeChunk (r.set k x) = .error .badChecksum := by
  have hne : crc8 (r.set k x) ≠ crc8 r := crc8_set_ne (hr ▸ hk) hx
  rw [crc8_of_decodeChunk_ok hr h] at hne
  rw [decodeChunk_of_length (List.length_set.trans hr), if_neg hne]

end Sys2Proof.Machine

namespace Sys2Proof.Proofs

open Sys2Proof.Machine

/-- Settles O12: a byte of the data field is the payload's or padding, and the last byte is the checksum. -/
theorem encodedChunkBytes : Obligations.EncodedChunkBytes := by
  intro p k _ _
  refine ⟨encodeChunk_length p k, fun i hi => ?_, ?_⟩
  · rw [encodeChunk_getElem?_data hi]
    split_ifs with hp
    · have hbyte : (chunkField p k)[chunkData * k + i - chunkData * k]? = p[chunkData * k + i]? :=
        chunkField_getElem? (Nat.le_add_right ..) (Nat.add_lt_add_left hi _) hp
      rw [Nat.add_sub_cancel_left] at hbyte
      exact hbyte.trans (List.getElem?_eq_getElem hp)
    · exact chunkField_getElem?_padding hi (Nat.le_of_not_lt hp)
  · rw [encodeChunk_take]
    exact encodeChunk_getElem?_checksum p k

/-- Settles O16: chunk 0 decodes to its padded payload; a changed byte shows in the checksum. -/
theorem chunkCodecLaws : Obligations.ChunkCodecLaws := by
  refine ⟨fun p hp => ?_, fun r d k x hr hd hk hx => decodeChunk_set hr hd hk hx⟩
  rw [decodeChunk_encodeChunk, chunkField_zero hp]
  rfl

/-- Settles O13: the length is checked first, then the checksum decides. -/
theorem chunkChecksInOrder : Obligations.ChunkChecksInOrder :=
  ⟨fun _ hr => if_pos hr, fun _ k hd hk => (decodeChunk_append hd k).trans (if_neg hk),
    fun _ k hd hk => (decodeChunk_append hd k).trans (if_pos hk)⟩

/-- Settles O14: the two bounds of a quotient rounded up, and five values. -/
theorem chunkCountIsTheCeiling : Obligations.ChunkCountIsTheCeiling := by
  refine ⟨fun l => ⟨le_nchunks l, ?_⟩, rfl, rfl, rfl, rfl, rfl⟩
  simp only [nchunks, chunkData]
  omega

end Sys2Proof.Proofs
end
section
/-! PROOFS. The acknowledgment wait (spec/43_ack_channel.md R91 to R95, spec/44_transceiver.md R98, R100): one poll, the
byte that decides the SEND, a wait that nobody answers, and what the wire units HEADER and ACK leave unchanged. -/

namespace Sys2Proof.Machine

variable {s t u : State}

/-! ### One poll -/

theorem step_awPoll (h : Undisturbed s) (hf : s.fsm = .awPoll) : step s = awPoll s := by
  simp [step_undisturbed h, fetchByState, hf]

/-- A poll found nothing and was counted as number `k`; `rest` are the answers to come (R91). -/
def emptyPolled (k : BitVec 7) (rest : List Nat) (s : State) : State :=
  goTo .awSleep (setAckAttempts k (log [.avail 0] (setAvails rest s)))

/-- An empty poll that is not the hundredth is counted (R91). -/
theorem step_awPoll_empty {rest : List Nat} {k : BitVec 7} (h : Undisturbed s) (hf : s.fsm = .awPoll)
    (ha : s.env.avails = 0 :: rest) (hk : s.ackAttempts = some k) (hn : (k + 1).toNat ≠ ackPollAttempts) :
    step s = .next (emptyPolled (k + 1) rest s) :=
  (step_awPoll h hf).trans (awPoll_next.2 (.inr ⟨0, rest, ha, .inr ⟨rfl, k, hk, .inr ⟨hn, rfl⟩⟩⟩))

/-- The hundredth empty poll ends the SEND (R91, R100). -/
theorem step_awPoll_timeout {rest : List Nat} {k : BitVec 7} (h : Undisturbed s) (hf : s.fsm = .awPoll)
    (ha : s.env.avails = 0 :: rest) (hk : s.ackAttempts = some k) (hn : (k + 1).toNat = ackPollAttempts) :
    step s = .next (complete { status := .badAck }
      (setAckAttempts (k + 1) (log [.avail 0] (setAvails rest s)))) :=
  (step_awPoll h hf).trans (awPoll_next.2 (.inr ⟨0, rest, ha, .inr ⟨rfl, k, hk, .inl ⟨hn, rfl⟩⟩⟩))

theorem step_awSleep_tick {k : Nat} (h : Undisturbed s) (hf : s.fsm = .awSleep) (hk : s.env.ticks = k + 1) :
    step s = .next (goTo .awPoll (log [.tick] (setTicks k s))) :=
  (step_awSleep h hf).trans (awSleep_next.2 (.inr ⟨k, hk, rfl⟩))

/-- A count below a hundred polls steps without wrapping. -/
theorem toNat_attempts_succ {k : BitVec 7} (hk : k.toNat < 100) : (k + 1).toNat = k.toNat + 1 := by
  bv_omega

theorem toNat_ofNat_attempts {j : Nat} (hj : j < 100) : (BitVec.ofNat 7 j).toNat = j :=
  Nat.mod_eq_of_lt (by omega)

/-- Completing a request after one event records the event and the response. -/
theorem complete_log (r : Resp) (e : Event) (s : State) :
    complete r (log [e] s) = { s with resp := some r, hist := s.hist ++ [e, .resp r], fsm := .idle } := by
  rw [complete, log, List.append_assoc]
  rfl

/-! ### The byte that was read -/

theorem exec_ack_awRead (a : Byte) (hf : s.fsm = .awRead) : exec (.ack a) s = awRead a s := if_pos hf

/-- Where a SEND of `n` chunks stands once the awaited unit is acknowledged (R98). -/
theorem ackOk_eq {v : AckUnit} {i : BitVec 4} (hu : s.ackUnit = some v) (hi : s.chunkIdx = some i) :
    ackOk s = nextUnit (setChunkIdx (if v = .chunk then i + 1 else i) s) := by
  cases v with
  | hdr =>
    have hsame : setChunkIdx i s = s := by rw [setChunkIdx, ← hi]
    rw [ackOk_hdr hu, if_neg nofun, hsame]
  | chunk => rw [ackOk_chunk hu hi, if_pos rfl]

theorem nextUnit_done {i n : BitVec 4} (hi : s.chunkIdx = some i) (hn : s.nChunks = some n) (he : i = n) :
    nextUnit s = .next (complete { status := .ok } s) :=
  nextUnit_next.2 ⟨i, n, hi, hn, .inl ⟨he, rfl⟩⟩

theorem nextUnit_more {i n : BitVec 4} {p : List Byte} (hi : s.chunkIdx = some i) (hn : s.nChunks = some n)
    (hp : s.txPayload = some p) (he : i ≠ n) :
    nextUnit s = .next (goTo .txChunk (setChkReg (encodeChunk p i.toNat) s)) :=
  nextUnit_next.2 ⟨i, n, hi, hn, .inr ⟨he, p, hp, rfl⟩⟩

/-! ### A wait that nobody answers -/

/-- From the start of a wait in `s`, `j` polls found nothing and a tick came after each; `100 - j` more will find
nothing (R91, R92). -/
structure Silent (s t : State) (j : Nat) (rest : List Nat) : Prop where
  undisturbed : Undisturbed t
  polling : t.fsm = .awPoll
  attempts : t.ackAttempts = some (BitVec.ofNat 7 j)
  avails : t.env.avails = List.replicate (100 - j) 0 ++ rest
  ticks : t.env.ticks + j = s.env.ticks
  hist : t.hist = s.hist ++ (List.replicate j [Event.avail 0, Event.tick]).flatten

/-- While `j` is below a hundred, the next poll is one more empty one. -/
theorem Silent.next_avail {j : Nat} {rest : List Nat} (h : Silent s t j rest) (hj : j < 100) :
    t.env.avails = 0 :: (List.replicate (100 - (j + 1)) 0 ++ rest) := by
  have hlen : 100 - j = 100 - (j + 1) + 1 := by omega
  rw [h.avails, hlen, List.replicate_succ, List.cons_append]

/-- An empty poll, counted as number `k`, and the tick after it; `ticks` more have come (R91, R92). -/
def quietRound (k : BitVec 7) (rest : List Nat) (ticks : Nat) (s : State) : State :=
  goTo .awPoll (log [.tick] (setTicks ticks (emptyPolled k rest s)))

/-- A round that is not the last takes two steps. -/
theorem run_quietRound {rest : List Nat} {k : BitVec 7} {ticks : Nat} (h : Undisturbed s) (hf : s.fsm = .awPoll)
    (ha : s.env.avails = 0 :: rest) (hk : s.ackAttempts = some k) (hn : (k + 1).toNat ≠ ackPollAttempts)
    (ht : s.env.ticks = ticks + 1) :
    Host.Core.run core 2 s = .next (quietRound (k + 1) rest ticks s) := by
  have hpoll := step_awPoll_empty h hf ha hk hn
  have hsleep := step_awSleep_tick (s := emptyPolled (k + 1) rest s) { h with } rfl ht
  exact (run_step ((run_first_step s).trans hpoll)).trans hsleep

/-- The wait goes on for one more round (R91, R92). -/
theorem Silent.run_round {j : Nat} {rest : List Nat} (h : Silent s t j rest) (hj : j < 99)
    (hticks : 99 ≤ s.env.ticks) : ∃ v : State, Host.Core.run core 2 t = .next v ∧ Silent s v (j + 1) rest := by
  obtain ⟨k, hk⟩ : ∃ k, t.env.ticks = k + 1 := ⟨t.env.ticks - 1, by have := h.ticks; omega⟩
  have hcount : (BitVec.ofNat 7 j + 1).toNat ≠ ackPollAttempts := by
    have hj' : (BitVec.ofNat 7 j).toNat = j := toNat_ofNat_attempts (by omega)
    rw [toNat_attempts_succ (by omega), hj', ackPollAttempts]
    omega
  refine ⟨_, run_quietRound h.undisturbed h.polling (h.next_avail (by omega)) h.attempts hcount hk, ?_⟩
  refine ⟨{ h.undisturbed with }, rfl, congrArg some (BitVec.ofNat_add j 1).symm, rfl, ?_, ?_⟩
  · show k + (j + 1) = s.env.ticks
    rw [← h.ticks, hk]
    omega
  · show t.hist ++ [.avail 0] ++ [.tick] = _
    rw [h.hist, List.replicate_succ', List.flatten_append]
    simp

/-- After `j` rounds, fewer than a hundred, the wait goes on. -/
theorem Silent.run_rounds {rest : List Nat} (h : Silent s s 0 rest) (hticks : 99 ≤ s.env.ticks) {j : Nat}
    (hj : j ≤ 99) : ∃ v : State, Host.Core.run core (2 * j) s = .next v ∧ Silent s v j rest := by
  induction j with
  | zero => exact ⟨s, rfl, h⟩
  | succ j ih =>
    obtain ⟨v, hv, hsilent⟩ := ih (by omega)
    obtain ⟨w, hw, hsilent'⟩ := hsilent.run_round hj hticks
    exact ⟨w, (run_add hv 2).trans hw, hsilent'⟩

/-! ### Frames -/

/-- After an acknowledged unit `chk_reg`, the response, `fsm` and the history change, and nothing else (R98). -/
theorem Acked.frame (h : Acked u t) :
    ∃ c r f evs, t = { u with chkReg := c, resp := r, fsm := f, hist := u.hist ++ evs } ∧
      (f = .txChunk ∨ c = u.chkReg) := by
  cases h with
  | done => exact ⟨u.chkReg, _, _, [_], rfl, .inr rfl⟩
  | more => exact ⟨_, u.resp, .txChunk, [], by rw [List.append_nil]; rfl, .inl rfl⟩

/-- HEADER writes the received header on the way to RX_HDR_ACK, and otherwise at most the response (R102, R107,
R113). -/
theorem exec_header_frame {m n v c : Byte} {sn tg : Nibble} {l : Half} {k : Byte}
    (h : exec (.header m n v c sn tg l k) s = .next t) :
    (∃ i : HeaderInfo, ∃ evs, t = goTo .rxHdrAck (setRxHeader i.cmd i.src i.len (log evs s))) ∨
    (∃ r f evs, t = { s with resp := r, fsm := f, hist := s.hist ++ evs }) := by
  rcases execHeader_next.1 h with ⟨-, h⟩ | ⟨-, rfl⟩
  · rcases rxHdr_next.1 h with ⟨st, -, h⟩ | ⟨i, -, rfl⟩
    · obtain ⟨r, f, evs, rfl⟩ := (failed_of_next h).frame
      exact .inr ⟨r, f, [.read hdrLen (headerBytes m n v c sn tg l k)] ++ evs, by simp [log]⟩
    · exact .inl ⟨i, _, rfl⟩
  · exact .inr ⟨s.resp, s.fsm, [], by rw [List.append_nil]⟩

/-- ACK counts an acknowledged chunk, writes `chk_reg` on the way to TX_CHUNK, and otherwise at most the response (R93,
R98, R100). -/
theorem exec_ack_frame {a : Byte} (h : exec (.ack a) s = .next t) :
    ∃ i c r f evs, t = { s with chunkIdx := i, chkReg := c, resp := r, fsm := f, hist := s.hist ++ evs } ∧
      (f = .txChunk ∨ c = s.chkReg) ∧ (s.ackUnit = some .chunk ∨ i = s.chunkIdx) := by
  rcases execAck_next.1 h with ⟨-, h⟩ | ⟨-, rfl⟩
  · rcases awRead_next.1 h with ⟨-, h⟩ | ⟨-, rfl⟩
    · rcases ackOk_next.1 h with ⟨-, h⟩ | ⟨hu, i, -, h⟩
      · obtain ⟨c, r, f, evs, rfl, hc⟩ := (acked_of_next h).frame
        exact ⟨s.chunkIdx, c, r, f, [.readByte a] ++ evs, by simp [log], hc, .inr rfl⟩
      · obtain ⟨c, r, f, evs, rfl, hc⟩ := (acked_of_next h).frame
        exact ⟨some (i + 1), c, r, f, [.readByte a] ++ evs, by simp [log, setChunkIdx], hc, .inl hu⟩
    · exact ⟨s.chunkIdx, s.chkReg, _, _, _, complete_log .., .inr rfl, .inr rfl⟩
  · exact ⟨s.chunkIdx, s.chkReg, s.resp, s.fsm, [], by rw [List.append_nil], .inr rfl, .inr rfl⟩

end Sys2Proof.Machine

namespace Sys2Proof.Proofs

open Sys2Proof.Machine

/-- Settles O26: an answer above 0 reads; an empty poll is counted, and the count says whether it is the hundredth. -/
theorem ackPollCountsEmptyPolls : Obligations.AckPollCountsEmptyPolls := by
  intro s a rest k hd hf ha hk hlt
  refine ⟨fun hp => step_awPoll_pending hd hf ha hp, ?_, ?_⟩
  · rintro rfl hn
    rw [step_awPoll_empty hd hf ha hk ((toNat_attempts_succ hlt).trans_ne hn.ne)]
    rfl
  · rintro rfl hn
    rw [step_awPoll_timeout hd hf ha hk ((toNat_attempts_succ hlt).trans hn)]
    exact congrArg Host.Outcome.next
      (complete_log { status := .badAck } (.avail 0) (setAckAttempts (k + 1) (setAvails rest s)))

/-- Settles O28: any other byte is BadAck; the acknowledgment settles the index, and the index says what follows. -/
theorem ackByteDecidesTheSend : Obligations.AckByteDecidesTheSend := by
  intro a s hf
  refine ⟨fun hne => ?_, fun v i n p ha hv hi hn hp => ?_⟩
  · rw [exec_ack_awRead a hf, awRead_next.2 (.inr ⟨hne, rfl⟩), complete_log]
  · have hexec : exec (.ack a) s =
        nextUnit (log [.readByte a] (setChunkIdx (if v = .chunk then i + 1 else i) s)) :=
      (exec_ack_awRead a hf).trans ((awRead_ack ha).trans (ackOk_eq (s := log [.readByte a] s) hv hi))
    refine ⟨fun hj => ?_, fun hj => ?_⟩
    · rw [hexec, nextUnit_done (s := log _ (setChunkIdx _ s)) rfl hn hj, complete_log]
      rfl
    · exact hexec.trans (nextUnit_more (s := log _ (setChunkIdx _ s)) rfl hn hp hj)

/-- Settles O48: 99 rounds of an empty poll and a tick, then the hundredth empty poll. -/
theorem silentPeerTimesOut : Obligations.SilentPeerTimesOut := by
  intro s rest hd hf hk ha hticks
  have hstart : Silent s s 0 rest := ⟨hd, hf, hk, ha, rfl, (List.append_nil _).symm⟩
  obtain ⟨v, hrun, hv⟩ := hstart.run_rounds hticks (j := 99) le_rfl
  have hlast := step_awPoll_timeout hv.undisturbed hv.polling (hv.next_avail (by decide)) hv.attempts rfl
  refine ⟨_, (run_step hrun).trans hlast, rfl, rfl, rfl, rfl, hv.ticks, ?_⟩
  rw [complete_hist, setAckAttempts_hist, log_hist, setAvails_hist, hv.hist, List.append_assoc]
  rfl

/-- Settles O58: neither unit stores to the buffer, and each writes the registers of its own outcome. -/
theorem headerAndAckFrame : Obligations.HeaderAndAckFrame := by
  refine ⟨fun m n v c sn tg l k s t h => ?_, fun a s t h => ?_⟩
  · rcases exec_header_frame h with ⟨i, evs, rfl⟩ | ⟨r, f, evs, rfl⟩
    · exact ⟨⟨rfl, rfl, rfl, rfl⟩, ⟨rfl, rfl, rfl, rfl, rfl, rfl⟩, ⟨rfl, rfl⟩, fun _ => rfl,
        ⟨rfl, rfl, rfl, evs, rfl⟩, rfl, rfl, rfl, rfl, .inl rfl⟩
    · exact ⟨⟨rfl, rfl, rfl, rfl⟩, ⟨rfl, rfl, rfl, rfl, rfl, rfl⟩, ⟨rfl, rfl⟩, fun _ => rfl,
        ⟨rfl, rfl, rfl, evs, rfl⟩, rfl, rfl, rfl, rfl, .inr ⟨rfl, rfl, rfl⟩⟩
  · obtain ⟨i, c, r, f, evs, rfl, hc, hi⟩ := exec_ack_frame h
    exact ⟨⟨rfl, rfl, rfl, rfl⟩, ⟨rfl, rfl, rfl, rfl, rfl, rfl⟩, ⟨rfl, rfl, rfl⟩, ⟨rfl, rfl⟩, fun _ => rfl,
      ⟨rfl, rfl, rfl, evs, rfl⟩, rfl, rfl, hc, hi⟩

end Sys2Proof.Proofs
end
section
/-! PROOFS. Progress (spec/43_ack_channel.md R95, spec/70_reset_and_hazards.md R147): what `stepsLeft` counts in each
state, that every answered step of a busy block lowers it and spends at most one answer of each kind, and so that a
request with enough answers ready ends. -/

namespace Sys2Proof.Machine

variable {s t u : State}

/-! ### The steps left in each state -/

@[simp] theorem regNat_some {w : Nat} (v : BitVec w) : regNat (some v) = v.toNat := rfl

theorem stepsLeft_txHdr (hf : s.fsm = .txHdr) : stepsLeft s = 201 * (regNat s.nChunks + 1) := by
  simp only [stepsLeft, hf]

theorem stepsLeft_txChunk (hf : s.fsm = .txChunk) : stepsLeft s = 201 * (regNat s.nChunks - regNat s.chunkIdx) := by
  simp only [stepsLeft, hf]

theorem stepsLeft_awPoll (hf : s.fsm = .awPoll) :
    stepsLeft s = 200 - 2 * regNat s.ackAttempts + 201 * unitsAfter s := by
  simp only [stepsLeft, hf]

theorem stepsLeft_awSleep (hf : s.fsm = .awSleep) :
    stepsLeft s = 201 - 2 * regNat s.ackAttempts + 201 * unitsAfter s := by
  simp only [stepsLeft, hf]

theorem stepsLeft_awRead (hf : s.fsm = .awRead) : stepsLeft s = 1 + 201 * unitsAfter s := by
  simp only [stepsLeft, hf]

theorem stepsLeft_rxAvail (hf : s.fsm = .rxAvail) : stepsLeft s = 23 := by
  simp only [stepsLeft, hf]

theorem stepsLeft_rxHdr (hf : s.fsm = .rxHdr) : stepsLeft s = 22 := by
  simp only [stepsLeft, hf]

theorem stepsLeft_rxHdrAck (hf : s.fsm = .rxHdrAck) :
    stepsLeft s = if s.cfg.rxCap < regNat s.rxLen then 1 else 1 + 2 * nchunks (regNat s.rxLen) := by
  simp only [stepsLeft, hf]

theorem stepsLeft_rxChunk (hf : s.fsm = .rxChunk) :
    stepsLeft s = 2 * (regNat s.nChunks - regNat s.chunkIdx) := by
  simp only [stepsLeft, hf]

theorem stepsLeft_rxChunkAck (hf : s.fsm = .rxChunkAck) :
    stepsLeft s = 2 * (regNat s.nChunks - regNat s.chunkIdx) - 1 := by
  simp only [stepsLeft, hf]

theorem stepsLeft_of_not_busy (h : busy s.fsm = false) : stepsLeft s = 0 := by
  cases hf : s.fsm <;> simp_all [busy, stepsLeft]

theorem unitsAfter_hdr (hu : s.ackUnit = some .hdr) : unitsAfter s = regNat s.nChunks := by
  simp only [unitsAfter, hu]

theorem unitsAfter_chunk (hu : s.ackUnit = some .chunk) :
    unitsAfter s = regNat s.nChunks - (regNat s.chunkIdx + 1) := by
  simp only [unitsAfter, hu]

/-- A busy block with the invariant has a step to take. -/
theorem Inv.stepsLeft_pos (h : Inv s) (hb : busy s.fsm = true) : 0 < stepsLeft s := by
  cases hf : s.fsm with
  | idle | deliver => rw [hf] at hb; cases hb
  | txHdr => rw [stepsLeft_txHdr hf]; omega
  | txChunk =>
    obtain ⟨p, n, i, hs, hi, -⟩ := h.at_txChunk hf
    rw [stepsLeft_txChunk hf, hs.chunks, hs.index, regNat_some, regNat_some]; omega
  | awPoll =>
    obtain ⟨p, n, i, v, k, -, ha⟩ := h.awaiting (.inl hf)
    have hk : k.toNat < 100 := ha.below
    rw [stepsLeft_awPoll hf, ha.attempts, regNat_some]; omega
  | awSleep =>
    obtain ⟨p, n, i, v, k, -, ha⟩ := h.awaiting (.inr (.inl hf))
    have hk : k.toNat < 100 := ha.below
    rw [stepsLeft_awSleep hf, ha.attempts, regNat_some]; omega
  | awRead => rw [stepsLeft_awRead hf]; omega
  | rxAvail => rw [stepsLeft_rxAvail hf]; decide
  | rxHdr => rw [stepsLeft_rxHdr hf]; decide
  | rxHdrAck => rw [stepsLeft_rxHdrAck hf]; split_ifs <;> omega
  | rxChunk =>
    obtain ⟨l, n, i, hk, -⟩ := h.at_rxChunk hf
    have hi := hk.bound
    rw [stepsLeft_rxChunk hf, hk.chunks, hk.index, regNat_some, regNat_some]; omega
  | rxChunkAck =>
    obtain ⟨l, n, i, hk, -⟩ := h.at_rxChunkAck hf
    have hi := hk.bound
    rw [stepsLeft_rxChunkAck hf, hk.chunks, hk.index, regNat_some, regNat_some]; omega

/-! ### A step lowers the count -/

theorem Failed.stepsLeft {st : Status} (h : Failed st u t) : stepsLeft t = 0 := by
  cases h <;> rfl

theorem HandedOver.stepsLeft (h : HandedOver u t) : stepsLeft t = 0 := by
  cases h <;> rfl

/-- After an acknowledged unit the chunks from `chunk_idx` on are left (R98). -/
theorem Acked.stepsLeft_le (h : Acked u t) : stepsLeft t ≤ 201 * (regNat u.nChunks - regNat u.chunkIdx) := by
  cases h with
  | done => exact Nat.zero_le _
  | more => exact le_rfl

theorem Accepted.not_busy {i : Instr} (h : Accepted u i t) : busy u.fsm = false := by
  rcases h.listening with hf | hf <;> rw [hf] <;> rfl

/-- Every step of a busy block whose question is answered comes closer to the end of its request. -/
theorem Took.progress (h : Took s t) (hinv : Inv s) (hb : busy s.fsm = true) (ha : answered s = true) :
    stepsLeft t < stepsLeft s := by
  have hpos : 0 < stepsLeft s := hinv.stepsLeft_pos hb
  cases h with
  | wait hw => rw [ha] at hw; cases hw
  | accepted q data rest i hh hd hacc => exact absurd (hb.symm.trans hacc.not_busy) nofun
  | timeout | mismatch | nothing => exact hpos
  | badHeader r rest st hf hr hd ht => exact ht.stepsLeft.trans_lt hpos
  | tooLong l hf hl hc ht => exact ht.stepsLeft.trans_lt hpos
  | badChunk r rest st hf hr hd ht => exact ht.stepsLeft.trans_lt hpos
  | noChunk l hf hl hc hz ht => exact ht.stepsLeft.trans_lt hpos
  | lastChunk i n hf hi hn he ht => exact ht.stepsLeft.trans_lt hpos
  | txHdr hdr hf hr =>
    show 200 + 201 * regNat s.nChunks < stepsLeft s
    rw [stepsLeft_txHdr hf]; omega
  | txChunk c hf hr =>
    obtain ⟨p, n, i, hs, hi, -⟩ := hinv.at_txChunk hf
    show 200 + 201 * (regNat s.nChunks - (regNat s.chunkIdx + 1)) < stepsLeft s
    rw [stepsLeft_txChunk hf, hs.chunks, hs.index, regNat_some, regNat_some]; omega
  | polled a rest hf hav hp =>
    obtain ⟨p, n, i, v, k, -, hw⟩ := hinv.awaiting (.inl hf)
    have hk : k.toNat < 100 := hw.below
    show 1 + 201 * unitsAfter s < stepsLeft s
    rw [stepsLeft_awPoll hf, hw.attempts, regNat_some]; omega
  | empty rest k hf hav hk hn =>
    obtain ⟨p, n, i, v, k', -, hw⟩ := hinv.awaiting (.inl hf)
    obtain rfl : k' = k := Option.some.inj (hw.attempts.symm.trans hk)
    have hlt : k'.toNat < 100 := hw.below
    show 201 - 2 * (k' + 1).toNat + 201 * unitsAfter s < stepsLeft s
    rw [stepsLeft_awPoll hf, hk, regNat_some, toNat_attempts_succ hlt]; omega
  | slept k hf hk =>
    obtain ⟨p, n, i, v, k, -, hw⟩ := hinv.awaiting (.inr (.inl hf))
    have hlt : k.toNat < 100 := hw.below
    show 200 - 2 * regNat s.ackAttempts + 201 * unitsAfter s < stepsLeft s
    rw [stepsLeft_awSleep hf, hw.attempts, regNat_some]; omega
  | ackedHdr rest hf hbytes hu hacked =>
    have hle : stepsLeft t ≤ 201 * (regNat s.nChunks - regNat s.chunkIdx) := hacked.stepsLeft_le
    rw [stepsLeft_awRead hf, unitsAfter_hdr hu]; omega
  | ackedChunk rest i hf hbytes hu hi hacked =>
    obtain ⟨p, n, i', v, k, hs, hw⟩ := hinv.awaiting (.inr (.inr hf))
    obtain rfl : i' = i := Option.some.inj (hs.index.symm.trans hi)
    have hlt : i'.toNat < n.toNat := hw.chunk (Option.some.inj (hw.unit.symm.trans hu))
    have hle : stepsLeft t ≤ 201 * (regNat s.nChunks - (i' + 1).toNat) := hacked.stepsLeft_le
    rw [toNat_add_one_of_lt hlt] at hle
    rw [stepsLeft_awRead hf, unitsAfter_chunk hu, hi, regNat_some]; omega
  | pending a rest hf hav hp => rw [stepsLeft_rxAvail hf]; exact Nat.lt_succ_self 22
  | goodHeader r rest h hf hr hd =>
    rw [stepsLeft_rxHdr hf, stepsLeft_rxHdrAck rfl]
    split_ifs with hc
    · decide
    · have hn : nchunks h.len.toNat ≤ 10 := hinv.values.nchunks_le (Nat.le_of_not_lt hc)
      show 1 + 2 * nchunks h.len.toNat < 22
      omega
  | firstChunk l hf hl hc hz =>
    have hn : (BitVec.ofNat 4 (nchunks l.toNat)).toNat = nchunks l.toNat :=
      toNat_ofNat_nchunks (hc.trans hinv.values.rxCap_le)
    show 2 * (BitVec.ofNat 4 (nchunks l.toNat)).toNat < stepsLeft s
    rw [stepsLeft_rxHdrAck hf, hl, regNat_some, if_neg (Nat.not_lt.2 hc), hn]; omega
  | goodChunk r d rest i hf hr hd hi hc =>
    rw [stepsLeft_rxChunk hf] at hpos ⊢
    exact Nat.sub_lt hpos Nat.one_pos
  | nextChunk i n hf hi hn he =>
    obtain ⟨l, n', i', hk, -⟩ := hinv.at_rxChunkAck hf
    obtain rfl : i' = i := Option.some.inj (hk.index.symm.trans hi)
    have hlt := hk.bound
    show 2 * (regNat s.nChunks - (i' + 1).toNat) < stepsLeft s
    rw [stepsLeft_rxChunkAck hf, hk.chunks, hi, regNat_some, regNat_some, toNat_add_one_of_lt hlt]; omega

/-- A step of an undisturbed block is one of the cases. -/
theorem took_of_undisturbed (hd : Undisturbed s) (h : step s = .next t) : Took s t :=
  took_of_fetch ((step_undisturbed hd).symm.trans h)

theorem GoesOn.cases {r : Result} (h : GoesOn r) : (∃ t, r = .next t) ∨ ∃ u, r = .fault (.noHandler u) := by
  cases h with
  | next t => exact .inl ⟨t, rfl⟩
  | noHandler u => exact .inr ⟨u, rfl⟩

/-- A busy block goes on and comes closer to the end of its request, or meets NoHandler. -/
theorem Inv.step_progress (h : Inv s) (hd : Undisturbed s) (hb : busy s.fsm = true) (ha : answered s = true) :
    (∃ t, Machine.step s = .next t ∧ stepsLeft t < stepsLeft s) ∨ ∃ u, Machine.step s = .fault (.noHandler u) := by
  have hgo : GoesOn (Machine.step s) := step_undisturbed hd ▸ h.goesOn hb
  exact hgo.cases.imp_left fun ⟨t, ht⟩ => ⟨t, ht, (took_of_undisturbed hd ht).progress h hb ha⟩

/-! ### A step spends at most one answer of each kind -/

/-- From `s` to `t` no act came from outside, and at most one answer of each kind was taken. -/
structure Spends (s t : State) : Prop where
  mark : t.mark = s.mark := by rfl
  acts : t.env.acts = s.env.acts := by rfl
  avails : s.env.avails.length ≤ t.env.avails.length + 1 := by exact Nat.le_succ _
  reads : s.env.reads.length ≤ t.env.reads.length + 1 := by exact Nat.le_succ _
  bytes : s.env.bytes.length ≤ t.env.bytes.length + 1 := by exact Nat.le_succ _
  ticks : s.env.ticks ≤ t.env.ticks + 1 := by exact Nat.le_succ _

/-- What leaves the marks and the environment alone spends nothing. -/
theorem Spends.of_sameOutside (h : Spends s u) (h' : SameOutside u t) : Spends s t where
  mark := h'.mark.trans h.mark
  acts := by rw [h'.env, h.acts]
  avails := by rw [h'.env]; exact h.avails
  reads := by rw [h'.env]; exact h.reads
  bytes := by rw [h'.env]; exact h.bytes
  ticks := by rw [h'.env]; exact h.ticks

theorem Failed.sameOutside {st : Status} (h : Failed st u t) : SameOutside u t := by
  obtain ⟨r, f, evs, rfl⟩ := h.frame
  exact ⟨rfl, rfl, rfl, evs, rfl⟩

theorem HandedOver.sameOutside (h : HandedOver u t) : SameOutside u t := by
  cases h with
  | receive | deliver => exact ⟨rfl, rfl, rfl, _, rfl⟩

theorem Acked.sameOutside (h : Acked u t) : SameOutside u t := by
  obtain ⟨c, r, f, evs, rfl, -⟩ := h.frame
  exact ⟨rfl, rfl, rfl, evs, rfl⟩

theorem Took.spends (h : Took s t) (hb : busy s.fsm = true) : Spends s t := by
  cases h with
  | accepted q data rest i hh hd hacc => exact absurd (hb.symm.trans hacc.not_busy) nofun
  | wait | txHdr | txChunk | firstChunk | nextChunk => exact {}
  | polled a rest hf ha hp => exact { avails := (congrArg List.length ha).le }
  | empty rest k hf ha hk hn => exact { avails := (congrArg List.length ha).le }
  | timeout rest k hf ha hk hn => exact { avails := (congrArg List.length ha).le }
  | nothing rest hf ha => exact { avails := (congrArg List.length ha).le }
  | pending a rest hf ha hp => exact { avails := (congrArg List.length ha).le }
  | slept k hf hk => exact { ticks := hk.le }
  | mismatch b rest hf hbytes hn => exact { bytes := (congrArg List.length hbytes).le }
  | ackedHdr rest hf hbytes hu hacked =>
    exact Spends.of_sameOutside { bytes := (congrArg List.length hbytes).le } hacked.sameOutside
  | ackedChunk rest i hf hbytes hu hi hacked =>
    exact Spends.of_sameOutside { bytes := (congrArg List.length hbytes).le } hacked.sameOutside
  | badHeader r rest st hf hr hd ht =>
    exact Spends.of_sameOutside { reads := (congrArg List.length hr).le } ht.sameOutside
  | goodHeader r rest h hf hr hd => exact { reads := (congrArg List.length hr).le }
  | badChunk r rest st hf hr hd ht =>
    exact Spends.of_sameOutside { reads := (congrArg List.length hr).le } ht.sameOutside
  | goodChunk r d rest i hf hr hd hi hc => exact { reads := (congrArg List.length hr).le }
  | tooLong l hf hl hc ht => exact Spends.of_sameOutside {} ht.sameOutside
  | noChunk l hf hl hc hz ht => exact Spends.of_sameOutside {} ht.sameOutside
  | lastChunk i n hf hi hn he ht => exact Spends.of_sameOutside {} ht.sameOutside

theorem Spends.undisturbed (h : Spends s t) (hd : Undisturbed s) (hc : t.cfg = s.cfg) : Undisturbed t :=
  ⟨h.mark.trans hd.mark, h.acts.trans hd.acts, hc ▸ hd.config⟩

theorem Spends.supplied {j k : Nat} (h : Spends s t) (hs : Supplied s k) (hj : j < k) : Supplied t j := by
  obtain ⟨ha, hr, hb, ht⟩ := hs
  have := h.avails
  have := h.reads
  have := h.bytes
  have := h.ticks
  exact ⟨by omega, by omega, by omega, by omega⟩

theorem not_isEmpty_of_length_pos {α : Type} {l : List α} (h : 0 < l.length) : (!l.isEmpty) = true := by
  cases l with
  | nil => cases h
  | cons a l => rfl

/-- One answer of every kind answers whatever a busy block asks. -/
theorem Supplied.answered {k : Nat} (h : Supplied s k) (hk : 0 < k) (hb : busy s.fsm = true) : answered s = true := by
  obtain ⟨ha, hr, hbytes, ht⟩ := h
  unfold Machine.answered
  cases hf : s.fsm with
  | idle | deliver => rw [hf] at hb; cases hb
  | awPoll | rxAvail => exact not_isEmpty_of_length_pos (hk.trans_le ha)
  | awRead => exact not_isEmpty_of_length_pos (hk.trans_le hbytes)
  | rxHdr | rxChunk => exact not_isEmpty_of_length_pos (hk.trans_le hr)
  | awSleep => exact bne_iff_ne.2 (hk.trans_le ht).ne'
  | txHdr | txChunk | rxHdrAck | rxChunkAck => rfl

/-! ### The end of a request -/

/-- A run of at most `m` steps leaves the busy states, or meets NoHandler. -/
def LeavesBusyWithin (m : Nat) (s : State) : Prop :=
  ∃ k, k ≤ m ∧
    ((∃ t : State, Host.Core.run core k s = .next t ∧ busy t.fsm = false) ∨
     (∃ u : State, Host.Core.run core k s = .fault (.noHandler u)))

theorem leavesBusyWithin_of_not_busy (m : Nat) (hb : busy s.fsm = false) : LeavesBusyWithin m s :=
  ⟨0, Nat.zero_le m, .inl ⟨s, rfl, hb⟩⟩

theorem LeavesBusyWithin.of_step {m m' : Nat} (h : LeavesBusyWithin m t) (hs : step s = .next t) (hm : m < m') :
    LeavesBusyWithin m' s := by
  obtain ⟨k, hk, hrun⟩ := h
  refine ⟨k + 1, (Nat.succ_le_succ hk).trans hm, ?_⟩
  rwa [run_succ_of_step (M := core) hs k]

/-- By induction on `stepsLeft`: every step lowers it, and leaves enough answers for the rest. -/
theorem Inv.leavesBusyWithin (h : Inv s) (hd : Undisturbed s) (hs : Supplied s (stepsLeft s)) :
    LeavesBusyWithin (stepsLeft s) s := by
  induction hm : stepsLeft s using Nat.strong_induction_on generalizing s with
  | _ m ih =>
    subst hm
    cases hb : busy s.fsm with
    | false => exact leavesBusyWithin_of_not_busy _ hb
    | true =>
      have hpos : 0 < stepsLeft s := h.stepsLeft_pos hb
      rcases h.step_progress hd hb (hs.answered hpos hb) with ⟨t, ht, hlt⟩ | ⟨u, hu⟩
      · have htook : Took s t := took_of_undisturbed hd ht
        have hspends : Spends s t := htook.spends hb
        exact (ih _ hlt (h.step ht) (hspends.undisturbed hd htook.cfg) (hspends.supplied hs hlt) rfl).of_step ht hlt
      · exact ⟨1, hpos, .inr ⟨u, (run_first_step s).trans hu⟩⟩

end Sys2Proof.Machine

namespace Sys2Proof.Proofs

open Sys2Proof.Machine

/-- Settles O46: the invariant rules out every other stop, and each case of a step lowers the count. -/
theorem busyStepsMakeProgress : Obligations.BusyStepsMakeProgress :=
  fun _ h hd hb ha => h.step_progress hd hb ha

/-- Settles O47: by induction on the steps left; the bounds are those of the count. -/
theorem requestsTerminate : Obligations.RequestsTerminate := by
  refine ⟨fun s h hd _ hs => h.leavesBusyWithin hd hs, fun s hf => stepsLeft_txHdr hf, fun s l hf hl => ?_,
    fun s hf => (stepsLeft_rxHdr hf).le, fun s hf => (stepsLeft_rxAvail hf).le⟩
  rw [stepsLeft_rxHdrAck hf, hl, regNat_some]
  split_ifs
  · exact Nat.le_add_right 1 _
  · exact le_rfl

end Sys2Proof.Proofs
end
section
/-! PROOFS. The transceiver (spec/44_transceiver.md R96 to R107, spec/45_dispatch.md R109, R111, R113): the requests that
start a message and their frame, the two acknowledging steps of a receive, and its two endings. -/

namespace Sys2Proof.Machine

variable {s t u : State}

/-! ### Requests that start a message -/

theorem exec_send_bad_length {a b : Nibble} {cmd : Byte} {n : Half} {data : List Byte} (hf : s.fsm = .idle)
    (hl : data.length ≠ n.toNat) : exec (.send a b cmd n data) s = stop .badDescriptor s :=
  (acceptRequest_idle s _ hf).trans (if_pos hl)

theorem exec_send_too_long {a b : Nibble} {cmd : Byte} {n : Half} {data : List Byte} (hf : s.fsm = .idle)
    (hl : data.length = n.toNat) (hm : maxPayload < n.toNat) :
    exec (.send a b cmd n data) s = stop .payloadTooLong s :=
  (acceptRequest_idle s _ hf).trans ((if_neg (not_not.2 hl)).trans (if_pos hm))

/-- The requests that start a message: SEND, RECEIVE and POLL. -/
def StartingRequest (i : Instr) : Prop :=
  (∃ a b cmd n data, i = .send a b cmd n data) ∨ i = .receive ∨ i = .poll

theorem StartingRequest.isRequest {i : Instr} (h : StartingRequest i) : isRequest i = true := by
  rcases h with ⟨a, b, cmd, n, data, rfl⟩ | rfl | rfl <;> rfl

/-- Accepted, such a request writes the message's registers, `origin`, the chunk count, `fsm` and the history, and
nothing else. -/
theorem StartingRequest.accepted_frame {i : Instr} (hi : StartingRequest i) (ha : Accepted u i t) :
    t = { u with
      origin := t.origin, txCmd := t.txCmd, txSrc := t.txSrc, txDst := t.txDst, txLen := t.txLen
      txPayload := t.txPayload, hdrReg := t.hdrReg, nChunks := t.nChunks, chunkIdx := t.chunkIdx
      fsm := t.fsm, hist := t.hist } := by
  cases ha with
  | send | receive | poll => rfl
  | checksum | setId | registerHandler | attachDiag | handlerDone => simp [StartingRequest] at hi

/-- RECEIVE and POLL write none of the message's registers and not the chunk count. -/
theorem sameMessage_of_accepted {i : Instr} (hi : i = .receive ∨ i = .poll) (ha : Accepted u i t) :
    SameMessage u t ∧ t.nChunks = u.nChunks ∧ t.chunkIdx = u.chunkIdx := by
  cases ha with
  | receive | poll => exact ⟨⟨rfl, rfl, rfl, rfl, rfl, rfl⟩, rfl, rfl⟩
  | send | checksum | setId | registerHandler | attachDiag | handlerDone => simp at hi

/-! ### The acknowledging steps of a receive -/

/-- A length above the capacity fails once the header is acknowledged (R103). -/
theorem rxHdrAck_too_long {l : Half} (hl : s.rxLen = some l) (hc : s.cfg.rxCap < l.toNat) :
    rxHdrAck s = rxFail .bufferTooSmall (sendAck s) := by
  simp only [rxHdrAck, sendAck_rxLen, sendAck_cfg, hl, readReg_some]
  exact if_pos hc

theorem afterAck_last {i n : BitVec 4} (h : i = n) : afterAck i n s = rxOk s := if_pos h

theorem afterAck_more {i n : BitVec 4} (h : i ≠ n) : afterAck i n s = .next (goTo .rxChunk s) := if_neg h

/-- The count of a message that may be sent is 0 in four bits only if it is 0 (R87). -/
theorem zero_eq_ofNat_nchunks {l : Nat} (h : l ≤ maxPayload) : 0 = BitVec.ofNat 4 (nchunks l) ↔ nchunks l = 0 := by
  rw [← BitVec.toNat_inj, toNat_ofNat_nchunks h]
  exact eq_comm

/-! ### The endings of a receive -/

theorem rxOk_receive {cmd : Byte} {src : Nibble} {l : Half} {p : List Byte} (ho : s.origin = some .recv)
    (hc : s.rxCmd = some cmd) (hs : s.rxSrc = some src) (hl : s.rxLen = some l)
    (hp : cellsAt s.rxBuf 0 l.toNat = some p) :
    rxOk s = .next (complete
      { status := .ok, cmd := some cmd, src := some src, len := some l, payload := some p } s) :=
  rxOk_next.2 (.inl ⟨ho, cmd, src, l, p, hc, hs, hl, hp, rfl⟩)

theorem rxOk_poll (ho : s.origin = some .poll) : rxOk s = dispatchDeliver s := by
  rw [rxOk, ho, readReg_some]

theorem dispatchDeliver_handler {token : Half} {cmd : Byte} {src : Nibble} {l : Half} {p : List Byte}
    (hh : s.handler = some token) (hc : s.rxCmd = some cmd) (hs : s.rxSrc = some src) (hl : s.rxLen = some l)
    (hp : cellsAt s.rxBuf 0 l.toNat = some p) :
    dispatchDeliver s = .next (goTo .deliver (log [.deliver token cmd src p l] s)) :=
  dispatchDeliver_next.2 ⟨token, cmd, src, l, p, hh, hc, hs, hl, hp, rfl⟩

theorem dispatchDeliver_no_handler (hh : s.handler = none) : dispatchDeliver s = stop .noHandler s := by
  rw [dispatchDeliver, hh]

theorem rxFail_receive (st : Status) (ho : s.origin = some .recv) :
    rxFail st s = .next (complete { status := st } s) :=
  rxFail_next.2 (.inl ⟨ho, rfl⟩)

theorem rxFail_poll (st : Status) (ho : s.origin = some .poll) :
    rxFail st s = .next (complete { status := .ok, delivered := some false }
      (if s.diagEn then log [.diag (statusCode st)] s else s)) :=
  rxFail_next.2 (.inr ⟨.inr ho, dispatchDrop_next.2 rfl⟩)

end Sys2Proof.Machine

namespace Sys2Proof.Proofs

open Sys2Proof.Machine

/-- Settles O57: an accepted one writes the registers of its message alone, and a held one nothing. -/
theorem startingRequestsFrame : Obligations.StartingRequestsFrame := by
  intro i s t hi h
  rcases accepted_of_next (StartingRequest.isRequest hi) h with ha | ⟨-, -, rfl⟩
  · obtain ⟨q, d, evs, hhist, -⟩ := ha.events
    have hsame := sameMessage_of_accepted (ha := ha)
    rw [StartingRequest.accepted_frame hi ha] at hsame ⊢
    exact ⟨⟨rfl, rfl, rfl, rfl⟩, ⟨rfl, rfl, rfl⟩, ⟨rfl, rfl⟩, fun _ => rfl, ⟨rfl, rfl, rfl, _, hhist⟩, rfl, rfl, hsame⟩
  · exact ⟨⟨rfl, rfl, rfl, rfl⟩, ⟨rfl, rfl, rfl⟩, ⟨rfl, rfl⟩, fun _ => rfl,
      ⟨rfl, rfl, rfl, [], (List.append_nil _).symm⟩, rfl, rfl, fun _ => ⟨⟨rfl, rfl, rfl, rfl, rfl, rfl⟩, rfl, rfl⟩⟩

/-- Settles O17: the list's length is checked first, then the bound on it. -/
theorem sendIsAcceptedOrRefused : Obligations.SendIsAcceptedOrRefused := by
  intro a b cmd n data s hf
  exact ⟨fun hl => exec_send_bad_length hf hl, fun hl hm => exec_send_too_long hf hl hm,
    fun hl hm => execSend_next.2 (.inl ⟨hf, hl, hm, rfl⟩)⟩

/-- Settles O18: an idle block accepts it, and nothing is asked of the transport. -/
theorem receiveStartsTheHeaderRead : Obligations.ReceiveStartsTheHeaderRead :=
  fun _ hf => execReceive_next.2 (.inl ⟨hf, rfl⟩)

/-- Settles O25: each of the two states writes its own register and starts the wait for its own unit. -/
theorem unitIsWrittenThenAwaited : Obligations.UnitIsWrittenThenAwaited :=
  fun _ hd => ⟨fun _ hf hr => step_txHdr hd hf hr, fun _ hf hr => step_txChunk hd hf hr⟩

/-- Settles O32: a length that fits the configured capacity has a chunk count that four bits hold. -/
theorem headerIsAcknowledgedBeforeTheCapacityCheck : Obligations.HeaderIsAcknowledgedBeforeTheCapacityCheck := by
  intro s l hd hf hl u v
  have hcap : s.cfg.rxCap ≤ maxPayload := ((cfgOk_iff s.cfg).1 hd.config).2
  have hstep : step s = rxHdrAck s := step_rxHdrAck hd hf
  have hfits (hc : l.toNat ≤ s.cfg.rxCap) : step s = afterAck 0 (BitVec.ofNat 4 (nchunks l.toNat)) v :=
    hstep.trans (rxHdrAck_fits hl hc)
  refine ⟨fun hc => hstep.trans (rxHdrAck_too_long hl hc), fun hc hn => ?_, fun hc hn => ?_⟩
  · exact (hfits hc).trans (afterAck_last ((zero_eq_ofNat_nchunks (hc.trans hcap)).2 hn))
  · exact (hfits hc).trans (afterAck_more (mt (zero_eq_ofNat_nchunks (hc.trans hcap)).1 hn))

/-- Settles O33: the counted chunk is the last one or not. -/
theorem chunkIsAcknowledgedAndCounted : Obligations.ChunkIsAcknowledgedAndCounted := by
  intro s i n hd hf hi hn u
  have hstep : step s = afterAck (i + 1) n u := step_rxChunkAck hd hf hi hn
  exact ⟨fun he => hstep.trans (afterAck_last he), fun he => hstep.trans (afterAck_more he)⟩

/-- Settles O34: the cells are the payload, and the request's origin and the handler say where it goes. -/
theorem receivedMessageIsHandedOver : Obligations.ReceivedMessageIsHandedOver := by
  intro s cmd src l p hc hs hl hlen hcells
  have hp : cellsAt s.rxBuf 0 l.toNat = some p :=
    hlen ▸ cellsAt_of_cells fun a ha => by rw [Nat.zero_add]; exact hcells a (hlen ▸ ha)
  exact ⟨fun ho => rxOk_receive ho hc hs hl hp,
    fun token ho hh => (rxOk_poll ho).trans (dispatchDeliver_handler hh hc hs hl hp),
    fun ho hh => (rxOk_poll ho).trans (dispatchDeliver_no_handler hh)⟩

/-- Settles O35: the request's origin and the sink's enable decide what is reported. -/
theorem receiveFailureIsReported : Obligations.ReceiveFailureIsReported := by
  refine ⟨fun st s => ⟨fun ho => rxFail_receive st ho, fun ho hd => ?_, fun ho hd => ?_⟩, rfl⟩
  · rw [rxFail_poll st ho, if_pos hd, complete_log]
  · rw [rxFail_poll st ho, if_neg (Bool.eq_false_iff.1 hd)]
    rfl

end Sys2Proof.Proofs
end
section
/-! PROOFS. The dispatch step and the configuration requests (spec/45_dispatch.md R109, R110, R112, R115 to R117), and the
statuses and diagnostic codes that a step can report (R114; spec/60_exceptions.md R118, R119). -/

namespace Sys2Proof.Machine

variable {s t u : State}

/-! ### The events that a step reports a status with -/

/-- The events that carry a status: a response (R122) and a diagnostic record (R114). -/
def isReport : Event → Bool
  | .resp _ => true
  | .diag _ => true
  | .req _ _ | .write _ | .flush | .avail _ | .read _ _ | .readByte _ | .tick | .deliver _ _ _ _ _ | .reset => false

/-- What a step can report, by the `fsm`, the `origin` and the `diag_en` it starts with: one line per way a request of
R119's table ends. -/
inductive Reported (f : Fsm) (o : Option Origin) (d : Bool) : List Event → Prop where
  | nothing : Reported f o d []
  | ok (r : Resp) (hr : r.status = .ok) : Reported f o d [.resp r]
  | badAck (hst : .badAck ∈ failures f) (ho : o = some .send) : Reported f o d [.resp { status := .badAck }]
  | failed (st : Status) (hst : st ∈ failures f) (hb : st ≠ .badAck) (ho : o = some .recv) :
      Reported f o d [.resp { status := st }]
  | dropped (st : Status) (r : Resp) (hst : st ∈ failures f) (ho : o = some .poll) (hd : d = true)
      (hr : r.status = .ok) : Reported f o d [.diag (statusCode st), .resp r]

theorem Reported.of_resp {f : Fsm} {o : Option Origin} {d : Bool} {evs : List Event} {r : Resp}
    (h : Reported f o d evs) (hm : .resp r ∈ evs) :
    r.status = .ok ∨
      (r.status ∈ failures f ∧ (r.status = .badAck → o = some .send) ∧ (r.status ≠ .badAck → o = some .recv)) := by
  cases h with
  | nothing => cases hm
  | ok r' hr =>
    obtain rfl : r = r' := by simpa using hm
    exact .inl hr
  | badAck hst ho =>
    obtain rfl : r = { status := .badAck } := by simpa using hm
    exact .inr ⟨hst, fun _ => ho, fun hn => absurd rfl hn⟩
  | failed st hst hb ho =>
    obtain rfl : r = { status := st } := by simpa using hm
    exact .inr ⟨hst, fun he => absurd he hb, fun _ => ho⟩
  | dropped st r' hst ho hd hr =>
    obtain rfl : r = r' := by simpa using hm
    exact .inl hr

theorem Reported.of_diag {f : Fsm} {o : Option Origin} {d : Bool} {evs : List Event} {code : BitVec 4}
    (h : Reported f o d evs) (hm : .diag code ∈ evs) :
    o = some .poll ∧ d = true ∧ ∃ st ∈ failures f, code = statusCode st := by
  cases h with
  | dropped st r hst ho hd hr => exact ⟨ho, hd, st, hst, by simpa using hm⟩
  | nothing | ok | badAck | failed => simp at hm

/-- What the history gained from `s` to `t` is what a step that starts in `s` can report, with events that carry no
status. -/
def Reports (s t : State) : Prop :=
  ∃ evs, t.hist = s.hist ++ evs ∧ Reported s.fsm s.origin s.diagEn (evs.filter isReport)

/-- Events that carry no status may come before the report. -/
theorem Reports.of_log {first : List Event} (hq : first.filter isReport = []) (h : Reports (log first s) t) :
    Reports s t := by
  obtain ⟨evs, hh, hr⟩ := h
  refine ⟨first ++ evs, by rw [hh, log_hist, List.append_assoc], ?_⟩
  rwa [List.filter_append, hq, List.nil_append]

/-! ### The report of each way a step can end -/

/-- R80's checks fail with the five header failures of R119. -/
theorem failures_rxHdr_of_decodeHeader {c : Cfg} {r : List Byte} {own : Nibble} {st : Status}
    (h : decodeHeader c r own = .error st) : st ∈ failures .rxHdr := by
  unfold decodeHeader at h
  split_ifs at h <;> cases h <;> decide

/-- R85's checks fail with the two chunk failures of R119. -/
theorem failures_rxChunk_of_decodeChunk {r : List Byte} {st : Status} (h : decodeChunk r = .error st) :
    st ∈ failures .rxChunk := by
  unfold decodeChunk at h
  split_ifs at h <;> cases h <;> decide

/-- A failed receive is reported in a RECEIVE's response, and at the diagnostic port for a POLL (R107, R113, R114). -/
theorem Failed.reports {st : Status} (h : Failed st u t) (hr : Receiving u) (hst : st ∈ failures u.fsm)
    (hb : st ≠ .badAck) : Reports u t := by
  cases h with
  | receive ho => exact ⟨[_], rfl, .failed st hst hb ho⟩
  | drop ho hd => exact ⟨[_], rfl, .ok _ rfl⟩
  | dropLogged ho hd =>
    have hpoll : u.origin = some .poll := by
      rcases ho with ho | ho
      · simp [Receiving, ho] at hr
      · exact ho
    exact ⟨[_, _], List.append_assoc .., .dropped st _ hst hpoll hd rfl⟩

theorem HandedOver.reports (h : HandedOver u t) : Reports u t := by
  cases h with
  | receive => exact ⟨[_], rfl, .ok _ rfl⟩
  | deliver => exact ⟨[_], rfl, .nothing⟩

theorem Acked.reports (h : Acked u t) : Reports u t := by
  cases h with
  | done => exact ⟨[_], rfl, .ok _ rfl⟩
  | more => exact ⟨[], (List.append_nil _).symm, .nothing⟩

theorem Accepted.reports {i : Instr} (h : Accepted u i t) : Reports u t := by
  cases h with
  | send | receive | poll => exact ⟨[_], rfl, .nothing⟩
  | checksum | setId | registerHandler | attachDiag | handlerDone =>
    exact ⟨[_, _], List.append_assoc .., .ok _ rfl⟩

/-- An acknowledgment wait is a SEND's (R90). -/
theorem Inv.origin_of_awaiting (h : Inv s) (hf : s.fsm = .awPoll ∨ s.fsm = .awSleep ∨ s.fsm = .awRead) :
    s.origin = some .send := by
  obtain ⟨p, n, i, u, k, hs, -⟩ := h.awaiting hf
  exact hs.origin

theorem Took.reports (ht : Took s t) (h : Inv s) : Reports s t := by
  cases ht with
  | wait => exact ⟨[], (List.append_nil _).symm, .nothing⟩
  | accepted q data rest i hh hd ha => exact ha.reports
  | txHdr | txChunk | slept | polled | empty | pending | goodHeader | goodChunk => exact ⟨[_], rfl, .nothing⟩
  | firstChunk | nextChunk => exact ⟨[_, _], rfl, .nothing⟩
  | nothing => exact ⟨[_, _], List.append_assoc .., .ok _ rfl⟩
  | timeout rest k hf =>
    exact ⟨[_, _], List.append_assoc .., .badAck (by rw [hf]; decide) (h.origin_of_awaiting (.inl hf))⟩
  | mismatch b rest hf =>
    exact ⟨[_, _], List.append_assoc .., .badAck (by rw [hf]; decide) (h.origin_of_awaiting (.inr (.inr hf)))⟩
  | ackedHdr rest hf hb hu ha => exact Reports.of_log (first := [.readByte s.cfg.ack]) rfl ha.reports
  | ackedChunk rest i hf hb hu hi ha => exact Reports.of_log (first := [.readByte s.cfg.ack]) rfl ha.reports
  | badHeader r rest st hf hr hd he =>
    have hst : st ∈ failures .rxHdr := failures_rxHdr_of_decodeHeader hd
    exact Reports.of_log rfl (he.reports (h.at_rxHdr hf) (hf ▸ hst) (by rintro rfl; simp [failures] at hst))
  | tooLong l hf hl hc he =>
    obtain ⟨ho, -⟩ := h.at_rxHdrAck hf
    exact Reports.of_log rfl (he.reports ho (by rw [sendAck_fsm, hf]; decide) (by decide))
  | noChunk l hf hl hc hz he => exact Reports.of_log (first := [.write [s.cfg.ack], .flush]) rfl he.reports
  | badChunk r rest st hf hr hd he =>
    obtain ⟨l, n, i, hk, -⟩ := h.at_rxChunk hf
    have hst : st ∈ failures .rxChunk := failures_rxChunk_of_decodeChunk hd
    exact Reports.of_log rfl (he.reports hk.receiving (hf ▸ hst) (by rintro rfl; simp [failures] at hst))
  | lastChunk i n hf hi hn he he' => exact Reports.of_log (first := [.write [s.cfg.ack], .flush]) rfl he'.reports

/-! ### The dispatch step and the configuration requests -/

theorem step_rxAvail (h : Undisturbed s) (hf : s.fsm = .rxAvail) : step s = rxAvail s := by
  simp [step_undisturbed h, fetchByState, hf]

theorem exec_setId_locked (a : Nibble) (hf : s.fsm = .idle) (hk : s.idLocked = true) :
    exec (.setId a) s = stop .idLocked s :=
  (acceptRequest_idle s _ hf).trans (if_pos hk)

/-- No instruction empties the handler slot: REGISTER_HANDLER fills it, and no other one writes it (R116). -/
theorem handler_ne_none_of_exec {i : Instr} (hs : s.handler ≠ none) (h : exec i s = .next t) : t.handler ≠ none := by
  by_cases hi : ∃ n, i = .registerHandler n
  · obtain ⟨n, rfl⟩ := hi
    rcases execRegisterHandler_next.1 h with ⟨-, rfl⟩ | ⟨-, -, rfl⟩
    · exact Option.some_ne_none n
    · exact hs
  · rw [(writtenByItsRequest_of_exec h).handler (not_exists.1 hi)]
    exact hs

end Sys2Proof.Machine

namespace Sys2Proof.Proofs

open Sys2Proof.Machine

/-- Settles O43: each way a step can end reports a line of R119's table; the invariant says whose request it is. -/
theorem statusesByRequest : Obligations.StatusesByRequest := by
  intro s t h hn hs
  obtain ⟨evs, hh, hr⟩ : Reports s t := by
    rcases took_of_step hn hs with ⟨x, ht⟩ | ⟨ref, rest, -, -, rfl⟩
    · exact ht.reports (h.setActs x)
    · exact ⟨[], (List.append_nil _).symm, .nothing⟩
  rw [newEvents_eq hh]
  exact ⟨fun r hm => hr.of_resp (List.mem_filter.2 ⟨hm, rfl⟩),
    fun code hm => hr.of_diag (List.mem_filter.2 ⟨hm, rfl⟩)⟩

/-- Settles O19: an idle block accepts the request; the answer of the availability query decides. -/
theorem pollAsksWhatIsPending : Obligations.PollAsksWhatIsPending := by
  refine ⟨fun s hf => execPoll_next.2 (.inl ⟨hf, rfl⟩), fun s a rest hd hf ha => ?_⟩
  rw [step_rxAvail hd hf]
  exact ⟨fun h0 => rxAvail_next.2 (.inr ⟨a, rest, ha, .inl ⟨h0, complete_log _ _ (setAvails rest s)⟩⟩),
    fun h0 => rxAvail_next.2 (.inr ⟨a, rest, ha, .inr ⟨h0, rfl⟩⟩)⟩

/-- Settles O20: the lock decides between the write and the refusal. -/
theorem setIdLocksTheIdentity : Obligations.SetIdLocksTheIdentity :=
  fun a s hf => ⟨fun hk => execSetId_next.2 (.inl ⟨hf, hk, complete_log _ _ (setIdentity a s)⟩),
    fun hk => exec_setId_locked a hf hk⟩

/-- Settles O21: registration writes the slot whatever it held, and nothing else does. -/
theorem lastHandlerRegistrationWins : Obligations.LastHandlerRegistrationWins :=
  ⟨fun n s hf => execRegisterHandler_next.2 (.inl ⟨hf, complete_log _ _ (setHandler n s)⟩),
    fun _ _ _ hs h => handler_ne_none_of_exec hs h⟩

/-- Settles O22: an idle block accepts the request for either value of the enable. -/
theorem attachDiagWritesTheEnable : Obligations.AttachDiagWritesTheEnable :=
  fun en s hf => execAttachDiag_next.2 (.inl ⟨hf, complete_log _ _ (setDiagEn en s)⟩)

/-- Settles O23: DELIVER accepts HANDLER_DONE alone, and IDLE has nothing to end. -/
theorem handlerDoneEndsTheDelivery : Obligations.HandlerDoneEndsTheDelivery :=
  ⟨fun s hf => execHandlerDone_next.2 (.inl ⟨hf, complete_log _ _ s⟩), fun _ hf => exec_handlerDone_idle hf,
    fun _ _ hf hr hi => exec_request_deliver hf hr hi⟩

end Sys2Proof.Proofs
end
section
/-! PROOFS. Reset (spec/70_reset_and_hazards.md R136, R137): the values of power-on, and the step that takes an explicit
reset. -/

namespace Sys2Proof.Machine

variable {s : State}

/-- Reset leaves no byte of the buffer written (R32, R136). -/
theorem cellAt_reset (a : Nat) : cellAt State.reset.rxBuf a = none := rfl

/-- An explicit reset that is due is taken whatever the state is in: `fsm`, mark and configuration do not matter (log 9). -/
theorem step_of_reset {rest : List (Nat × Act)} (ha : s.env.acts = (0, .reset) :: rest) :
    step s = .next (takeReset (setActs rest s)) :=
  step_next.2 (.inr (.inl ⟨rest, ha, rfl⟩))

end Sys2Proof.Machine

namespace Sys2Proof.Proofs

open Sys2Proof.Machine

/-- Settles O53: each register of R136 is a field that `State.reset` gives, the cells are those of an unwritten buffer, and
the explicit reset that is due is the step. -/
theorem resetSetsEveryRegister : Obligations.ResetSetsEveryRegister :=
  ⟨⟨rfl, rfl, rfl, rfl, rfl, rfl, rfl, rfl, rfl, rfl, rfl, rfl, rfl, rfl, rfl, rfl, rfl, rfl, rfl, rfl, rfl,
    cellAt_reset, rfl, rfl⟩, fun _ _ ha => step_of_reset ha⟩

end Sys2Proof.Proofs
end
